-- ==== Sys2Proof/Config.lean ====
section
/-! DEFINITION. The named parameters of 00_scope R7 that a run keeps fixed: MEM_SIZE, ADDR_POLICY, STACK_MODE.
The state carries them as plain data, so a statement about every state holds for every value (log entry 3).
INIT is an argument of the launch (Machine/Launch.lean) and END_PC of a run (Machine/Run.lean).
The spec leaves no instruction's result open, so no free value is declared here. -/

namespace Sys2Proof

/-- What an address past 0xFFFF or past the store does (R7, R53, D5). -/
inductive AddrPolicy where
  /-- the access raises AddressOutOfRange -/
  | fault
  /-- the address is first reduced modulo 2^16 -/
  | wrap
deriving DecidableEq, Repr

/-- The stack discipline (R7, R57 to R59, D4). -/
inductive StackMode where
  /-- the document's: store then decrement, increment then load -/
  | doc
  /-- the SM83 hardware's: decrement then store, load then increment -/
  | sm83
deriving DecidableEq, Repr

/-- The parameters of R7 that every step reads. -/
structure Params where
  /-- `MEM_SIZE`: how many cells the store holds -/
  memSize : Nat
  addrPolicy : AddrPolicy
  stackMode : StackMode
deriving DecidableEq, Repr

/-- The defaults of R7. -/
def Params.default : Params := { memSize := 0x10000, addrPolicy := .fault, stackMode := .doc }

/-- The range of `MEM_SIZE` in R7: 1 .. 0x10000. -/
abbrev Params.wf (p : Params) : Prop := 1 ≤ p.memSize ∧ p.memSize ≤ 0x10000

end Sys2Proof
end

