-- ==== Sys2Proof/Word.lean ====
section
/-! DEFINITION. The two widths of the machine (00_scope R6, R15) and the arithmetic of R9: a byte is one storage
cell, a word is what a 16-bit access moves. -/

namespace Sys2Proof

/-- One storage cell, "the bus's native storage granularity" (R6). -/
abbrev Byte := BitVec 8

/-- One 16-bit value: an address, a register pair, SP or PC (R6). -/
abbrev Word := BitVec 16

/-- `hi ++ lo` of R9, which is `hi * 256 + lo`. -/
def join (hi lo : Byte) : Word := hi ++ lo

/-- `w[15:8]` (R9). -/
def hiByte (w : Word) : Byte := w.extractLsb' 8 8

/-- `w[7:0]` (R9). -/
def loByte (w : Word) : Byte := w.extractLsb' 0 8

/-- `sext_16` of R9: the signed reading of a byte as a 16-bit value. -/
def sext16 (v : Byte) : Word := v.signExtend 16

end Sys2Proof
end

