-- ==== Sys2Proof/Machine/State.lean ====
section
/-! DEFINITION. The machine's state as plain data: the register file (10_state R20), the core latches (R30), the store
(20_memory R50) and the parameters of R7; what can stop a step; and the state right after reset. -/

namespace Sys2Proof.Machine

open Sys2Proof

/-- The fault reasons of 60_exceptions R251, each with its recorded info and the `pc0` of the faulting instruction. A
value of this type is also what the sticky latch holds (R250). A fault ends the run at the instruction that raises it
and has no other effect. Safe: the model never runs past a fault (D8). -/
inductive Fault where
  /-- Code 1. Raised by the fetch of one of the 11 illegal bytes (45_system R245). Safe. -/
  | illegalOpcode (pc0 : Word) (op : Byte)
  /-- Code 2. Raised by a descriptor of an external opcode table that no rule handles (30_encoding R108), never by
  `step`, whose table is fixed. `bytes` are the opcode bytes. Safe. -/
  | invalidOperandCombination (pc0 : Word) (bytes : List Byte)
  /-- Code 3. Raised by any bus access whose address fails the check of 20_memory R53; `addr` is the address
  that the check compares (log entry 14). Safe. -/
  | addressOutOfRange (addr : Nat) (pc0 : Word)
  /-- Code 4. Raised by a descriptor of an external opcode table whose condition operand is no condition code
  (30_encoding R96, 60_exceptions R252), never by `step`. Safe. -/
  | malformedCondition (pc0 : Word) (bytes : List Byte)
deriving DecidableEq, Repr

/-- What the model has no move for. -/
inductive Refusal where
  /-- An instruction that has no meaning yet. Raised by no arm of `exec`: every instruction is modelled. Safe. -/
  | notModelled (mnemonic : String)
  /-- An interrupt entry while IME = 0: against the controller's duty (60_exceptions R262, I11). Raised by
  `hostAct` only, never by a step. Safe. -/
  | entryWhileMasked
  /-- An interrupt entry while a fault is latched (60_exceptions R263, R267, I11). Raised by `hostAct` only. Safe. -/
  | entryWhileFaulted
  /-- A host access to a cell the store does not have (70_reset_and_hazards R284: "any memory cell"). Raised by
  `hostAct` only. Safe. -/
  | hostAccessOutsideStore (addr : Nat)
deriving DecidableEq, Repr

/-- The store (R50): the cells that differ from what an unlisted cell reads as, by rising address. -/
abbrev Memory := List Host.Cell

/-- What a cell reads as that no launch image and no write has listed (log entry 2). -/
def unlistedByte : Byte := 0

/-- The whole machine: "one record: register file, latches and memory" (R34), and the parameters of R7. -/
structure State where
  /-- A in bits 15..8, F in bits 7..0 (R22) -/
  af : Word
  /-- B in bits 15..8, C in bits 7..0 (R22) -/
  bc : Word
  /-- D in bits 15..8, E in bits 7..0 (R22) -/
  de : Word
  /-- H in bits 15..8, L in bits 7..0 (R22) -/
  hl : Word
  /-- the stack pointer (R29) -/
  sp : Word
  /-- the program counter: `pc0` while an instruction runs (R28) -/
  pc : Word
  /-- the interrupt master enable latch (R30) -/
  ime : Bool
  /-- an EI waits for the end of the next instruction (R30, R31) -/
  eiPending : Bool
  /-- set by HALT (R30, R241) -/
  halted : Bool
  /-- set by STOP (R30, R242) -/
  stopped : Bool
  /-- the sticky fault latch (R30, R250) -/
  fault : Option Fault
  /-- the store (R50, R51) -/
  mem : Memory
  /-- MEM_SIZE, ADDR_POLICY and STACK_MODE (R7): the model's field, which no step writes (log entry 3) -/
  params : Params
deriving DecidableEq, Repr

/-- The machine right after reset. The latches are as R30 and R281 say. The spec gives the registers and the store no
reset value (R40, D13): the zeros are the model's choice (log entries 1 and 2), and the parameters are R7's defaults. -/
def State.reset : State where
  af := 0
  bc := 0
  de := 0
  hl := 0
  sp := 0
  pc := 0
  ime := false
  eiPending := false
  halted := false
  stopped := false
  fault := none
  mem := []
  params := Params.default

end Sys2Proof.Machine
end

