-- ==== Sys2Proof/Syntax.lean ====
section
/-! DEFINITION. The instructions. Every row of spec/opcode_table.json is one constructor of `Instr` applied to its
operands: rows of one rule that differ only in a register, condition, bit-index or restart field (30_encoding R85 to
R89) share a constructor, with that field as a typed operand (log entry 10). -/

namespace Sys2Proof

/-- The seven registers an r8 field can name (R86). -/
inductive Reg8 where
  | b | c | d | e | h | l | a
deriving DecidableEq, Repr

/-- The 16-bit registers of R10: `R16[rr]`. -/
inductive Pair where
  | af | bc | de | hl | sp | pc
deriving DecidableEq, Repr

/-- The r16 field (R87): LD rr,n16, INC/DEC rr, ADD HL,rr. -/
inductive R16 where
  | bc | de | hl | sp
deriving DecidableEq, Repr

/-- The r16stk field (R87): PUSH and POP. -/
inductive R16Stk where
  | bc | de | hl | af
deriving DecidableEq, Repr

/-- The condition field (R88). -/
inductive Cond where
  | nz | z | nc | c
deriving DecidableEq, Repr

/-- An r8 operand (R86): a register, or code 110, the byte at address HL. -/
inductive RM8 where
  | reg (r : Reg8)
  | mhl
deriving DecidableEq, Repr

/-- The source of a two-operand ALU instruction (R181): a register, (HL) or n8. -/
inductive Src8 where
  | reg (r : Reg8)
  | mhl
  | imm (n : Byte)
deriving DecidableEq, Repr

/-- The instructions of the opcode map (R97 to R103). Each constructor names the rule that gives its meaning. -/
inductive Instr where
  -- loads (40_load.md)
  /-- R120 `LD r,r'` -/
  | ldRegReg (dst src : Reg8)
  /-- R121 `LD r,n8` -/
  | ldRegImm (dst : Reg8) (n : Byte)
  /-- R122 `LD r,(HL)` -/
  | ldRegMhl (dst : Reg8)
  /-- R123 `LD (HL),r` -/
  | ldMhlReg (src : Reg8)
  /-- R124 `LD (HL),n8` -/
  | ldMhlImm (n : Byte)
  /-- R125 `LD A,(BC)` -/
  | ldAMbc
  /-- R126 `LD A,(DE)` -/
  | ldAMde
  /-- R127 `LD (BC),A` -/
  | ldMbcA
  /-- R128 `LD (DE),A` -/
  | ldMdeA
  /-- R129 `LD A,(HL+)` -/
  | ldAMhlInc
  /-- R130 `LD A,(HL-)` -/
  | ldAMhlDec
  /-- R131 `LD (HL+),A` -/
  | ldMhlIncA
  /-- R132 `LD (HL-),A` -/
  | ldMhlDecA
  /-- R133 `LD A,(a16)` -/
  | ldAMabs (a : Word)
  /-- R134 `LD (a16),A` -/
  | ldMabsA (a : Word)
  /-- R135 `LDH A,(a8)` -/
  | ldhAImm (n : Byte)
  /-- R136 `LDH (a8),A` -/
  | ldhImmA (n : Byte)
  /-- R137 `LDH A,(C)` -/
  | ldhAC
  /-- R138 `LDH (C),A` -/
  | ldhCA
  /-- R139 `LD (a16),SP` -/
  | ldMabsSp (a : Word)
  /-- R140 `LD rr,n16` -/
  | ldPairImm (rr : R16) (n : Word)
  /-- R141 `LD SP,HL` -/
  | ldSpHl
  /-- R142 `LD HL,SP+e8` -/
  | ldHlSpE8 (e : Byte)
  /-- R143 `PUSH rr` -/
  | push (rr : R16Stk)
  /-- R144 `POP rr` and R145 `POP AF` -/
  | pop (rr : R16Stk)
  -- control transfer (41_control.md)
  /-- R160 `JP a16` -/
  | jp (a : Word)
  /-- R161 `JP cc,a16` -/
  | jpCond (cc : Cond) (a : Word)
  /-- R162 `JP HL` -/
  | jpHl
  /-- R163 `JR e8` -/
  | jr (e : Byte)
  /-- R164 `JR cc,e8` -/
  | jrCond (cc : Cond) (e : Byte)
  /-- R165 `CALL a16` -/
  | call (a : Word)
  /-- R166 `CALL cc,a16` -/
  | callCond (cc : Cond) (a : Word)
  /-- R167 `RET` -/
  | ret
  /-- R168 `RET cc` -/
  | retCond (cc : Cond)
  /-- R169 `RETI` -/
  | reti
  /-- R170 `RST t`, t = y * 8 -/
  | rst (y : BitVec 3)
  -- 8-bit arithmetic and logic (42_alu8.md)
  /-- R182 `ADD A,src` -/
  | add (src : Src8)
  /-- R183 `ADC A,src` -/
  | adc (src : Src8)
  /-- R184 `SUB A,src` -/
  | sub (src : Src8)
  /-- R185 `SBC A,src` -/
  | sbc (src : Src8)
  /-- R186 `AND A,src` -/
  | and (src : Src8)
  /-- R187 `XOR A,src` -/
  | xor (src : Src8)
  /-- R188 `OR A,src` -/
  | or (src : Src8)
  /-- R189 `CP A,src` -/
  | cp (src : Src8)
  /-- R190 `INC r` -/
  | incReg (r : Reg8)
  /-- R191 `INC (HL)` -/
  | incMhl
  /-- R192 `DEC r` -/
  | decReg (r : Reg8)
  /-- R193 `DEC (HL)` -/
  | decMhl
  /-- R194 -/
  | rlca
  /-- R195 -/
  | rrca
  /-- R196 -/
  | rla
  /-- R197 -/
  | rra
  /-- R198 -/
  | daa
  /-- R199 -/
  | cpl
  /-- R200 -/
  | scf
  /-- R201 -/
  | ccf
  -- 16-bit arithmetic (43_alu16.md)
  /-- R210 `ADD HL,rr` -/
  | addHl (rr : R16)
  /-- R211 `INC rr` -/
  | incPair (rr : R16)
  /-- R212 `DEC rr` -/
  | decPair (rr : R16)
  /-- R214 `ADD SP,e8` -/
  | addSpE8 (e : Byte)
  -- 0xCB-prefixed (44_cb_prefix.md)
  /-- R221 -/
  | rlc (t : RM8)
  /-- R222 -/
  | rrc (t : RM8)
  /-- R223 -/
  | rl (t : RM8)
  /-- R224 -/
  | rr (t : RM8)
  /-- R225 -/
  | sla (t : RM8)
  /-- R226 -/
  | sra (t : RM8)
  /-- R227 -/
  | swap (t : RM8)
  /-- R228 -/
  | srl (t : RM8)
  /-- R229 `BIT b,r` -/
  | bit (b : BitVec 3) (t : RM8)
  /-- R230 `RES b,r` -/
  | res (b : BitVec 3) (t : RM8)
  /-- R231 `SET b,r` -/
  | set (b : BitVec 3) (t : RM8)
  -- system (45_system.md)
  /-- R240 -/
  | nop
  /-- R241 -/
  | halt
  /-- R242 `STOP`, with the byte it ignores -/
  | stop (ignored : Byte)
  /-- R243 -/
  | di
  /-- R244 -/
  | ei
  /-- R245: one of the 11 illegal bytes -/
  | illegal (op : Byte)
deriving DecidableEq, Repr

end Sys2Proof
end

