-- ==== Sys2Proof/Machine/Ops.lean ====
section
/-! DEFINITION. The named operations: the store, the registers, the bus with its address check, the stack, the
control-flow unit, raising a fault, entering and leaving an interrupt. Everything an instruction does to the state
goes through these. During an instruction `s.pc` is `pc0`: only the control-flow unit writes it, at the end (R28). -/

namespace Sys2Proof.Machine

open Sys2Proof

/-! ### The store (20_memory R50, R52) -/

/-- The byte a cell holds. -/
def Memory.get (m : Memory) (a : Nat) : Byte :=
  match m with
  | [] => unlistedByte
  | c :: rest => if c.1 = a then c.2 else Memory.get rest a

/-- The store with no entry for `a`. -/
def Memory.erase (m : Memory) (a : Nat) : Memory := m.filter fun c => c.1 != a

/-- The store with an entry for `a` before the first entry of a higher address. -/
def Memory.insert (m : Memory) (a : Nat) (v : Byte) : Memory :=
  match m with
  | [] => [(a, v)]
  | c :: rest => if a < c.1 then (a, v) :: c :: rest else c :: Memory.insert rest a v

/-- The store after `v` is written to cell `a`; a cell that reads as an unlisted one is not listed. -/
def Memory.set (m : Memory) (a : Nat) (v : Byte) : Memory :=
  if v = unlistedByte then Memory.erase m a else Memory.insert (Memory.erase m a) a v

/-- The canonical form: addresses strictly rise and no entry equals what an unlisted cell reads as. -/
abbrev Memory.wf (m : Memory) : Prop := m.Pairwise (fun x y => x.1 < y.1) ∧ ∀ c ∈ m, c.2 ≠ unlistedByte

/-! ### The registers (10_state R20 to R25) -/

/-- The value as a write to AF stores it: F[3:0] is hard-wired to 0 (R25). -/
def maskAf (v : Word) : Word := v &&& 0xFFF0

/-- `R16[rr]` (R10, R21). -/
def State.r16 (s : State) (rr : Pair) : Word :=
  match rr with
  | .af => s.af
  | .bc => s.bc
  | .de => s.de
  | .hl => s.hl
  | .sp => s.sp
  | .pc => s.pc

/-- `R16[rr] <- v` (R10, R21, R25). -/
def State.setR16 (s : State) (rr : Pair) (v : Word) : State :=
  match rr with
  | .af => { s with af := maskAf v }
  | .bc => { s with bc := v }
  | .de => { s with de := v }
  | .hl => { s with hl := v }
  | .sp => { s with sp := v }
  | .pc => { s with pc := v }

/-- `R8[r]`: a half of its pair (R21, R22). -/
def State.r8 (s : State) (r : Reg8) : Byte :=
  match r with
  | .a => hiByte s.af
  | .b => hiByte s.bc
  | .c => loByte s.bc
  | .d => hiByte s.de
  | .e => loByte s.de
  | .h => hiByte s.hl
  | .l => loByte s.hl

/-- `R8[r] <- v`: the other half of the pair stays (R21). -/
def State.setR8 (s : State) (r : Reg8) (v : Byte) : State :=
  match r with
  | .a => { s with af := join v (loByte s.af) }
  | .b => { s with bc := join v (loByte s.bc) }
  | .c => { s with bc := join (hiByte s.bc) v }
  | .d => { s with de := join v (loByte s.de) }
  | .e => { s with de := join (hiByte s.de) v }
  | .h => { s with hl := join v (loByte s.hl) }
  | .l => { s with hl := join (hiByte s.hl) v }

/-- `R8[F]` (R10, R24). -/
def State.f (s : State) : Byte := loByte s.af

/-- `R8[F] <- v`: F[3:0] is hard-wired to 0 (R25). -/
def State.setF (s : State) (v : Byte) : State := { s with af := join (hiByte s.af) (v &&& 0xF0) }

/-! ### The bus (20_memory R52 to R55) -/

/-- The address a bus operation uses for the natural `a`: `Wrap` takes it mod 2^16 (R53). -/
def busAddress (p : Params) (a : Nat) : Nat :=
  match p.addrPolicy with
  | .fault => a
  | .wrap => a % 0x10000

/-- The address check of R53 passes. -/
def inStore (p : Params) (a : Nat) : Bool := decide (busAddress p a ≤ 0xFFFF) && decide (busAddress p a < p.memSize)

/-- The byte in the cell that the bus reaches for `a`. -/
def State.peek (s : State) (a : Nat) : Byte := Memory.get s.mem (busAddress s.params a)

/-- The state with `v` in the cell that the bus reaches for `a`. -/
def State.poke (s : State) (a : Nat) (v : Byte) : State :=
  { s with mem := Memory.set s.mem (busAddress s.params a) v }

/-- The fault of an access at `a` (R53, R251 code 3). -/
def addressFault (s : State) (a : Nat) : Fault := .addressOutOfRange (busAddress s.params a) s.pc

/-- `MemRead(a, 1)`, the document's `readByte` (R11, R52, R53). -/
def memRead (s : State) (a : Nat) : Except Fault Byte :=
  if inStore s.params a then .ok (s.peek a) else .error (addressFault s a)

/-- `MemWrite(a, 1, v)`, the document's `writeByte` (R11, R52, R53). -/
def memWrite (s : State) (a : Nat) (v : Byte) : Except Fault State :=
  if inStore s.params a then .ok (s.poke a v) else .error (addressFault s a)

/-- `MemRead(a, 2)`: both addresses are checked, `a` first; little-endian (R54). -/
def memReadWord (s : State) (a : Nat) : Except Fault Word :=
  if inStore s.params a then
    if inStore s.params (a + 1) then .ok (join (s.peek (a + 1)) (s.peek a)) else .error (addressFault s (a + 1))
  else .error (addressFault s a)

/-- `MemWrite(a, 2, v)`: both addresses are checked before either byte moves, then the low byte at `a` and the high
byte at `a + 1` (R54). -/
def memWriteWord (s : State) (a : Nat) (v : Word) : Except Fault State :=
  if inStore s.params a then
    if inStore s.params (a + 1) then .ok ((s.poke a (loByte v)).poke (a + 1) (hiByte v))
    else .error (addressFault s (a + 1))
  else .error (addressFault s a)

/-! ### The stack (20_memory R57 to R59) -/

/-- `pushByte(v)` in the state's stack mode (R57, R59). -/
def pushByte (s : State) (v : Byte) : Except Fault State :=
  match s.params.stackMode with
  | .doc => match memWrite s s.sp.toNat v with
    | .ok t => .ok { t with sp := s.sp - 1 }
    | .error f => .error f
  | .sm83 => memWrite { s with sp := s.sp - 1 } (s.sp - 1).toNat v

/-- `popByte()` in the state's stack mode: the byte and the state with the new SP (R57, R59). -/
def popByte (s : State) : Except Fault (Byte × State) :=
  match s.params.stackMode with
  | .doc => match memRead s (s.sp + 1).toNat with
    | .ok v => .ok (v, { s with sp := s.sp + 1 })
    | .error f => .error f
  | .sm83 => match memRead s s.sp.toNat with
    | .ok v => .ok (v, { s with sp := s.sp + 1 })
    | .error f => .error f

/-- `pushWord(v)`: the high byte, then the low byte (R58, R59). -/
def pushWord (s : State) (v : Word) : Except Fault State :=
  match pushByte s (hiByte v) with
  | .ok t => pushByte t (loByte v)
  | .error f => .error f

/-- `popWord()`: the low byte, then the high byte (R58, R59). -/
def popWord (s : State) : Except Fault (Word × State) :=
  match popByte s with
  | .ok (lo, t) => match popByte t with
    | .ok (hi, u) => .ok (join hi lo, u)
    | .error f => .error f
  | .error f => .error f

/-! ### The control-flow unit (30_encoding R82) -/

/-- PC becomes `pc_next = (pc0 + len) mod 2^16` (R13, R82). -/
def State.advance (s : State) (len : Nat) : State := { s with pc := s.pc + BitVec.ofNat 16 len }

/-- PC becomes `target` (R82). -/
def State.jumpTo (s : State) (target : Word) : State := { s with pc := target }

/-- The end of an instruction of length `len` that sets no target: its fault, or the state it leaves with PC at
`pc_next` (R12, R82). -/
def complete (len : Nat) (r : Except Fault State) : Host.Outcome State Fault Refusal :=
  match r with
  | .ok t => .next (t.advance len)
  | .error f => .fault f

/-- The end of an instruction that sets a target: its fault, or the state it leaves with PC at the target (R12, R82). -/
def transfer (r : Except Fault (Word × State)) : Host.Outcome State Fault Refusal :=
  match r with
  | .ok (target, t) => .next (t.jumpTo target)
  | .error f => .fault f

/-- Push the return address `pc0 + len` and set the target: CALL and RST (R165, R170). -/
def callTo (s : State) (len : Nat) (target : Word) : Except Fault (Word × State) :=
  match pushWord s (s.pc + BitVec.ofNat 16 len) with
  | .ok t => .ok (target, t)
  | .error f => .error f

/-! ### Faults, the delayed enable, interrupt entry and return -/

/-- The state a fault leaves: nothing changes but the latch, which is set (R12, R250). -/
def State.latchFault (s : State) (f : Fault) : State := { s with fault := some f }

/-- `raise Fault(reason, info)` (R12): the step ends with the fault. The state it leaves is `s.latchFault f`, which
`executeOne` answers beside the fault (log entry 5). -/
def raise (f : Fault) : Host.Outcome State Fault Refusal := .fault f

/-- The delayed-enable step of R31; `before` is the value of `ei_pending` at the start of the `executeOne`. -/
def State.enableDelayed (s : State) (before : Bool) : State :=
  if before && s.eiPending then { s with ime := true, eiPending := false } else s

/-- The end of an `executeOne`: the delayed-enable step, if the instruction completed (R31, R80). -/
def finishStep (before : Bool) (o : Host.Outcome State Fault Refusal) : Host.Outcome State Fault Refusal :=
  match o with
  | .next t => .next (t.enableDelayed before)
  | .fault f => .fault f
  | .refused r => .refused r

/-- The interrupt entry targets of R263, by source (R260). -/
inductive InterruptSource where
  | vblank | lcdStat | timer | serial | joypad
deriving DecidableEq, Repr

/-- `v` of R263. -/
def InterruptSource.vector (i : InterruptSource) : Word :=
  match i with
  | .vblank => 0x0040
  | .lcdStat => 0x0048
  | .timer => 0x0050
  | .serial => 0x0058
  | .joypad => 0x0060

/-- `enterInterrupt(v)` of R263: clears IME, ei_pending and halted, pushes PC, sets PC to the vector. A failing push
is the answer's fault, with pc0 the current PC, and the entry then has no effect. -/
def enterInterrupt (s : State) (i : InterruptSource) : Except Fault State :=
  match pushWord { s with ime := false, eiPending := false, halted := false } s.pc with
  | .ok t => .ok (t.jumpTo i.vector)
  | .error f => .error f

/-- The return from an interrupt, RETI (R169, R265): pops the target and sets IME at once. -/
def returnFromInterrupt (s : State) : Except Fault (Word × State) :=
  match popWord s with
  | .ok (target, t) => .ok (target, { t with ime := true })
  | .error f => .error f

/-- `wake()` of R264. -/
def State.wake (s : State) : State := { s with halted := false, stopped := false }

end Sys2Proof.Machine
end

