-- ==== Sys2Proof/Machine/Flags.lean ====
section
/-! DEFINITION. The flags (10_state R24) and every flag and result computation of the spec: the 8-bit ALU (42_alu8
R181), the 16-bit adders (43_alu16 R210, R213), the rotates and shifts (42_alu8 R194 to R197, 44_cb_prefix R221 to
R228) and DAA (R198). Operands become natural numbers or integers, the exact result is computed, and the narrowing is
the last thing done. -/

namespace Sys2Proof.Machine

open Sys2Proof

/-- `F.Z`, bit 7 (R24). -/
def State.flagZ (s : State) : Bool := s.f.getLsbD 7

/-- `F.N`, bit 6 (R24). -/
def State.flagN (s : State) : Bool := s.f.getLsbD 6

/-- `F.H`, bit 5 (R24). -/
def State.flagH (s : State) : Bool := s.f.getLsbD 5

/-- `F.C`, bit 4 (R24). -/
def State.flagC (s : State) : Bool := s.f.getLsbD 4

/-- `z*0x80 + n*0x40 + h*0x20 + c*0x10` (R181). -/
def packFlags (z n h c : Bool) : Byte :=
  BitVec.ofNat 8 (z.toNat * 0x80 + n.toNat * 0x40 + h.toNat * 0x20 + c.toNat * 0x10)

/-- `setF(z, n, h, c)` (R181). -/
def State.setFlags (s : State) (z n h c : Bool) : State := s.setF (packFlags z n h c)

/-! ### The 8-bit ALU (R181) -/

/-- `(res, h, c)` of an 8-bit ALU primitive. -/
structure Alu8 where
  res : Byte
  h : Bool
  c : Bool
deriving DecidableEq, Repr

/-- `add8(a, b, cin)` (R181). -/
def add8 (a b : Byte) (cin : Bool) : Alu8 where
  res := BitVec.ofNat 8 (a.toNat + b.toNat + cin.toNat)
  h := decide (a.toNat % 16 + b.toNat % 16 + cin.toNat > 0x0F)
  c := decide (a.toNat + b.toNat + cin.toNat > 0xFF)

/-- `sub8(a, b, cin)` (R181). -/
def sub8 (a b : Byte) (cin : Bool) : Alu8 where
  res := BitVec.ofInt 8 ((a.toNat : Int) - b.toNat - cin.toNat)
  h := decide (a.toNat % 16 < b.toNat % 16 + cin.toNat)
  c := decide (a.toNat < b.toNat + cin.toNat)

/-! ### 16-bit arithmetic -/

/-- `(res, h, c)` of a 16-bit sum. -/
structure Alu16 where
  res : Word
  h : Bool
  c : Bool
deriving DecidableEq, Repr

/-- The sum of ADD HL,rr: H out of bit 11, C out of bit 15 (R210). -/
def add16 (a b : Word) : Alu16 where
  res := BitVec.ofNat 16 (a.toNat + b.toNat)
  h := decide (a.toNat % 0x1000 + b.toNat % 0x1000 > 0x0FFF)
  c := decide (a.toNat + b.toNat > 0xFFFF)

/-- `add_sp_e8(sp, n8)`: the flags come from the unsigned low byte (R213). -/
def addSpDisp (sp : Word) (n : Byte) : Alu16 where
  res := BitVec.ofInt 16 ((sp.toNat : Int) + n.toInt)
  h := decide (sp.toNat % 16 + n.toNat % 16 > 0x0F)
  c := decide (sp.toNat % 256 + n.toNat > 0xFF)

/-! ### Rotates and shifts -/

/-- The result and the bit that becomes the carry flag. -/
structure Shifted where
  res : Byte
  c : Bool
deriving DecidableEq, Repr

/-- RLC and RLCA (R221, R194). -/
def rotateLeft (v : Byte) : Shifted where
  res := BitVec.ofNat 8 (v.toNat * 2 % 256) ||| BitVec.ofNat 8 (v.getLsbD 7).toNat
  c := v.getLsbD 7

/-- RRC and RRCA (R222, R195). -/
def rotateRight (v : Byte) : Shifted where
  res := BitVec.ofNat 8 (v.toNat / 2) ||| BitVec.ofNat 8 ((v.getLsbD 0).toNat * 0x80)
  c := v.getLsbD 0

/-- RL and RLA through the carry `cin` (R223, R196). -/
def rotateLeftThrough (v : Byte) (cin : Bool) : Shifted where
  res := BitVec.ofNat 8 (v.toNat * 2 % 256) ||| BitVec.ofNat 8 cin.toNat
  c := v.getLsbD 7

/-- RR and RRA through the carry `cin` (R224, R197). -/
def rotateRightThrough (v : Byte) (cin : Bool) : Shifted where
  res := BitVec.ofNat 8 (v.toNat / 2) ||| BitVec.ofNat 8 (cin.toNat * 0x80)
  c := v.getLsbD 0

/-- SLA (R225). -/
def shiftLeft (v : Byte) : Shifted where
  res := BitVec.ofNat 8 (v.toNat * 2 % 256)
  c := v.getLsbD 7

/-- SRA: bit 7 is kept (R226). -/
def shiftRightArith (v : Byte) : Shifted where
  res := BitVec.ofNat 8 (v.toNat / 2) ||| (v &&& 0x80)
  c := v.getLsbD 0

/-- SRL (R228). -/
def shiftRightLogical (v : Byte) : Shifted where
  res := BitVec.ofNat 8 (v.toNat / 2)
  c := v.getLsbD 0

/-- SWAP (R227): no bit leaves, so C is 0. -/
def swapNibbles (v : Byte) : Shifted where
  res := BitVec.ofNat 8 (v.toNat % 16 * 16 + v.toNat / 16)
  c := false

/-! ### Decimal adjust -/

/-- The adjustment `adj` of DAA (R198); both tests use the A from before. -/
def daaAdjust (a : Byte) (n h c : Bool) : Nat :=
  if n then (if h then 0x06 else 0) + (if c then 0x60 else 0)
  else (if h || decide (a.toNat % 16 > 0x09) then 0x06 else 0) + (if c || decide (a.toNat > 0x99) then 0x60 else 0)

/-- A after DAA (R198). -/
def daaResult (a : Byte) (n h c : Bool) : Byte :=
  if n then BitVec.ofInt 8 ((a.toNat : Int) - daaAdjust a n h c) else BitVec.ofNat 8 (a.toNat + daaAdjust a n h c)

/-- C after DAA: set or kept, never cleared (R198). -/
def daaCarry (a : Byte) (n c : Bool) : Bool := c || (!n && decide (a.toNat > 0x99))

end Sys2Proof.Machine
end

