-- ==== Sys2Proof/Machine/Operands.lean ====
section
/-! DEFINITION. The operand resolver (30_encoding R90 to R94) and the condition evaluator (R95). An operand of any form
becomes a location, read and written in one place each; an update of a register or of (HL) is one operation. -/

namespace Sys2Proof.Machine

open Sys2Proof

/-! ### Register fields -/

/-- The register an r16 field names (R87). -/
def r16Pair : R16 → Pair
  | .bc => .bc
  | .de => .de
  | .hl => .hl
  | .sp => .sp

/-- The register an r16stk field names (R87). -/
def stkPair : R16Stk → Pair
  | .bc => .bc
  | .de => .de
  | .hl => .hl
  | .af => .af

/-! ### Byte operands and their locations (R90, R91) -/

/-- Every form of a byte operand (R90). -/
inductive ByteOperand where
  /-- an 8-bit register -/
  | reg (r : Reg8)
  /-- n8 -/
  | imm (n : Byte)
  /-- (BC), (DE), (HL): the address is the pair's value -/
  | indirect (rr : Pair)
  /-- (HL+) -/
  | hlInc
  /-- (HL-) -/
  | hlDec
  /-- (a16) -/
  | absolute (a : Word)
  /-- (a8): 0xFF00 + n8 (R94) -/
  | highImm (n : Byte)
  /-- (C): 0xFF00 + C (R94) -/
  | highC
deriving DecidableEq, Repr

/-- A location (R91). -/
inductive Loc where
  | reg8 (r : Reg8)
  | imm (v : Byte)
  | mem (addr : Nat)
deriving DecidableEq, Repr

/-- `resolve` of R91, R94. -/
def ByteOperand.resolve (o : ByteOperand) (s : State) : Loc :=
  match o with
  | .reg r => .reg8 r
  | .imm n => .imm n
  | .indirect rr => .mem (s.r16 rr).toNat
  | .hlInc => .mem s.hl.toNat
  | .hlDec => .mem s.hl.toNat
  | .absolute a => .mem a.toNat
  | .highImm n => .mem (0xFF00 + n.toNat)
  | .highC => .mem (0xFF00 + (s.r8 .c).toNat)

/-- The marker of (HL+) or (HL-), applied after the access (R93). -/
def ByteOperand.postModify (o : ByteOperand) (s : State) : State :=
  match o with
  | .reg _ => s
  | .imm _ => s
  | .indirect _ => s
  | .hlInc => { s with hl := s.hl + 1 }
  | .hlDec => { s with hl := s.hl - 1 }
  | .absolute _ => s
  | .highImm _ => s
  | .highC => s

/-- `read` of R91. -/
def Loc.read (l : Loc) (s : State) : Except Fault Byte :=
  match l with
  | .reg8 r => .ok (s.r8 r)
  | .imm v => .ok v
  | .mem a => memRead s a

/-- `write` of R91; a write to an immediate "is never performed", and leaves the state. -/
def Loc.write (l : Loc) (s : State) (v : Byte) : Except Fault State :=
  match l with
  | .reg8 r => .ok (s.setR8 r v)
  | .imm _ => .ok s
  | .mem a => memWrite s a v

/-- A load of 40_load.md: "a deterministic copy from source operand to destination operand" (R146), then the marker of
whichever operand carries one (R93). Both locations are resolved before anything is written. -/
def copyByte (dst src : ByteOperand) (s : State) : Except Fault State :=
  match (src.resolve s).read s with
  | .error f => .error f
  | .ok v => match (dst.resolve s).write s v with
    | .error f => .error f
    | .ok t => .ok (dst.postModify (src.postModify t))

/-! ### r8 operands: a register or (HL) (R86, R220) -/

/-- The operand as a byte operand. -/
def rmOperand (t : RM8) : ByteOperand :=
  match t with
  | .reg r => .reg r
  | .mhl => .indirect .hl

/-- Read the operand, write `f` of what was read back to it, then change the state by `g` of what was read. For (HL)
this is a read and then a write of one cell (R64, R65). -/
def updateRM (t : RM8) (f : Byte → Byte) (g : Byte → State → State) (s : State) : Except Fault State :=
  match ((rmOperand t).resolve s).read s with
  | .error e => .error e
  | .ok v => match ((rmOperand t).resolve s).write s (f v) with
    | .error e => .error e
    | .ok u => .ok (g v u)

/-- A rotate, shift or swap of an r8 operand: the result back, Z computed, N and H cleared, C the bit shifted out
(R221 to R228). -/
def shiftRM (t : RM8) (op : Byte → Shifted) (s : State) : Except Fault State :=
  updateRM t (fun v => (op v).res) (fun v u => u.setFlags ((op v).res == 0) false false (op v).c) s

/-! ### ALU sources (R181) -/

/-- The source as a byte operand. -/
def srcOperand (src : Src8) : ByteOperand :=
  match src with
  | .reg r => .reg r
  | .mhl => .indirect .hl
  | .imm n => .imm n

/-- `v = read(resolve(src))` (R181), then the state `k` makes of it. -/
def withSrc (src : Src8) (s : State) (k : Byte → State) : Except Fault State :=
  match ((srcOperand src).resolve s).read s with
  | .error f => .error f
  | .ok v => .ok (k v)

/-! ### The condition evaluator (R95) -/

/-- `cond(cc)`: a test of one bit of F (R95). -/
def cond (cc : Cond) (s : State) : Bool :=
  match cc with
  | .nz => !s.flagZ
  | .z => s.flagZ
  | .nc => !s.flagC
  | .c => s.flagC

end Sys2Proof.Machine
end

