-- ==== Sys2Proof/Machine/Arith16.lean ====
section
/-! DEFINITION. 16-bit arithmetic (43_alu16 R210 to R215). -/

namespace Sys2Proof.Machine

open Sys2Proof

/-- R210 `ADD HL,rr`: Z is kept. -/
def execAddHl (rr : R16) (s : State) : Host.Outcome State Fault Refusal :=
  complete 1 (.ok ((s.setR16 .hl (add16 s.hl (s.r16 (r16Pair rr))).res).setFlags s.flagZ false
    (add16 s.hl (s.r16 (r16Pair rr))).h (add16 s.hl (s.r16 (r16Pair rr))).c))

/-- R211 `INC rr`: no flag. -/
def execIncPair (rr : R16) (s : State) : Host.Outcome State Fault Refusal :=
  complete 1 (.ok (s.setR16 (r16Pair rr) (s.r16 (r16Pair rr) + 1)))

/-- R212 `DEC rr`: no flag. -/
def execDecPair (rr : R16) (s : State) : Host.Outcome State Fault Refusal :=
  complete 1 (.ok (s.setR16 (r16Pair rr) (s.r16 (r16Pair rr) - 1)))

/-- R214 `ADD SP,e8`: Z and N are cleared. -/
def execAddSpE8 (e : Byte) (s : State) : Host.Outcome State Fault Refusal :=
  complete 2 (.ok ((s.setR16 .sp (addSpDisp s.sp e).res).setFlags false false (addSpDisp s.sp e).h (addSpDisp s.sp e).c))

end Sys2Proof.Machine
end

