-- ==== Sys2Proof/WellFormed.lean ====
section
/-! DEFINITION. What an instruction term must meet to stand for a row of the opcode table. The operand types admit no
other register, condition, bit index or restart target than the fields do (30_encoding R86 to R89), so the one check
left is that an ILLEGAL row carries one of the 11 illegal bytes (R103). -/

namespace Sys2Proof

/-- The 11 illegal opcode bytes of R103. -/
def illegalBytes : List Byte :=
  [0xD3, 0xDB, 0xDD, 0xE3, 0xE4, 0xEB, 0xEC, 0xED, 0xF4, 0xFC, 0xFD]

/-- The check, constructor by constructor. -/
def Instr.wellFormed : Instr → Bool
  | .ldRegReg _ _ => true
  | .ldRegImm _ _ => true
  | .ldRegMhl _ => true
  | .ldMhlReg _ => true
  | .ldMhlImm _ => true
  | .ldAMbc => true
  | .ldAMde => true
  | .ldMbcA => true
  | .ldMdeA => true
  | .ldAMhlInc => true
  | .ldAMhlDec => true
  | .ldMhlIncA => true
  | .ldMhlDecA => true
  | .ldAMabs _ => true
  | .ldMabsA _ => true
  | .ldhAImm _ => true
  | .ldhImmA _ => true
  | .ldhAC => true
  | .ldhCA => true
  | .ldMabsSp _ => true
  | .ldPairImm _ _ => true
  | .ldSpHl => true
  | .ldHlSpE8 _ => true
  | .push _ => true
  | .pop _ => true
  | .jp _ => true
  | .jpCond _ _ => true
  | .jpHl => true
  | .jr _ => true
  | .jrCond _ _ => true
  | .call _ => true
  | .callCond _ _ => true
  | .ret => true
  | .retCond _ => true
  | .reti => true
  | .rst _ => true
  | .add _ => true
  | .adc _ => true
  | .sub _ => true
  | .sbc _ => true
  | .and _ => true
  | .xor _ => true
  | .or _ => true
  | .cp _ => true
  | .incReg _ => true
  | .incMhl => true
  | .decReg _ => true
  | .decMhl => true
  | .rlca => true
  | .rrca => true
  | .rla => true
  | .rra => true
  | .daa => true
  | .cpl => true
  | .scf => true
  | .ccf => true
  | .addHl _ => true
  | .incPair _ => true
  | .decPair _ => true
  | .addSpE8 _ => true
  | .rlc _ => true
  | .rrc _ => true
  | .rl _ => true
  | .rr _ => true
  | .sla _ => true
  | .sra _ => true
  | .swap _ => true
  | .srl _ => true
  | .bit _ _ => true
  | .res _ _ => true
  | .set _ _ => true
  | .nop => true
  | .halt => true
  | .stop _ => true
  | .di => true
  | .ei => true
  | .illegal op => illegalBytes.contains op

/-- The instruction stands for a row of the opcode table. -/
abbrev WellFormed (i : Instr) : Prop := i.wellFormed = true

end Sys2Proof
end

