-- ==== Sys2Proof/Decode.lean ====
section
/-! DEFINITION. The decoder (30_encoding R81, R84 to R105), total on any bytes, then the encoder written from the same
tables. `decodeOp` is the opcode map itself; `decode` reads a byte list and refuses by name only a list that ends
inside an instruction. -/

namespace Sys2Proof

/-! ### Fields of an opcode byte (R85) -/

/-- `x = op[7:6]`, the quadrant, or the group of a 0xCB second byte. -/
def fieldX (op : Byte) : Nat := (op.extractLsb' 6 2).toNat

/-- `y = op[5:3]`. -/
def fieldY (op : Byte) : Nat := (op.extractLsb' 3 3).toNat

/-- `z = op[2:0]`. -/
def fieldZ (op : Byte) : Nat := (op.extractLsb' 0 3).toNat

/-- `y` as the three bits of a restart target or a bit index. -/
def bitsY (op : Byte) : BitVec 3 := op.extractLsb' 3 3

/-- `p = op[5:4]`. -/
def fieldP (op : Byte) : Nat := (op.extractLsb' 4 2).toNat

/-! ### What the field codes select -/

/-- The r8 field (R86). -/
def rm8Of (code : Nat) : RM8 :=
  match code with
  | 0 => .reg .b
  | 1 => .reg .c
  | 2 => .reg .d
  | 3 => .reg .e
  | 4 => .reg .h
  | 5 => .reg .l
  | 6 => .mhl
  | _ => .reg .a

/-- The r16 field (R87). -/
def r16Of (code : Nat) : R16 :=
  match code with
  | 0 => .bc
  | 1 => .de
  | 2 => .hl
  | _ => .sp

/-- The r16stk field (R87). -/
def r16StkOf (code : Nat) : R16Stk :=
  match code with
  | 0 => .bc
  | 1 => .de
  | 2 => .hl
  | _ => .af

/-- The condition field (R88). -/
def condOf (code : Nat) : Cond :=
  match code with
  | 0 => .nz
  | 1 => .z
  | 2 => .nc
  | _ => .c

/-- An r8 operand as the source of an ALU instruction (R181). -/
def RM8.toSrc (t : RM8) : Src8 :=
  match t with
  | .reg r => .reg r
  | .mhl => .mhl

/-- The ALU operation field (R89). -/
def aluOf (code : Nat) (src : Src8) : Instr :=
  match code with
  | 0 => .add src
  | 1 => .adc src
  | 2 => .sub src
  | 3 => .sbc src
  | 4 => .and src
  | 5 => .xor src
  | 6 => .or src
  | _ => .cp src

/-- The shift field of 0xCB group 0 (R89). -/
def shiftOf (code : Nat) (t : RM8) : Instr :=
  match code with
  | 0 => .rlc t
  | 1 => .rrc t
  | 2 => .rl t
  | 3 => .rr t
  | 4 => .sla t
  | 5 => .sra t
  | 6 => .swap t
  | _ => .srl t

/-! ### The opcode map -/

/-- Row z = 0 of quadrant 0 (R97). -/
def decodeX0Z0 (op n1 n2 : Byte) : Instr :=
  match fieldY op with
  | 0 => .nop
  | 1 => .ldMabsSp (join n2 n1)
  | 2 => .stop n1
  | 3 => .jr n1
  | y + 4 => .jrCond (condOf y) n1

/-- Row z = 1 of quadrant 0 (R97): column y is `2p + q`. -/
def decodeX0Z1 (op n1 n2 : Byte) : Instr :=
  if op.getLsbD 3 then .addHl (r16Of (fieldP op)) else .ldPairImm (r16Of (fieldP op)) (join n2 n1)

/-- Row z = 2 of quadrant 0 (R97, the r16mem column of R87). -/
def decodeX0Z2 (op : Byte) : Instr :=
  match fieldY op with
  | 0 => .ldMbcA
  | 1 => .ldAMbc
  | 2 => .ldMdeA
  | 3 => .ldAMde
  | 4 => .ldMhlIncA
  | 5 => .ldAMhlInc
  | 6 => .ldMhlDecA
  | _ => .ldAMhlDec

/-- Row z = 3 of quadrant 0 (R97). -/
def decodeX0Z3 (op : Byte) : Instr :=
  if op.getLsbD 3 then .decPair (r16Of (fieldP op)) else .incPair (r16Of (fieldP op))

/-- Row z = 7 of quadrant 0 (R97). -/
def decodeX0Z7 (op : Byte) : Instr :=
  match fieldY op with
  | 0 => .rlca
  | 1 => .rrca
  | 2 => .rla
  | 3 => .rra
  | 4 => .daa
  | 5 => .cpl
  | 6 => .scf
  | _ => .ccf

/-- Quadrant 0 (R97). -/
def decodeX0 (op n1 n2 : Byte) : Instr :=
  match fieldZ op with
  | 0 => decodeX0Z0 op n1 n2
  | 1 => decodeX0Z1 op n1 n2
  | 2 => decodeX0Z2 op
  | 3 => decodeX0Z3 op
  | 4 => match rm8Of (fieldY op) with
    | .reg r => .incReg r
    | .mhl => .incMhl
  | 5 => match rm8Of (fieldY op) with
    | .reg r => .decReg r
    | .mhl => .decMhl
  | 6 => match rm8Of (fieldY op) with
    | .reg r => .ldRegImm r n1
    | .mhl => .ldMhlImm n1
  | _ => decodeX0Z7 op

/-- Quadrant 1 (R98): `LD r8[y], r8[z]`, and HALT in the place of `LD (HL),(HL)`. -/
def decodeX1 (op : Byte) : Instr :=
  match rm8Of (fieldY op), rm8Of (fieldZ op) with
  | .reg r, .reg r' => .ldRegReg r r'
  | .reg r, .mhl => .ldRegMhl r
  | .mhl, .reg r' => .ldMhlReg r'
  | .mhl, .mhl => .halt

/-- Row z = 0 of quadrant 3 (R100). -/
def decodeX3Z0 (op n1 : Byte) : Instr :=
  match fieldY op with
  | 4 => .ldhImmA n1
  | 5 => .addSpE8 n1
  | 6 => .ldhAImm n1
  | 7 => .ldHlSpE8 n1
  | y => .retCond (condOf y)

/-- Row z = 1 of quadrant 3 (R100). -/
def decodeX3Z1 (op : Byte) : Instr :=
  match fieldY op with
  | 1 => .ret
  | 3 => .reti
  | 5 => .jpHl
  | 7 => .ldSpHl
  | _ => .pop (r16StkOf (fieldP op))

/-- Row z = 2 of quadrant 3 (R100). -/
def decodeX3Z2 (op n1 n2 : Byte) : Instr :=
  match fieldY op with
  | 4 => .ldhCA
  | 5 => .ldMabsA (join n2 n1)
  | 6 => .ldhAC
  | 7 => .ldAMabs (join n2 n1)
  | y => .jpCond (condOf y) (join n2 n1)

/-- Row z = 3 of quadrant 3 (R100), less the 0xCB byte, which `decodeOp` takes first. -/
def decodeX3Z3 (op n1 n2 : Byte) : Instr :=
  match fieldY op with
  | 0 => .jp (join n2 n1)
  | 6 => .di
  | 7 => .ei
  | _ => .illegal op

/-- Row z = 4 of quadrant 3 (R100). -/
def decodeX3Z4 (op n1 n2 : Byte) : Instr :=
  match fieldY op with
  | 0 => .callCond .nz (join n2 n1)
  | 1 => .callCond .z (join n2 n1)
  | 2 => .callCond .nc (join n2 n1)
  | 3 => .callCond .c (join n2 n1)
  | _ => .illegal op

/-- Row z = 5 of quadrant 3 (R100). -/
def decodeX3Z5 (op n1 n2 : Byte) : Instr :=
  match fieldY op with
  | 1 => .call (join n2 n1)
  | 3 => .illegal op
  | 5 => .illegal op
  | 7 => .illegal op
  | _ => .push (r16StkOf (fieldP op))

/-- Quadrant 3 (R100). -/
def decodeX3 (op n1 n2 : Byte) : Instr :=
  match fieldZ op with
  | 0 => decodeX3Z0 op n1
  | 1 => decodeX3Z1 op
  | 2 => decodeX3Z2 op n1 n2
  | 3 => decodeX3Z3 op n1 n2
  | 4 => decodeX3Z4 op n1 n2
  | 5 => decodeX3Z5 op n1 n2
  | 6 => aluOf (fieldY op) (.imm n1)
  | _ => .rst (bitsY op)

/-- The base map (R97 to R100), 0xCB apart. -/
def decodeBase (op n1 n2 : Byte) : Instr :=
  match fieldX op with
  | 0 => decodeX0 op n1 n2
  | 1 => decodeX1 op
  | 2 => aluOf (fieldY op) (rm8Of (fieldZ op)).toSrc
  | _ => decodeX3 op n1 n2

/-- The map behind 0xCB (R101). -/
def decodeCb (op2 : Byte) : Instr :=
  match fieldX op2 with
  | 0 => shiftOf (fieldY op2) (rm8Of (fieldZ op2))
  | 1 => .bit (bitsY op2) (rm8Of (fieldZ op2))
  | 2 => .res (bitsY op2) (rm8Of (fieldZ op2))
  | _ => .set (bitsY op2) (rm8Of (fieldZ op2))

/-- The instruction whose first byte is `op`; `n1` and `n2` are the bytes at pc0+1 and pc0+2, and only those that
`opLength` counts matter (R81, R92). -/
def decodeOp (op n1 n2 : Byte) : Instr :=
  if op = 0xCB then decodeCb n1 else decodeBase op n1 n2

/-- How many bytes are fetched for an instruction whose first byte is `op` (R84, R105). The 11 illegal bytes have no
length: the step faults on them after the opcode fetch alone (R256), so one byte is what is read. -/
def opLength (op : Byte) : Nat :=
  match fieldX op with
  | 0 => match fieldZ op with
    | 0 => match fieldY op with
      | 0 => 1
      | 1 => 3
      | _ => 2
    | 1 => if op.getLsbD 3 then 1 else 3
    | 6 => 2
    | _ => 1
  | 1 => 1
  | 2 => 1
  | _ => match fieldZ op with
    | 0 => if op.getLsbD 5 then 2 else 1
    | 2 => match fieldY op with
      | 4 => 1
      | 6 => 1
      | _ => 3
    | 3 => match fieldY op with
      | 0 => 3
      | 1 => 2
      | _ => 1
    | 4 => if op.getLsbD 5 then 1 else 3
    | 5 => match fieldY op with
      | 1 => 3
      | _ => 1
    | 6 => 2
    | _ => 1

/-- Why a byte list holds no whole instruction. -/
inductive DecodeError where
  /-- there is no byte -/
  | noOpcode
  /-- the first byte needs a second one -/
  | noSecondByte (op : Byte)
  /-- the first byte needs a third one -/
  | noThirdByte (op : Byte)
deriving DecidableEq, Repr

/-- The first instruction of a byte list and the bytes after it. -/
def decode (bytes : List Byte) : Except DecodeError (Instr × List Byte) :=
  match bytes with
  | [] => .error .noOpcode
  | op :: rest =>
    match opLength op, rest with
    | 1, _ => .ok (decodeOp op 0 0, rest)
    | 2, [] => .error (.noSecondByte op)
    | 2, n1 :: rest => .ok (decodeOp op n1 0, rest)
    | _, [] => .error (.noSecondByte op)
    | _, [_] => .error (.noThirdByte op)
    | _, n1 :: n2 :: rest => .ok (decodeOp op n1 n2, rest)

/-! ### The encoder -/

/-- An opcode byte from its fields x, y, z (R85). -/
def opcode (x : BitVec 2) (y z : BitVec 3) : Byte := (x ++ y) ++ z

/-- An opcode byte from its fields x, p, q, z (R85). -/
def opcodePQ (x p : BitVec 2) (q : BitVec 1) (z : BitVec 3) : Byte := ((x ++ p) ++ q) ++ z

/-- The r8 code of a register (R86). -/
def Reg8.code : Reg8 → BitVec 3
  | .b => 0
  | .c => 1
  | .d => 2
  | .e => 3
  | .h => 4
  | .l => 5
  | .a => 7

/-- The r8 code of an r8 operand (R86). -/
def RM8.code : RM8 → BitVec 3
  | .reg r => r.code
  | .mhl => 6

/-- The r16 code (R87). -/
def R16.code : R16 → BitVec 2
  | .bc => 0
  | .de => 1
  | .hl => 2
  | .sp => 3

/-- The r16stk code (R87). -/
def R16Stk.code : R16Stk → BitVec 2
  | .bc => 0
  | .de => 1
  | .hl => 2
  | .af => 3

/-- The condition code as the two low bits of field y (R88). -/
def Cond.code : Cond → BitVec 2
  | .nz => 0
  | .z => 1
  | .nc => 2
  | .c => 3

/-- An opcode byte whose y field is a condition code: op[5] is `hi`, op[4:3] is the code (R88). -/
def opcodeCond (x : BitVec 2) (hi : BitVec 1) (cc : Cond) (z : BitVec 3) : Byte := ((x ++ hi) ++ cc.code) ++ z

/-- A 16-bit immediate after its opcode: low byte, then high byte (R84, R92). -/
def withImm16 (op : Byte) (n : Word) : List Byte := [op, loByte n, hiByte n]

/-- An ALU instruction of field `y` (R181): `10yyyzzz`, or `11yyy110` with n8. -/
def encodeAlu (y : BitVec 3) (src : Src8) : List Byte :=
  match src with
  | .reg r => [opcode 2 y r.code]
  | .mhl => [opcode 2 y 6]
  | .imm n => [opcode 3 y 6, n]

/-- A 0xCB instruction (R84 format `cb`, R101). -/
def encodeCb (x : BitVec 2) (y : BitVec 3) (t : RM8) : List Byte := [0xCB, opcode x y t.code]

/-- The bytes of an instruction, in ascending address order. -/
def encode : Instr → List Byte
  | .ldRegReg dst src => [opcode 1 dst.code src.code]
  | .ldRegImm dst n => [opcode 0 dst.code 6, n]
  | .ldRegMhl dst => [opcode 1 dst.code 6]
  | .ldMhlReg src => [opcode 1 6 src.code]
  | .ldMhlImm n => [opcode 0 6 6, n]
  | .ldAMbc => [opcodePQ 0 0 1 2]
  | .ldAMde => [opcodePQ 0 1 1 2]
  | .ldMbcA => [opcodePQ 0 0 0 2]
  | .ldMdeA => [opcodePQ 0 1 0 2]
  | .ldAMhlInc => [opcodePQ 0 2 1 2]
  | .ldAMhlDec => [opcodePQ 0 3 1 2]
  | .ldMhlIncA => [opcodePQ 0 2 0 2]
  | .ldMhlDecA => [opcodePQ 0 3 0 2]
  | .ldAMabs a => withImm16 (opcode 3 7 2) a
  | .ldMabsA a => withImm16 (opcode 3 5 2) a
  | .ldhAImm n => [opcode 3 6 0, n]
  | .ldhImmA n => [opcode 3 4 0, n]
  | .ldhAC => [opcode 3 6 2]
  | .ldhCA => [opcode 3 4 2]
  | .ldMabsSp a => withImm16 (opcode 0 1 0) a
  | .ldPairImm rr n => withImm16 (opcodePQ 0 rr.code 0 1) n
  | .ldSpHl => [opcode 3 7 1]
  | .ldHlSpE8 e => [opcode 3 7 0, e]
  | .push rr => [opcodePQ 3 rr.code 0 5]
  | .pop rr => [opcodePQ 3 rr.code 0 1]
  | .jp a => withImm16 (opcode 3 0 3) a
  | .jpCond cc a => withImm16 (opcodeCond 3 0 cc 2) a
  | .jpHl => [opcode 3 5 1]
  | .jr e => [opcode 0 3 0, e]
  | .jrCond cc e => [opcodeCond 0 1 cc 0, e]
  | .call a => withImm16 (opcode 3 1 5) a
  | .callCond cc a => withImm16 (opcodeCond 3 0 cc 4) a
  | .ret => [opcode 3 1 1]
  | .retCond cc => [opcodeCond 3 0 cc 0]
  | .reti => [opcode 3 3 1]
  | .rst y => [opcode 3 y 7]
  | .add src => encodeAlu 0 src
  | .adc src => encodeAlu 1 src
  | .sub src => encodeAlu 2 src
  | .sbc src => encodeAlu 3 src
  | .and src => encodeAlu 4 src
  | .xor src => encodeAlu 5 src
  | .or src => encodeAlu 6 src
  | .cp src => encodeAlu 7 src
  | .incReg r => [opcode 0 r.code 4]
  | .incMhl => [opcode 0 6 4]
  | .decReg r => [opcode 0 r.code 5]
  | .decMhl => [opcode 0 6 5]
  | .rlca => [opcode 0 0 7]
  | .rrca => [opcode 0 1 7]
  | .rla => [opcode 0 2 7]
  | .rra => [opcode 0 3 7]
  | .daa => [opcode 0 4 7]
  | .cpl => [opcode 0 5 7]
  | .scf => [opcode 0 6 7]
  | .ccf => [opcode 0 7 7]
  | .addHl rr => [opcodePQ 0 rr.code 1 1]
  | .incPair rr => [opcodePQ 0 rr.code 0 3]
  | .decPair rr => [opcodePQ 0 rr.code 1 3]
  | .addSpE8 e => [opcode 3 5 0, e]
  | .rlc t => encodeCb 0 0 t
  | .rrc t => encodeCb 0 1 t
  | .rl t => encodeCb 0 2 t
  | .rr t => encodeCb 0 3 t
  | .sla t => encodeCb 0 4 t
  | .sra t => encodeCb 0 5 t
  | .swap t => encodeCb 0 6 t
  | .srl t => encodeCb 0 7 t
  | .bit b t => encodeCb 1 b t
  | .res b t => encodeCb 2 b t
  | .set b t => encodeCb 3 b t
  | .nop => [opcode 0 0 0]
  | .halt => [opcode 1 6 6]
  | .stop n => [opcode 0 2 0, n]
  | .di => [opcode 3 6 3]
  | .ei => [opcode 3 7 3]
  | .illegal op => [op]

/-- The bytes of an ALU instruction with this source (R181): formats `op` and `op_n8`. -/
def Src8.length : Src8 → Nat
  | .reg _ => 1
  | .mhl => 1
  | .imm _ => 2

/-- `len` of R13 and R84. An illegal byte has no length (R105); 1 is the one byte that is fetched. -/
def Instr.length : Instr → Nat
  | .ldRegReg _ _ => 1
  | .ldRegImm _ _ => 2
  | .ldRegMhl _ => 1
  | .ldMhlReg _ => 1
  | .ldMhlImm _ => 2
  | .ldAMbc => 1
  | .ldAMde => 1
  | .ldMbcA => 1
  | .ldMdeA => 1
  | .ldAMhlInc => 1
  | .ldAMhlDec => 1
  | .ldMhlIncA => 1
  | .ldMhlDecA => 1
  | .ldAMabs _ => 3
  | .ldMabsA _ => 3
  | .ldhAImm _ => 2
  | .ldhImmA _ => 2
  | .ldhAC => 1
  | .ldhCA => 1
  | .ldMabsSp _ => 3
  | .ldPairImm _ _ => 3
  | .ldSpHl => 1
  | .ldHlSpE8 _ => 2
  | .push _ => 1
  | .pop _ => 1
  | .jp _ => 3
  | .jpCond _ _ => 3
  | .jpHl => 1
  | .jr _ => 2
  | .jrCond _ _ => 2
  | .call _ => 3
  | .callCond _ _ => 3
  | .ret => 1
  | .retCond _ => 1
  | .reti => 1
  | .rst _ => 1
  | .add src => src.length
  | .adc src => src.length
  | .sub src => src.length
  | .sbc src => src.length
  | .and src => src.length
  | .xor src => src.length
  | .or src => src.length
  | .cp src => src.length
  | .incReg _ => 1
  | .incMhl => 1
  | .decReg _ => 1
  | .decMhl => 1
  | .rlca => 1
  | .rrca => 1
  | .rla => 1
  | .rra => 1
  | .daa => 1
  | .cpl => 1
  | .scf => 1
  | .ccf => 1
  | .addHl _ => 1
  | .incPair _ => 1
  | .decPair _ => 1
  | .addSpE8 _ => 2
  | .rlc _ => 2
  | .rrc _ => 2
  | .rl _ => 2
  | .rr _ => 2
  | .sla _ => 2
  | .sra _ => 2
  | .swap _ => 2
  | .srl _ => 2
  | .bit _ _ => 2
  | .res _ _ => 2
  | .set _ _ => 2
  | .nop => 1
  | .halt => 1
  | .stop _ => 2
  | .di => 1
  | .ei => 1
  | .illegal _ => 1

/-! ### The host's numbering of an instruction's bits -/

/-- The bytes of an opcode-table row numbered `w` in `nbits` bits, the first byte first (log entry 4). The table writes
a 0xCB row as `byte0 * 256 + byte1` (30_encoding, its introduction), so in a 16-bit number whose high byte is 0xCB that
byte comes first; in every other number the least significant byte comes first. Bits above `nbits` are 0. -/
def tableBytes (nbits w : Nat) : List Byte :=
  let v := w % 2 ^ nbits
  if nbits = 16 && v / 256 == 0xCB then [0xCB, BitVec.ofNat 8 v, 0]
  else [BitVec.ofNat 8 v, BitVec.ofNat 8 (v / 256), BitVec.ofNat 8 (v / 65536)]

/-- The instruction the decoder reads from a row of the opcode table. -/
def decodeTableWord (nbits w : Nat) : Option Instr :=
  match decode (tableBytes nbits w) with
  | .ok (i, _) => some i
  | .error _ => none

end Sys2Proof
end

