-- ==== Sys2Proof/Machine/Arith8.lean ====
section
/-! DEFINITION. 8-bit arithmetic and logic (42_alu8 R180 to R202). -/

namespace Sys2Proof.Machine

open Sys2Proof

/-- Write A and the flags of an addition (R182, R183). -/
def storeSum (s : State) (r : Alu8) : State := (s.setR8 .a r.res).setFlags (r.res == 0) false r.h r.c

/-- Write A and the flags of a subtraction (R184, R185). -/
def storeDifference (s : State) (r : Alu8) : State := (s.setR8 .a r.res).setFlags (r.res == 0) true r.h r.c

/-- Write A and the flags of a logic operation, whose H is `h` (R186 to R188). -/
def storeLogic (s : State) (res : Byte) (h : Bool) : State := (s.setR8 .a res).setFlags (res == 0) false h false

/-- R182 `ADD A,src`. -/
def execAdd (src : Src8) (s : State) : Host.Outcome State Fault Refusal :=
  complete src.length (withSrc src s fun v => storeSum s (add8 (s.r8 .a) v false))

/-- R183 `ADC A,src`. -/
def execAdc (src : Src8) (s : State) : Host.Outcome State Fault Refusal :=
  complete src.length (withSrc src s fun v => storeSum s (add8 (s.r8 .a) v s.flagC))

/-- R184 `SUB A,src`. -/
def execSub (src : Src8) (s : State) : Host.Outcome State Fault Refusal :=
  complete src.length (withSrc src s fun v => storeDifference s (sub8 (s.r8 .a) v false))

/-- R185 `SBC A,src`. -/
def execSbc (src : Src8) (s : State) : Host.Outcome State Fault Refusal :=
  complete src.length (withSrc src s fun v => storeDifference s (sub8 (s.r8 .a) v s.flagC))

/-- R186 `AND A,src`: H is set, C is cleared. -/
def execAnd (src : Src8) (s : State) : Host.Outcome State Fault Refusal :=
  complete src.length (withSrc src s fun v => storeLogic s (s.r8 .a &&& v) true)

/-- R187 `XOR A,src`. -/
def execXor (src : Src8) (s : State) : Host.Outcome State Fault Refusal :=
  complete src.length (withSrc src s fun v => storeLogic s (s.r8 .a ^^^ v) false)

/-- R188 `OR A,src`. -/
def execOr (src : Src8) (s : State) : Host.Outcome State Fault Refusal :=
  complete src.length (withSrc src s fun v => storeLogic s (s.r8 .a ||| v) false)

/-- R189 `CP A,src`: the flags of SUB; A is not written. -/
def execCp (src : Src8) (s : State) : Host.Outcome State Fault Refusal :=
  complete src.length (withSrc src s fun v =>
    s.setFlags ((sub8 (s.r8 .a) v false).res == 0) true (sub8 (s.r8 .a) v false).h (sub8 (s.r8 .a) v false).c)

/-- Increment an r8 operand: C is kept (R190, R191). -/
def increment8 (t : RM8) (s : State) : Except Fault State :=
  updateRM t (fun v => (add8 v 1 false).res)
    (fun v u => u.setFlags ((add8 v 1 false).res == 0) false (add8 v 1 false).h u.flagC) s

/-- Decrement an r8 operand: C is kept (R192, R193). -/
def decrement8 (t : RM8) (s : State) : Except Fault State :=
  updateRM t (fun v => (sub8 v 1 false).res)
    (fun v u => u.setFlags ((sub8 v 1 false).res == 0) true (sub8 v 1 false).h u.flagC) s

/-- R190 `INC r`. -/
def execIncReg (r : Reg8) (s : State) : Host.Outcome State Fault Refusal :=
  complete 1 (increment8 (.reg r) s)

/-- R191 `INC (HL)`. -/
def execIncMhl (s : State) : Host.Outcome State Fault Refusal :=
  complete 1 (increment8 .mhl s)

/-- R192 `DEC r`. -/
def execDecReg (r : Reg8) (s : State) : Host.Outcome State Fault Refusal :=
  complete 1 (decrement8 (.reg r) s)

/-- R193 `DEC (HL)`. -/
def execDecMhl (s : State) : Host.Outcome State Fault Refusal :=
  complete 1 (decrement8 .mhl s)

/-- Write a rotated A: Z, N and H are cleared, whatever the result (R194 to R197, C7). -/
def storeRotated (s : State) (r : Shifted) : State := (s.setR8 .a r.res).setFlags false false false r.c

/-- R194 `RLCA`. -/
def execRlca (s : State) : Host.Outcome State Fault Refusal :=
  complete 1 (.ok (storeRotated s (rotateLeft (s.r8 .a))))

/-- R195 `RRCA`. -/
def execRrca (s : State) : Host.Outcome State Fault Refusal :=
  complete 1 (.ok (storeRotated s (rotateRight (s.r8 .a))))

/-- R196 `RLA`. -/
def execRla (s : State) : Host.Outcome State Fault Refusal :=
  complete 1 (.ok (storeRotated s (rotateLeftThrough (s.r8 .a) s.flagC)))

/-- R197 `RRA`. -/
def execRra (s : State) : Host.Outcome State Fault Refusal :=
  complete 1 (.ok (storeRotated s (rotateRightThrough (s.r8 .a) s.flagC)))

/-- R198 `DAA`: N is kept, H is cleared. -/
def execDaa (s : State) : Host.Outcome State Fault Refusal :=
  complete 1 (.ok ((s.setR8 .a (daaResult (s.r8 .a) s.flagN s.flagH s.flagC)).setFlags
    (daaResult (s.r8 .a) s.flagN s.flagH s.flagC == 0) s.flagN false (daaCarry (s.r8 .a) s.flagN s.flagC)))

/-- R199 `CPL`: Z and C are kept. -/
def execCpl (s : State) : Host.Outcome State Fault Refusal :=
  complete 1 (.ok ((s.setR8 .a (~~~ s.r8 .a)).setFlags s.flagZ true true s.flagC))

/-- R200 `SCF`: Z is kept. -/
def execScf (s : State) : Host.Outcome State Fault Refusal :=
  complete 1 (.ok (s.setFlags s.flagZ false false true))

/-- R201 `CCF`: Z is kept, H is cleared. -/
def execCcf (s : State) : Host.Outcome State Fault Refusal :=
  complete 1 (.ok (s.setFlags s.flagZ false false (!s.flagC)))

end Sys2Proof.Machine
end

