-- ==== Sys2Proof/Machine/BitOps.lean ====
section
/-! DEFINITION. The 0xCB-prefixed instructions (44_cb_prefix R220 to R231). -/

namespace Sys2Proof.Machine

open Sys2Proof

/-- R221 `RLC r`. -/
def execRlc (t : RM8) (s : State) : Host.Outcome State Fault Refusal :=
  complete 2 (shiftRM t rotateLeft s)

/-- R222 `RRC r`. -/
def execRrc (t : RM8) (s : State) : Host.Outcome State Fault Refusal :=
  complete 2 (shiftRM t rotateRight s)

/-- R223 `RL r`. -/
def execRl (t : RM8) (s : State) : Host.Outcome State Fault Refusal :=
  complete 2 (shiftRM t (fun v => rotateLeftThrough v s.flagC) s)

/-- R224 `RR r`. -/
def execRr (t : RM8) (s : State) : Host.Outcome State Fault Refusal :=
  complete 2 (shiftRM t (fun v => rotateRightThrough v s.flagC) s)

/-- R225 `SLA r`. -/
def execSla (t : RM8) (s : State) : Host.Outcome State Fault Refusal :=
  complete 2 (shiftRM t shiftLeft s)

/-- R226 `SRA r`. -/
def execSra (t : RM8) (s : State) : Host.Outcome State Fault Refusal :=
  complete 2 (shiftRM t shiftRightArith s)

/-- R227 `SWAP r`. -/
def execSwap (t : RM8) (s : State) : Host.Outcome State Fault Refusal :=
  complete 2 (shiftRM t swapNibbles s)

/-- R228 `SRL r`. -/
def execSrl (t : RM8) (s : State) : Host.Outcome State Fault Refusal :=
  complete 2 (shiftRM t shiftRightLogical s)

/-- `2^b` as a byte (R230, R231). -/
def bitMask (b : BitVec 3) : Byte := BitVec.ofNat 8 (2 ^ b.toNat)

/-- R229 `BIT b,r`: reads only; C is kept. -/
def execBit (b : BitVec 3) (t : RM8) (s : State) : Host.Outcome State Fault Refusal :=
  match ((rmOperand t).resolve s).read s with
  | .ok v => complete 2 (.ok (s.setFlags (!v.getLsbD b.toNat) false true s.flagC))
  | .error f => raise f

/-- R230 `RES b,r`: no flag; for (HL) the write happens whatever the bit was. -/
def execRes (b : BitVec 3) (t : RM8) (s : State) : Host.Outcome State Fault Refusal :=
  complete 2 (updateRM t (fun v => v &&& ~~~ bitMask b) (fun _ u => u) s)

/-- R231 `SET b,r`: no flag; for (HL) the write happens whatever the bit was. -/
def execSet (b : BitVec 3) (t : RM8) (s : State) : Host.Outcome State Fault Refusal :=
  complete 2 (updateRM t (fun v => v ||| bitMask b) (fun _ u => u) s)

end Sys2Proof.Machine
end

