-- ==== Sys2Proof/Machine/Control.lean ====
section
/-! DEFINITION. The control-transfer family (41_control R160 to R172). `transfer` sets a target, `complete` leaves PC
to become `pc_next` (R82). No instruction here writes a flag. -/

namespace Sys2Proof.Machine

open Sys2Proof

/-- The target of a relative jump of two bytes: `(pc_next + sext_16(n8)) mod 2^16` (R163, C2). -/
def relativeTarget (s : State) (e : Byte) : Word := s.pc + 2 + sext16 e

/-- R160 `JP a16`. -/
def execJp (a : Word) (s : State) : Host.Outcome State Fault Refusal :=
  transfer (.ok (a, s))

/-- R161 `JP cc,a16`. -/
def execJpCond (cc : Cond) (a : Word) (s : State) : Host.Outcome State Fault Refusal :=
  if cond cc s then transfer (.ok (a, s)) else complete 3 (.ok s)

/-- R162 `JP HL`: the target is the register's value; no memory is read. -/
def execJpHl (s : State) : Host.Outcome State Fault Refusal :=
  transfer (.ok (s.hl, s))

/-- R163 `JR e8`. -/
def execJr (e : Byte) (s : State) : Host.Outcome State Fault Refusal :=
  transfer (.ok (relativeTarget s e, s))

/-- R164 `JR cc,e8`. -/
def execJrCond (cc : Cond) (e : Byte) (s : State) : Host.Outcome State Fault Refusal :=
  if cond cc s then transfer (.ok (relativeTarget s e, s)) else complete 2 (.ok s)

/-- R165 `CALL a16`: nothing but the return address is written (R61). -/
def execCall (a : Word) (s : State) : Host.Outcome State Fault Refusal :=
  transfer (callTo s 3 a)

/-- R166 `CALL cc,a16`. -/
def execCallCond (cc : Cond) (a : Word) (s : State) : Host.Outcome State Fault Refusal :=
  if cond cc s then transfer (callTo s 3 a) else complete 3 (.ok s)

/-- R167 `RET`. -/
def execRet (s : State) : Host.Outcome State Fault Refusal :=
  transfer (popWord s)

/-- R168 `RET cc`. -/
def execRetCond (cc : Cond) (s : State) : Host.Outcome State Fault Refusal :=
  if cond cc s then transfer (popWord s) else complete 1 (.ok s)

/-- R169 `RETI`: the return from an interrupt (R265). -/
def execReti (s : State) : Host.Outcome State Fault Refusal :=
  transfer (returnFromInterrupt s)

/-- The restart target `t = y * 8` (R92, R170). -/
def restartTarget (y : BitVec 3) : Word := BitVec.ofNat 16 (y.toNat * 8)

/-- R170 `RST t`: pushes `pc0 + 1` (C1). -/
def execRst (y : BitVec 3) (s : State) : Host.Outcome State Fault Refusal :=
  transfer (callTo s 1 (restartTarget y))

end Sys2Proof.Machine
end

