-- ==== Sys2Proof/Machine/Load.lean ====
section
/-! DEFINITION. The load family (40_load R120 to R146). Every byte load is `copyByte` between two operand forms. -/

namespace Sys2Proof.Machine

open Sys2Proof

/-- R120 `LD r,r'`. -/
def execLdRegReg (dst src : Reg8) (s : State) : Host.Outcome State Fault Refusal :=
  complete 1 (copyByte (.reg dst) (.reg src) s)

/-- R121 `LD r,n8`. -/
def execLdRegImm (dst : Reg8) (n : Byte) (s : State) : Host.Outcome State Fault Refusal :=
  complete 2 (copyByte (.reg dst) (.imm n) s)

/-- R122 `LD r,(HL)`: the address is formed before H or L is written. -/
def execLdRegMhl (dst : Reg8) (s : State) : Host.Outcome State Fault Refusal :=
  complete 1 (copyByte (.reg dst) (.indirect .hl) s)

/-- R123 `LD (HL),r`. -/
def execLdMhlReg (src : Reg8) (s : State) : Host.Outcome State Fault Refusal :=
  complete 1 (copyByte (.indirect .hl) (.reg src) s)

/-- R124 `LD (HL),n8`. -/
def execLdMhlImm (n : Byte) (s : State) : Host.Outcome State Fault Refusal :=
  complete 2 (copyByte (.indirect .hl) (.imm n) s)

/-- R125 `LD A,(BC)`. -/
def execLdAMbc (s : State) : Host.Outcome State Fault Refusal :=
  complete 1 (copyByte (.reg .a) (.indirect .bc) s)

/-- R126 `LD A,(DE)`. -/
def execLdAMde (s : State) : Host.Outcome State Fault Refusal :=
  complete 1 (copyByte (.reg .a) (.indirect .de) s)

/-- R127 `LD (BC),A`. -/
def execLdMbcA (s : State) : Host.Outcome State Fault Refusal :=
  complete 1 (copyByte (.indirect .bc) (.reg .a) s)

/-- R128 `LD (DE),A`. -/
def execLdMdeA (s : State) : Host.Outcome State Fault Refusal :=
  complete 1 (copyByte (.indirect .de) (.reg .a) s)

/-- R129 `LD A,(HL+)`. -/
def execLdAMhlInc (s : State) : Host.Outcome State Fault Refusal :=
  complete 1 (copyByte (.reg .a) .hlInc s)

/-- R130 `LD A,(HL-)`. -/
def execLdAMhlDec (s : State) : Host.Outcome State Fault Refusal :=
  complete 1 (copyByte (.reg .a) .hlDec s)

/-- R131 `LD (HL+),A`. -/
def execLdMhlIncA (s : State) : Host.Outcome State Fault Refusal :=
  complete 1 (copyByte .hlInc (.reg .a) s)

/-- R132 `LD (HL-),A`. -/
def execLdMhlDecA (s : State) : Host.Outcome State Fault Refusal :=
  complete 1 (copyByte .hlDec (.reg .a) s)

/-- R133 `LD A,(a16)`. -/
def execLdAMabs (a : Word) (s : State) : Host.Outcome State Fault Refusal :=
  complete 3 (copyByte (.reg .a) (.absolute a) s)

/-- R134 `LD (a16),A`. -/
def execLdMabsA (a : Word) (s : State) : Host.Outcome State Fault Refusal :=
  complete 3 (copyByte (.absolute a) (.reg .a) s)

/-- R135 `LDH A,(a8)`. -/
def execLdhAImm (n : Byte) (s : State) : Host.Outcome State Fault Refusal :=
  complete 2 (copyByte (.reg .a) (.highImm n) s)

/-- R136 `LDH (a8),A`. -/
def execLdhImmA (n : Byte) (s : State) : Host.Outcome State Fault Refusal :=
  complete 2 (copyByte (.highImm n) (.reg .a) s)

/-- R137 `LDH A,(C)`. -/
def execLdhAC (s : State) : Host.Outcome State Fault Refusal :=
  complete 1 (copyByte (.reg .a) .highC s)

/-- R138 `LDH (C),A`. -/
def execLdhCA (s : State) : Host.Outcome State Fault Refusal :=
  complete 1 (copyByte .highC (.reg .a) s)

/-- R139 `LD (a16),SP`: the one word-wide memory operand (R91). -/
def execLdMabsSp (a : Word) (s : State) : Host.Outcome State Fault Refusal :=
  complete 3 (memWriteWord s a.toNat s.sp)

/-- R140 `LD rr,n16`. -/
def execLdPairImm (rr : R16) (n : Word) (s : State) : Host.Outcome State Fault Refusal :=
  complete 3 (.ok (s.setR16 (r16Pair rr) n))

/-- R141 `LD SP,HL`. -/
def execLdSpHl (s : State) : Host.Outcome State Fault Refusal :=
  complete 1 (.ok (s.setR16 .sp s.hl))

/-- R142 `LD HL,SP+e8`. -/
def execLdHlSpE8 (e : Byte) (s : State) : Host.Outcome State Fault Refusal :=
  complete 2 (.ok ((s.setR16 .hl (addSpDisp s.sp e).res).setFlags false false (addSpDisp s.sp e).h (addSpDisp s.sp e).c))

/-- R143 `PUSH rr`. -/
def execPush (rr : R16Stk) (s : State) : Host.Outcome State Fault Refusal :=
  complete 1 (pushWord s (s.r16 (stkPair rr)))

/-- R144 `POP rr` and R145 `POP AF`, whose F[3:0] the write to AF discards (R25). -/
def execPop (rr : R16Stk) (s : State) : Host.Outcome State Fault Refusal :=
  match popWord s with
  | .ok (v, t) => complete 1 (.ok (t.setR16 (stkPair rr) v))
  | .error f => raise f

end Sys2Proof.Machine
end

