-- ==== Sys2Proof/Machine/System.lean ====
section
/-! DEFINITION. System instructions and illegal opcodes (45_system R240 to R245). -/

namespace Sys2Proof.Machine

open Sys2Proof

/-- R240 `NOP`. -/
def execNop (s : State) : Host.Outcome State Fault Refusal :=
  complete 1 (.ok s)

/-- R241 `HALT`. -/
def execHalt (s : State) : Host.Outcome State Fault Refusal :=
  complete 1 (.ok { s with halted := true })

/-- R242 `STOP`: the second byte was fetched, and is ignored. -/
def execStop (_ignored : Byte) (s : State) : Host.Outcome State Fault Refusal :=
  complete 2 (.ok { s with stopped := true })

/-- R243 `DI`: a pending enable is cancelled. -/
def execDi (s : State) : Host.Outcome State Fault Refusal :=
  complete 1 (.ok { s with ime := false, eiPending := false })

/-- R244 `EI`: IME follows at the end of the next completed instruction (R31). -/
def execEi (s : State) : Host.Outcome State Fault Refusal :=
  complete 1 (.ok { s with eiPending := true })

/-- R245: an illegal byte raises IllegalOpcode with `(pc0, op)`. -/
def execIllegal (op : Byte) (s : State) : Host.Outcome State Fault Refusal :=
  raise (.illegalOpcode s.pc op)

end Sys2Proof.Machine
end

