-- ==== Sys2Proof/Machine/Dispatch.lean ====
section
/-! DEFINITION. One arm per instruction: what each does to the state (30_encoding R81: dispatch by a closed match). -/

namespace Sys2Proof.Machine

def exec (i : Instr) (s : State) : Host.Outcome State Fault Refusal :=
  match i with
  | .ldRegReg dst src => Sys2Proof.Machine.execLdRegReg dst src s
  | .ldRegImm dst n => Sys2Proof.Machine.execLdRegImm dst n s
  | .ldRegMhl dst => Sys2Proof.Machine.execLdRegMhl dst s
  | .ldMhlReg src => Sys2Proof.Machine.execLdMhlReg src s
  | .ldMhlImm n => Sys2Proof.Machine.execLdMhlImm n s
  | .ldAMbc => Sys2Proof.Machine.execLdAMbc s
  | .ldAMde => Sys2Proof.Machine.execLdAMde s
  | .ldMbcA => Sys2Proof.Machine.execLdMbcA s
  | .ldMdeA => Sys2Proof.Machine.execLdMdeA s
  | .ldAMhlInc => Sys2Proof.Machine.execLdAMhlInc s
  | .ldAMhlDec => Sys2Proof.Machine.execLdAMhlDec s
  | .ldMhlIncA => Sys2Proof.Machine.execLdMhlIncA s
  | .ldMhlDecA => Sys2Proof.Machine.execLdMhlDecA s
  | .ldAMabs a => Sys2Proof.Machine.execLdAMabs a s
  | .ldMabsA a => Sys2Proof.Machine.execLdMabsA a s
  | .ldhAImm n => Sys2Proof.Machine.execLdhAImm n s
  | .ldhImmA n => Sys2Proof.Machine.execLdhImmA n s
  | .ldhAC => Sys2Proof.Machine.execLdhAC s
  | .ldhCA => Sys2Proof.Machine.execLdhCA s
  | .ldMabsSp a => Sys2Proof.Machine.execLdMabsSp a s
  | .ldPairImm rr n => Sys2Proof.Machine.execLdPairImm rr n s
  | .ldSpHl => Sys2Proof.Machine.execLdSpHl s
  | .ldHlSpE8 e => Sys2Proof.Machine.execLdHlSpE8 e s
  | .push rr => Sys2Proof.Machine.execPush rr s
  | .pop rr => Sys2Proof.Machine.execPop rr s
  | .jp a => Sys2Proof.Machine.execJp a s
  | .jpCond cc a => Sys2Proof.Machine.execJpCond cc a s
  | .jpHl => Sys2Proof.Machine.execJpHl s
  | .jr e => Sys2Proof.Machine.execJr e s
  | .jrCond cc e => Sys2Proof.Machine.execJrCond cc e s
  | .call a => Sys2Proof.Machine.execCall a s
  | .callCond cc a => Sys2Proof.Machine.execCallCond cc a s
  | .ret => Sys2Proof.Machine.execRet s
  | .retCond cc => Sys2Proof.Machine.execRetCond cc s
  | .reti => Sys2Proof.Machine.execReti s
  | .rst y => Sys2Proof.Machine.execRst y s
  | .add src => Sys2Proof.Machine.execAdd src s
  | .adc src => Sys2Proof.Machine.execAdc src s
  | .sub src => Sys2Proof.Machine.execSub src s
  | .sbc src => Sys2Proof.Machine.execSbc src s
  | .and src => Sys2Proof.Machine.execAnd src s
  | .xor src => Sys2Proof.Machine.execXor src s
  | .or src => Sys2Proof.Machine.execOr src s
  | .cp src => Sys2Proof.Machine.execCp src s
  | .incReg r => Sys2Proof.Machine.execIncReg r s
  | .incMhl => Sys2Proof.Machine.execIncMhl s
  | .decReg r => Sys2Proof.Machine.execDecReg r s
  | .decMhl => Sys2Proof.Machine.execDecMhl s
  | .rlca => Sys2Proof.Machine.execRlca s
  | .rrca => Sys2Proof.Machine.execRrca s
  | .rla => Sys2Proof.Machine.execRla s
  | .rra => Sys2Proof.Machine.execRra s
  | .daa => Sys2Proof.Machine.execDaa s
  | .cpl => Sys2Proof.Machine.execCpl s
  | .scf => Sys2Proof.Machine.execScf s
  | .ccf => Sys2Proof.Machine.execCcf s
  | .addHl rr => Sys2Proof.Machine.execAddHl rr s
  | .incPair rr => Sys2Proof.Machine.execIncPair rr s
  | .decPair rr => Sys2Proof.Machine.execDecPair rr s
  | .addSpE8 e => Sys2Proof.Machine.execAddSpE8 e s
  | .rlc t => Sys2Proof.Machine.execRlc t s
  | .rrc t => Sys2Proof.Machine.execRrc t s
  | .rl t => Sys2Proof.Machine.execRl t s
  | .rr t => Sys2Proof.Machine.execRr t s
  | .sla t => Sys2Proof.Machine.execSla t s
  | .sra t => Sys2Proof.Machine.execSra t s
  | .swap t => Sys2Proof.Machine.execSwap t s
  | .srl t => Sys2Proof.Machine.execSrl t s
  | .bit b t => Sys2Proof.Machine.execBit b t s
  | .res b t => Sys2Proof.Machine.execRes b t s
  | .set b t => Sys2Proof.Machine.execSet b t s
  | .nop => Sys2Proof.Machine.execNop s
  | .halt => Sys2Proof.Machine.execHalt s
  | .stop n => Sys2Proof.Machine.execStop n s
  | .di => Sys2Proof.Machine.execDi s
  | .ei => Sys2Proof.Machine.execEi s
  | .illegal op => Sys2Proof.Machine.execIllegal op s

end Sys2Proof.Machine
end

