-- ==== Sys2Proof/Machine/Fetch.lean ====
section
/-! DEFINITION. Fetching an instruction (30_encoding R80, 20_memory R63): the opcode byte first, then the bytes that
its length counts, in ascending order, each through the bus and its address check. -/

namespace Sys2Proof.Machine

open Sys2Proof

/-- The instruction at PC, or the fault of the first byte that cannot be read (R256). The bytes after the opcode of a
three-byte instruction are read as one word (R64, R92). -/
def fetchInstr (s : State) : Except Fault Instr :=
  match memRead s s.pc.toNat with
  | .error f => .error f
  | .ok op =>
    match opLength op with
    | 1 => .ok (decodeOp op 0 0)
    | 2 => match memRead s (s.pc.toNat + 1) with
      | .error f => .error f
      | .ok n1 => .ok (decodeOp op n1 0)
    | _ => match memReadWord s (s.pc.toNat + 1) with
      | .error f => .error f
      | .ok n => .ok (decodeOp op (loByte n) (hiByte n))

/-- The state with `bytes` in the cells from the natural address `a` on, as far as the store has them. -/
def placeBytes (s : State) (a : Nat) (bytes : List Byte) : State :=
  match bytes with
  | [] => s
  | v :: rest => placeBytes (if inStore s.params a then s.poke a v else s) (a + 1) rest

/-- The state with `bytes` where the next step fetches, and free to fetch them: no fault latched, neither halted nor
stopped (log entry 11). -/
def placeAtPc (s : State) (bytes : List Byte) : State :=
  { placeBytes s s.pc.toNat bytes with fault := none, halted := false, stopped := false }

end Sys2Proof.Machine
end

