-- ==== Sys2Proof/Machine/Step.lean ====
section
/-! DEFINITION. The step, `executeOne` of 30_encoding R80, as the host's interface takes it: a latched fault is
answered again (R250); a halted or stopped CORE changes nothing (R241, R242); otherwise fetch, execute, and the
delayed-enable step (R31). What `executeOne` returns beside the state is in Machine/ExecuteOne.lean. -/

namespace Sys2Proof.Machine

open Sys2Proof

/-- One `executeOne`. -/
def step (s : State) : Host.Outcome State Fault Refusal :=
  match s.fault with
  | some f => .fault f
  | none =>
    if s.halted || s.stopped then .next s
    else match fetchInstr s with
      | .error f => .fault f
      | .ok i => finishStep s.eiPending (exec i s)

/-- The state whose next step runs the opcode-table row numbered `w` (log entries 4 and 11). -/
def State.withFetchWord (s : State) (nbits w : Nat) : State := placeAtPc s (tableBytes nbits w)

end Sys2Proof.Machine
end

