-- ==== Sys2Proof/Machine/Descriptor.lean ====
section
/-! DEFINITION. Instruction descriptors (30_encoding R81, R90) and a step that takes its opcode table as an input, the
case in which the faults InvalidOperandCombination (R108) and MalformedCondition (R96, 60_exceptions R252) can be
raised. `step` itself uses the fixed table; `fixedTable` is that table as descriptors. -/

namespace Sys2Proof.Machine

open Sys2Proof

/-- The instruction-family tags: the mnemonics of the opcode table. -/
inductive Mnemonic where
  | ld | ldh | push | pop | jp | jr | call | ret | reti | rst | add | adc | sub | sbc | and | xor | or | cp | inc | dec
  | rlca | rrca | rla | rra | daa | cpl | scf | ccf | rlc | rrc | rl | rr | sla | sra | swap | srl | bit | res | set
  | nop | halt | stop | di | ei
deriving DecidableEq, Repr

/-- The operand types of R90, each with what the opcode byte fixes of it. -/
inductive OperandForm where
  /-- 8-bit register -/
  | r8 (r : Reg8)
  /-- 16-bit register pair -/
  | r16 (rr : Pair)
  /-- 8-bit immediate -/
  | n8
  /-- signed displacement -/
  | e8
  /-- 16-bit immediate value -/
  | n16
  /-- 16-bit jump target -/
  | a16
  /-- (BC), (DE), (HL) -/
  | indirect (rr : Pair)
  /-- (HL+) -/
  | hlInc
  /-- (HL-) -/
  | hlDec
  /-- (a16) -/
  | absolute
  /-- (a8) -/
  | highImm
  /-- (C) -/
  | highC
  /-- condition code -/
  | condition (cc : Cond)
  /-- restart target -/
  | target (y : BitVec 3)
  /-- bit index -/
  | bitIndex (b : BitVec 3)
  /-- SP+e8 -/
  | spE8
deriving DecidableEq, Repr

/-- "a mnemonic/opcode id, a fixed-size ordered sequence of Operands ..., and the encoded byte length" (R15, R81). -/
structure Descriptor where
  mnemonic : Mnemonic
  operands : List OperandForm
  length : Nat
deriving DecidableEq, Repr

/-! ### From an instruction to its descriptor -/

/-- An r8 operand as an operand form. -/
def rmForm (t : RM8) : OperandForm :=
  match t with
  | .reg r => .r8 r
  | .mhl => .indirect .hl

/-- An ALU source as an operand form. -/
def srcForm (src : Src8) : OperandForm :=
  match src with
  | .reg r => .r8 r
  | .mhl => .indirect .hl
  | .imm _ => .n8

/-- Mnemonic and operands of an instruction: its row of the opcode table; an illegal byte has none (R103). -/
def instrOperation (i : Instr) : Option (Mnemonic × List OperandForm) :=
  match i with
  | .ldRegReg dst src => some (.ld, [.r8 dst, .r8 src])
  | .ldRegImm dst _ => some (.ld, [.r8 dst, .n8])
  | .ldRegMhl dst => some (.ld, [.r8 dst, .indirect .hl])
  | .ldMhlReg src => some (.ld, [.indirect .hl, .r8 src])
  | .ldMhlImm _ => some (.ld, [.indirect .hl, .n8])
  | .ldAMbc => some (.ld, [.r8 .a, .indirect .bc])
  | .ldAMde => some (.ld, [.r8 .a, .indirect .de])
  | .ldMbcA => some (.ld, [.indirect .bc, .r8 .a])
  | .ldMdeA => some (.ld, [.indirect .de, .r8 .a])
  | .ldAMhlInc => some (.ld, [.r8 .a, .hlInc])
  | .ldAMhlDec => some (.ld, [.r8 .a, .hlDec])
  | .ldMhlIncA => some (.ld, [.hlInc, .r8 .a])
  | .ldMhlDecA => some (.ld, [.hlDec, .r8 .a])
  | .ldAMabs _ => some (.ld, [.r8 .a, .absolute])
  | .ldMabsA _ => some (.ld, [.absolute, .r8 .a])
  | .ldhAImm _ => some (.ldh, [.r8 .a, .highImm])
  | .ldhImmA _ => some (.ldh, [.highImm, .r8 .a])
  | .ldhAC => some (.ldh, [.r8 .a, .highC])
  | .ldhCA => some (.ldh, [.highC, .r8 .a])
  | .ldMabsSp _ => some (.ld, [.absolute, .r16 .sp])
  | .ldPairImm rr _ => some (.ld, [.r16 (r16Pair rr), .n16])
  | .ldSpHl => some (.ld, [.r16 .sp, .r16 .hl])
  | .ldHlSpE8 _ => some (.ld, [.r16 .hl, .spE8])
  | .push rr => some (.push, [.r16 (stkPair rr)])
  | .pop rr => some (.pop, [.r16 (stkPair rr)])
  | .jp _ => some (.jp, [.a16])
  | .jpCond cc _ => some (.jp, [.condition cc, .a16])
  | .jpHl => some (.jp, [.r16 .hl])
  | .jr _ => some (.jr, [.e8])
  | .jrCond cc _ => some (.jr, [.condition cc, .e8])
  | .call _ => some (.call, [.a16])
  | .callCond cc _ => some (.call, [.condition cc, .a16])
  | .ret => some (.ret, [])
  | .retCond cc => some (.ret, [.condition cc])
  | .reti => some (.reti, [])
  | .rst y => some (.rst, [.target y])
  | .add src => some (.add, [.r8 .a, srcForm src])
  | .adc src => some (.adc, [.r8 .a, srcForm src])
  | .sub src => some (.sub, [.r8 .a, srcForm src])
  | .sbc src => some (.sbc, [.r8 .a, srcForm src])
  | .and src => some (.and, [.r8 .a, srcForm src])
  | .xor src => some (.xor, [.r8 .a, srcForm src])
  | .or src => some (.or, [.r8 .a, srcForm src])
  | .cp src => some (.cp, [.r8 .a, srcForm src])
  | .incReg r => some (.inc, [.r8 r])
  | .incMhl => some (.inc, [.indirect .hl])
  | .decReg r => some (.dec, [.r8 r])
  | .decMhl => some (.dec, [.indirect .hl])
  | .rlca => some (.rlca, [])
  | .rrca => some (.rrca, [])
  | .rla => some (.rla, [])
  | .rra => some (.rra, [])
  | .daa => some (.daa, [])
  | .cpl => some (.cpl, [])
  | .scf => some (.scf, [])
  | .ccf => some (.ccf, [])
  | .addHl rr => some (.add, [.r16 .hl, .r16 (r16Pair rr)])
  | .incPair rr => some (.inc, [.r16 (r16Pair rr)])
  | .decPair rr => some (.dec, [.r16 (r16Pair rr)])
  | .addSpE8 _ => some (.add, [.r16 .sp, .e8])
  | .rlc t => some (.rlc, [rmForm t])
  | .rrc t => some (.rrc, [rmForm t])
  | .rl t => some (.rl, [rmForm t])
  | .rr t => some (.rr, [rmForm t])
  | .sla t => some (.sla, [rmForm t])
  | .sra t => some (.sra, [rmForm t])
  | .swap t => some (.swap, [rmForm t])
  | .srl t => some (.srl, [rmForm t])
  | .bit b t => some (.bit, [.bitIndex b, rmForm t])
  | .res b t => some (.res, [.bitIndex b, rmForm t])
  | .set b t => some (.set, [.bitIndex b, rmForm t])
  | .nop => some (.nop, [])
  | .halt => some (.halt, [])
  | .stop _ => some (.stop, [])
  | .di => some (.di, [])
  | .ei => some (.ei, [])
  | .illegal _ => none

/-- The descriptor of an instruction. -/
def instrDescriptor (i : Instr) : Option Descriptor :=
  match instrOperation i with
  | some (m, ops) => some { mnemonic := m, operands := ops, length := i.length }
  | none => none

/-! ### From a descriptor and the bytes after the opcode to an instruction -/

/-- A pair as an r16 operand (R87). -/
def formR16 (o : OperandForm) : Option R16 :=
  match o with
  | .r16 .bc => some .bc
  | .r16 .de => some .de
  | .r16 .hl => some .hl
  | .r16 .sp => some .sp
  | _ => none

/-- A pair as an r16stk operand (R87). -/
def formStk (o : OperandForm) : Option R16Stk :=
  match o with
  | .r16 .bc => some .bc
  | .r16 .de => some .de
  | .r16 .hl => some .hl
  | .r16 .af => some .af
  | _ => none

/-- A form as an r8 operand (R86). -/
def formRM (o : OperandForm) : Option RM8 :=
  match o with
  | .r8 r => some (.reg r)
  | .indirect .hl => some .mhl
  | _ => none

/-- A form as an ALU source (R181), with its immediate. -/
def formSrc (o : OperandForm) (n1 : Byte) : Option Src8 :=
  match o with
  | .r8 r => some (.reg r)
  | .indirect .hl => some .mhl
  | .n8 => some (.imm n1)
  | _ => none

/-- The loads of rules R120 to R134 and R139 to R142. -/
def loadOf (dst src : OperandForm) (n1 n2 : Byte) : Option Instr :=
  match dst, src with
  | .r8 r, .r8 r' => some (.ldRegReg r r')
  | .r8 r, .n8 => some (.ldRegImm r n1)
  | .r8 r, .indirect .hl => some (.ldRegMhl r)
  | .indirect .hl, .r8 r => some (.ldMhlReg r)
  | .indirect .hl, .n8 => some (.ldMhlImm n1)
  | .r8 .a, .indirect .bc => some .ldAMbc
  | .r8 .a, .indirect .de => some .ldAMde
  | .indirect .bc, .r8 .a => some .ldMbcA
  | .indirect .de, .r8 .a => some .ldMdeA
  | .r8 .a, .hlInc => some .ldAMhlInc
  | .r8 .a, .hlDec => some .ldAMhlDec
  | .hlInc, .r8 .a => some .ldMhlIncA
  | .hlDec, .r8 .a => some .ldMhlDecA
  | .r8 .a, .absolute => some (.ldAMabs (join n2 n1))
  | .absolute, .r8 .a => some (.ldMabsA (join n2 n1))
  | .absolute, .r16 .sp => some (.ldMabsSp (join n2 n1))
  | .r16 .sp, .r16 .hl => some .ldSpHl
  | .r16 .hl, .spE8 => some (.ldHlSpE8 n1)
  | o, .n16 => (formR16 o).map fun rr => .ldPairImm rr (join n2 n1)
  | _, _ => none

/-- The high-page loads (R135 to R138). -/
def highLoadOf (dst src : OperandForm) (n1 : Byte) : Option Instr :=
  match dst, src with
  | .r8 .a, .highImm => some (.ldhAImm n1)
  | .highImm, .r8 .a => some (.ldhImmA n1)
  | .r8 .a, .highC => some .ldhAC
  | .highC, .r8 .a => some .ldhCA
  | _, _ => none

/-- ADD in its three forms (R182, R210, R214). -/
def additionOf (dst src : OperandForm) (n1 : Byte) : Option Instr :=
  match dst, src with
  | .r8 .a, o => (formSrc o n1).map .add
  | .r16 .hl, o => (formR16 o).map .addHl
  | .r16 .sp, .e8 => some (.addSpE8 n1)
  | _, _ => none

/-- An ALU instruction with the explicit destination A (R106, R181). -/
def aluForm (k : Src8 → Instr) (dst src : OperandForm) (n1 : Byte) : Option Instr :=
  match dst with
  | .r8 .a => (formSrc src n1).map k
  | _ => none

/-- The instruction of mnemonic `m` with these operand forms, or none: no rule handles the combination (R108). -/
def instrOf (m : Mnemonic) (ops : List OperandForm) (n1 n2 : Byte) : Option Instr :=
  match m, ops with
  | .ld, [o, o'] => loadOf o o' n1 n2
  | .ldh, [o, o'] => highLoadOf o o' n1
  | .push, [o] => (formStk o).map .push
  | .pop, [o] => (formStk o).map .pop
  | .jp, [.a16] => some (.jp (join n2 n1))
  | .jp, [.condition cc, .a16] => some (.jpCond cc (join n2 n1))
  | .jp, [.r16 .hl] => some .jpHl
  | .jr, [.e8] => some (.jr n1)
  | .jr, [.condition cc, .e8] => some (.jrCond cc n1)
  | .call, [.a16] => some (.call (join n2 n1))
  | .call, [.condition cc, .a16] => some (.callCond cc (join n2 n1))
  | .ret, [] => some .ret
  | .ret, [.condition cc] => some (.retCond cc)
  | .reti, [] => some .reti
  | .rst, [.target y] => some (.rst y)
  | .add, [o, o'] => additionOf o o' n1
  | .adc, [o, o'] => aluForm .adc o o' n1
  | .sub, [o, o'] => aluForm .sub o o' n1
  | .sbc, [o, o'] => aluForm .sbc o o' n1
  | .and, [o, o'] => aluForm .and o o' n1
  | .xor, [o, o'] => aluForm .xor o o' n1
  | .or, [o, o'] => aluForm .or o o' n1
  | .cp, [o, o'] => aluForm .cp o o' n1
  | .inc, [.r8 r] => some (.incReg r)
  | .inc, [.indirect .hl] => some .incMhl
  | .inc, [o] => (formR16 o).map .incPair
  | .dec, [.r8 r] => some (.decReg r)
  | .dec, [.indirect .hl] => some .decMhl
  | .dec, [o] => (formR16 o).map .decPair
  | .rlca, [] => some .rlca
  | .rrca, [] => some .rrca
  | .rla, [] => some .rla
  | .rra, [] => some .rra
  | .daa, [] => some .daa
  | .cpl, [] => some .cpl
  | .scf, [] => some .scf
  | .ccf, [] => some .ccf
  | .rlc, [o] => (formRM o).map .rlc
  | .rrc, [o] => (formRM o).map .rrc
  | .rl, [o] => (formRM o).map .rl
  | .rr, [o] => (formRM o).map .rr
  | .sla, [o] => (formRM o).map .sla
  | .sra, [o] => (formRM o).map .sra
  | .swap, [o] => (formRM o).map .swap
  | .srl, [o] => (formRM o).map .srl
  | .bit, [.bitIndex b, o] => (formRM o).map (.bit b)
  | .res, [.bitIndex b, o] => (formRM o).map (.res b)
  | .set, [.bitIndex b, o] => (formRM o).map (.set b)
  | .nop, [] => some .nop
  | .halt, [] => some .halt
  | .stop, [] => some (.stop n1)
  | .di, [] => some .di
  | .ei, [] => some .ei
  | _, _ => none

/-- The instruction a descriptor stands for. One whose length is not the instruction's is none
(DESIGN CHOICE, log entry 13). -/
def descriptorInstr (d : Descriptor) (n1 n2 : Byte) : Option Instr :=
  match instrOf d.mnemonic d.operands n1 n2 with
  | some i => if i.length = d.length then some i else none
  | none => none

/-! ### The condition evaluator over any operand -/

/-- The condition evaluator over any operand form: only the four predicates have a verdict (R95, R96). -/
def evaluateCondition (o : OperandForm) (s : State) : Option Bool :=
  match o with
  | .condition cc => some (cond cc s)
  | _ => none

/-- The operand that the descriptor puts where the condition stands, if the descriptor is of a gated form: the first of
two operands of JP, JR and CALL, and the operand of RET. -/
def conditionOperand (d : Descriptor) : Option OperandForm :=
  match d.mnemonic, d.operands with
  | .jp, [o, _] => some o
  | .jr, [o, _] => some o
  | .call, [o, _] => some o
  | .ret, [o] => some o
  | _, _ => none

/-- The gate of the descriptor is well formed: it has none, or the evaluator is defined on it (R96). -/
def conditionWellFormed (d : Descriptor) (s : State) : Bool :=
  match conditionOperand d with
  | none => true
  | some o => (evaluateCondition o s).isSome

/-! ### A step over an external table -/

/-- The table as an input: what each base byte but 0xCB stands for (none: illegal), and each 0xCB second byte. -/
structure OpcodeTable where
  base : Byte → Option Descriptor
  cb : Byte → Descriptor

/-- The execution of a fetched descriptor: the faults of R108 and R96 before any other access (R252, R256), else the
instruction. DESIGN CHOICE (log entry 15): a descriptor whose gate is no condition code is also one that no rule handles,
and R256 names the two faults in one stage without an order; the gate is evaluated first, so MalformedCondition is raised
and InvalidOperandCombination is not. -/
def execDescriptor (d : Descriptor) (bytes : List Byte) (n1 n2 : Byte) (s : State) :
    Host.Outcome State Fault Refusal :=
  if conditionWellFormed d s then
    match descriptorInstr d n1 n2 with
    | some i => exec i s
    | none => raise (.invalidOperandCombination s.pc bytes)
  else raise (.malformedCondition s.pc bytes)

/-- Fetch the bytes that R80 fetches for the descriptor's length, then execute it. R80 fetches a second byte if the length
is 2 and a word if it is 3, so a length that is none of 1, 2 and 3 fetches nothing more than the opcode; DESIGN CHOICE (log
entry 17): such a descriptor has no handler. -/
def runDescriptor (d : Descriptor) (op : Byte) (s : State) : Host.Outcome State Fault Refusal :=
  match d.length with
  | 2 => match memRead s (s.pc.toNat + 1) with
    | .error f => raise f
    | .ok n1 => execDescriptor d [op] n1 0 s
  | 3 => match memReadWord s (s.pc.toNat + 1) with
    | .error f => raise f
    | .ok n => execDescriptor d [op] (loByte n) (hiByte n) s
  | _ => execDescriptor d [op] 0 0 s

/-- The descriptor with the length that R80 gives every 0xCB row, `len <- 2`, in place of the row's own. DESIGN CHOICE
(log entry 16): so an instruction of length 1 or 3 in a 0xCB row has no handler, and one of length 2 with an immediate
operand reads it at pc0 + 1 (R92), where the second byte stands. -/
def Descriptor.withCbLength (d : Descriptor) : Descriptor := { d with length := 2 }

/-- `executeOne` over an external table (R80 with BASE_TABLE, CB_TABLE and LEN taken from it). -/
def stepWithTable (table : OpcodeTable) (s : State) : Host.Outcome State Fault Refusal :=
  match s.fault with
  | some f => .fault f
  | none =>
    if s.halted || s.stopped then .next s
    else match memRead s s.pc.toNat with
      | .error f => .fault f
      | .ok op =>
        if op = 0xCB then
          match memRead s (s.pc.toNat + 1) with
          | .error f => .fault f
          | .ok op2 => finishStep s.eiPending (execDescriptor (table.cb op2).withCbLength [op, op2] op2 0 s)
        else match table.base op with
          | none => raise (.illegalOpcode s.pc op)
          | some d => finishStep s.eiPending (runDescriptor d op s)

/-- The descriptor of a 0xCB second byte. -/
def cbDescriptor (op2 : Byte) : Descriptor :=
  match instrDescriptor (decodeCb op2) with
  | some d => d
  | none => { mnemonic := .nop, operands := [], length := 2 }

/-- The table this spec fixes (R81, R102), as descriptors. -/
def fixedTable : OpcodeTable where
  base := fun op => instrDescriptor (decodeBase op 0 0)
  cb := cbDescriptor

end Sys2Proof.Machine
end

