-- ==== Sys2Proof/Machine/ExecuteOne.lean ====
section
/-! DEFINITION. `executeOne` with all it answers (30_encoding R80, R83; 60_exceptions R250): the state after it, in
which a fault is latched, and `Ok(bytes consumed)` or `Fault(reason, info)`. -/

namespace Sys2Proof.Machine

open Sys2Proof

/-- What `executeOne` returns (R83). -/
inductive StepReturn where
  /-- `Ok(n)` -/
  | ok (bytes : Nat)
  /-- `Fault(reason, info)` -/
  | fault (f : Fault)
  /-- no move; no step answers it -/
  | refused (r : Refusal)
deriving DecidableEq, Repr

/-- `n` of `Ok(n)`: the encoded length of the executed instruction, whether or not a branch was taken; 0 while the
CORE is halted or stopped (R83, D21). -/
def bytesConsumed (s : State) : Nat :=
  if s.halted || s.stopped then 0
  else match fetchInstr s with
    | .ok i => i.length
    | .error _ => 0

/-- `executeOne(s)` (R80): the state it leaves and what it returns. -/
def executeOne (s : State) : State × StepReturn :=
  match step s with
  | .next t => (t, .ok (bytesConsumed s))
  | .fault f => (s.latchFault f, .fault f)
  | .refused r => (s, .refused r)

end Sys2Proof.Machine
end

