-- ==== Sys2Proof/Machine/Launch.lean ====
section
/-! DEFINITION. The launch: the state at the first `executeOne`, from the parameters, `INIT` and the memory image
(00_scope R7, 10_state R40, 70_reset_and_hazards R280 to R283). -/

namespace Sys2Proof.Machine

open Sys2Proof

/-- `INIT` of R7: a full register-file value and the IME latch; every other latch starts clean (R281). -/
structure Init where
  a : Byte
  f : Byte
  b : Byte
  c : Byte
  d : Byte
  e : Byte
  h : Byte
  l : Byte
  sp : Word
  pc : Word
  ime : Bool
deriving DecidableEq, Repr

/-- Every register 0, the value this model names where a launch names none (log entry 1). -/
def Init.zero : Init :=
  { a := 0, f := 0, b := 0, c := 0, d := 0, e := 0, h := 0, l := 0, sp := 0, pc := 0, ime := false }

/-- The DMG values left by the boot ROM (R40): informative, and not the CORE's reset state. -/
def Init.dmg : Init :=
  { a := 0x01, f := 0xB0, b := 0x00, c := 0x13, d := 0x00, e := 0xD8, h := 0x01, l := 0x4D, sp := 0xFFFE, pc := 0x0100,
    ime := false }

/-- The store a collaborator's image leaves: the bytes of the image in order, a later one over an earlier one, and
nothing outside the store's cells (R51, log entry 12). -/
def loadImage (memSize : Nat) (image : List Host.Cell) : Memory :=
  image.foldl (fun m c => if c.1 < memSize ∧ c.1 ≤ 0xFFFF then Memory.set m c.1 c.2 else m) []

/-- The launch state (R280, R281): the registers from `INIT`, F masked by R25, the latches clean. -/
def State.launch (p : Params) (init : Init) (image : List Host.Cell) : State where
  af := maskAf (join init.a init.f)
  bc := join init.b init.c
  de := join init.d init.e
  hl := join init.h init.l
  sp := init.sp
  pc := init.pc
  ime := init.ime
  eiPending := false
  halted := false
  stopped := false
  fault := none
  mem := loadImage p.memSize image
  params := p

end Sys2Proof.Machine
end

