-- ==== Sys2Proof/Machine/HostActs.lean ====
section
/-! DEFINITION. What the host may do between two steps (20_memory R62, 60_exceptions R261 to R264,
70_reset_and_hazards R284). The duties the spec lays on the host have no move here: they are refused by name
(93_implementation_defined I10, I11; log entry 7). -/

namespace Sys2Proof.Machine

open Sys2Proof

/-- One between-step action of R284. -/
inductive HostAction where
  /-- reset: a new `INIT` and image; "everything" -/
  | launch (p : Params) (init : Init) (image : List Host.Cell)
  /-- write an 8-bit register -/
  | writeR8 (r : Reg8) (v : Byte)
  /-- write F; its low bits are discarded (R25) -/
  | writeF (v : Byte)
  /-- write a 16-bit register, SP or PC -/
  | writeR16 (rr : Pair) (v : Word)
  /-- write one memory cell: a peripheral's register, a DMA copy -/
  | writeCell (a : Nat) (v : Byte)
  /-- `enterInterrupt(v)` (R263) -/
  | enterInterrupt (i : InterruptSource)
  /-- `wake()` (R264) -/
  | wake
deriving DecidableEq, Repr

/-- An interrupt entry under the controller's duties (R262, R263, R267). -/
def requestEntry (i : InterruptSource) (s : State) : Host.Outcome State Fault Refusal :=
  match s.fault with
  | some _ => .refused .entryWhileFaulted
  | none =>
    if s.ime then
      match enterInterrupt s i with
      | .ok t => .next t
      | .error f => raise f
    else .refused .entryWhileMasked

/-- The state after a host action. -/
def hostAct (h : HostAction) (s : State) : Host.Outcome State Fault Refusal :=
  match h with
  | .launch p init image => .next (State.launch p init image)
  | .writeR8 r v => .next (s.setR8 r v)
  | .writeF v => .next (s.setF v)
  | .writeR16 rr v => .next (s.setR16 rr v)
  | .writeCell a v =>
    if a ≤ 0xFFFF ∧ a < s.params.memSize then .next { s with mem := Memory.set s.mem a v }
    else .refused (.hostAccessOutsideStore a)
  | .enterInterrupt i => requestEntry i s
  | .wake => .next s.wake

end Sys2Proof.Machine
end

