-- ==== Sys2Proof/Machine/Run.lean ====
section
/-! DEFINITION. Runs (70_reset_and_hazards R285 to R287): whole `executeOne` steps interleaved with host actions, the step
boundary at which a run ends, and how a run comes out. -/

namespace Sys2Proof.Machine

open Sys2Proof

/-- A step of `s` fetches and executes an instruction (R80). -/
abbrev State.Running (s : State) : Prop := s.fault = none ∧ s.halted = false ∧ s.stopped = false

/-- What R286 asks of the step boundary at which a run ends. -/
abbrev RunEnds (endPc : Word) (s : State) : Prop := s.pc = endPc ∧ s.Running

/-- The CORE waits: no step makes progress until the host wakes it (R287, I12). -/
abbrev Hung (s : State) : Prop := s.fault = none ∧ (s.halted = true ∨ s.stopped = true)

/-- An `executeOne` call or a host action at a step boundary (R285). -/
inductive Event where
  | step
  | host (h : HostAction)
deriving DecidableEq, Repr

/-- The state after one event; a fault is latched, and a refused host action has no move. -/
def runEvent (e : Event) (s : State) : Option State :=
  match e with
  | .step => match executeOne s with
    | (t, .ok _) => some t
    | (t, .fault _) => some t
    | (_, .refused _) => none
  | .host h => match hostAct h s with
    | .next t => some t
    | .fault f => some (s.latchFault f)
    | .refused _ => none

/-- The state after a list of events (R285), whether or not the run has ended on the way. -/
def runEvents (es : List Event) (s : State) : Option State :=
  match es with
  | [] => some s
  | e :: rest => match runEvent e s with
    | some t => runEvents rest t
    | none => none

/-- How a run comes out (R286, R287). -/
inductive RunResult where
  /-- the run has ended; `final` is the state the host reads back -/
  | ended (final : State)
  /-- a faulted run: it has not ended, and never does -/
  | faulted (s : State) (f : Fault)
  /-- the events are used up and the run goes on from `s`; it is a hang if `Hung s` and the host does nothing -/
  | unfinished (s : State)
  /-- the next event is a host action for which the model has no move (log entry 7) -/
  | refused (s : State)
deriving DecidableEq, Repr

/-- The run of the events from `s` up to the FIRST boundary that `RunEnds` accepts (R286). DESIGN CHOICE (log entry 18):
the boundaries are the start state itself, before any `executeOne`, and the state after each step and each host action;
the spec does not say whether the launch state is one. -/
def runUntil (endPc : Word) (es : List Event) (s : State) : RunResult :=
  match s.fault with
  | some f => .faulted s f
  | none =>
    if RunEnds endPc s then .ended s
    else match es with
      | [] => .unfinished s
      | e :: rest => match runEvent e s with
        | some t => runUntil endPc rest t
        | none => .refused s

/-- The run in which the host only calls `executeOne`, at most `fuel` times (R286, with the boundaries of `runUntil`). -/
def runToEnd (endPc : Word) (fuel : Nat) (s : State) : RunResult :=
  runUntil endPc (List.replicate fuel .step) s

end Sys2Proof.Machine
end

