-- ==== Sys2Proof/Safety.lean ====
section
/-! DEFINITION. What counts as a well-formed state and a clean launch (70_reset_and_hazards R282), in the terms the
statements use. Runs and their end (R285 to R287) are in Machine/Run.lean. -/

namespace Sys2Proof.Machine

open Sys2Proof

/-- Every listed cell is a cell of the store: its address is below MEM_SIZE and at most 0xFFFF (R50, R51). -/
abbrev Memory.within (m : Memory) (memSize : Nat) : Prop := ∀ c ∈ m, c.1 < memSize ∧ c.1 ≤ 0xFFFF

/-- The bits F[3:0] are 0 (R25). -/
abbrev State.flagsLow (s : State) : Prop := s.f &&& 0x0F = 0

/-- The invariant of the machine: the store has its canonical form and lies within MEM_SIZE cells, F[3:0] is 0 (R25),
and the parameters are in the ranges of R7. -/
abbrev State.Inv (s : State) : Prop :=
  Memory.wf s.mem ∧ Memory.within s.mem s.params.memSize ∧ s.flagsLow ∧ s.params.wf

/-- `CleanLaunch(s)` of R282; every cell has a byte value in this model. -/
abbrev CleanLaunch (s : State) : Prop :=
  s.fault = none ∧ s.halted = false ∧ s.stopped = false ∧ s.eiPending = false ∧ s.flagsLow

end Sys2Proof.Machine
end

