-- ==== Sys2Proof/Certificates/Slice0/Obligations.lean ====
section
/-! DEFINITION. The statements for the provers. First the words they use, written from the spec's tables and not from
the model's meanings; then one definition per statement. -/

namespace Sys2Proof.Claim

open Sys2Proof Sys2Proof.Machine

/-! ### Reading the machine -/

/-- The byte of cell `a`. -/
abbrev cell (s : State) (a : Nat) : Byte := Memory.get s.mem a

/-- The address has a cell (R53). -/
abbrev HasCell (s : State) (a : Nat) : Prop := inStore s.params a = true

/-- The bytes stand at the natural addresses from `a` on, each of which has a cell. -/
def BytesAt (s : State) (a : Nat) : List Byte → Prop
  | [] => True
  | v :: rest => HasCell s a ∧ s.peek a = v ∧ BytesAt s (a + 1) rest

/-- The value of an ALU source (R181). -/
def SrcReads (src : Src8) (s : State) (v : Byte) : Prop :=
  match src with
  | .reg r => v = s.r8 r
  | .mhl => HasCell s s.hl.toNat ∧ v = cell s s.hl.toNat
  | .imm n => v = n

/-- The value of an r8 operand (R220). -/
def RmReads (x : RM8) (s : State) (v : Byte) : Prop :=
  match x with
  | .reg r => v = s.r8 r
  | .mhl => HasCell s s.hl.toNat ∧ v = cell s s.hl.toNat

/-- After `s`, in `t`, the r8 operand of `s` holds `v` (R220). -/
def RmHolds (x : RM8) (s t : State) (v : Byte) : Prop :=
  match x with
  | .reg r => t.r8 r = v
  | .mhl => cell t s.hl.toNat = v

/-- The four flags (R24). -/
abbrev FlagsAre (t : State) (z n h c : Bool) : Prop := t.flagZ = z ∧ t.flagN = n ∧ t.flagH = h ∧ t.flagC = c

/-- The latches and the parameters are the same (R30, R7). -/
abbrev SameLatches (s t : State) : Prop :=
  t.ime = s.ime ∧ t.eiPending = s.eiPending ∧ t.halted = s.halted ∧ t.stopped = s.stopped ∧ t.fault = s.fault ∧
    t.params = s.params

/-- Every register but SP and PC is the same. -/
abbrev SameRegisters (s t : State) : Prop := t.af = s.af ∧ t.bc = s.bc ∧ t.de = s.de ∧ t.hl = s.hl

/-- Every cell but the listed ones reads as before. -/
abbrev SameCellsBut (cells : List Nat) (s t : State) : Prop := ∀ a, a ∉ cells → cell t a = cell s a

/-- The `pc0` a fault records (R251). -/
def faultPc : Fault → Word
  | .illegalOpcode pc0 _ => pc0
  | .invalidOperandCombination pc0 _ => pc0
  | .addressOutOfRange _ pc0 => pc0
  | .malformedCondition pc0 _ => pc0

/-! ### The stack cells (R57 to R59) -/

/-- The addresses a word push writes, the high byte's first. -/
def pushCells (s : State) : List Nat :=
  match s.params.stackMode with
  | .doc => [s.sp.toNat, (s.sp - 1).toNat]
  | .sm83 => [(s.sp - 1).toNat, (s.sp - 2).toNat]

/-- The addresses a word pop reads, the low byte's first. -/
def popCells (s : State) : List Nat :=
  match s.params.stackMode with
  | .doc => [(s.sp + 1).toNat, (s.sp + 2).toNat]
  | .sm83 => [s.sp.toNat, (s.sp + 1).toNat]

/-- After a push of `v` from `s`, the stack holds it in `t` (R58, R59). -/
def Pushed (s t : State) (v : Word) : Prop :=
  (pushCells s).map (cell t) = [hiByte v, loByte v] ∧ t.sp = s.sp - 2

/-- The word a pop from `s` answers (R58, R59). -/
def popValue (s : State) : Word :=
  match s.params.stackMode with
  | .doc => join (cell s (s.sp + 2).toNat) (cell s (s.sp + 1).toNat)
  | .sm83 => join (cell s (s.sp + 1).toNat) (cell s s.sp.toNat)

/-! ### The data accesses of an instruction, in their order (R63, R64) -/

/-- The access of an ALU source. -/
def srcAccesses (src : Src8) (s : State) : List Nat :=
  match src with
  | .reg _ => []
  | .mhl => [s.hl.toNat]
  | .imm _ => []

/-- The access of an r8 operand; a read-modify-write reads and writes the one cell (R65). -/
def rmAccesses (x : RM8) (s : State) : List Nat :=
  match x with
  | .reg _ => []
  | .mhl => [s.hl.toNat]

/-- The addresses of an instruction's data and stack accesses, as the unbounded naturals it computes (R53, R64). -/
def accesses (i : Instr) (s : State) : List Nat :=
  match i with
  | .ldRegMhl _ | .ldMhlReg _ | .ldMhlImm _ | .incMhl | .decMhl => [s.hl.toNat]
  | .ldAMhlInc | .ldAMhlDec | .ldMhlIncA | .ldMhlDecA => [s.hl.toNat]
  | .ldAMbc | .ldMbcA => [s.bc.toNat]
  | .ldAMde | .ldMdeA => [s.de.toNat]
  | .ldAMabs a | .ldMabsA a => [a.toNat]
  | .ldhAImm n | .ldhImmA n => [0xFF00 + n.toNat]
  | .ldhAC | .ldhCA => [0xFF00 + (s.r8 .c).toNat]
  | .ldMabsSp a => [a.toNat, a.toNat + 1]
  | .push _ | .call _ | .rst _ => pushCells s
  | .callCond cc _ => if cond cc s then pushCells s else []
  | .pop _ | .ret | .reti => popCells s
  | .retCond cc => if cond cc s then popCells s else []
  | .add x | .adc x | .sub x | .sbc x | .and x | .xor x | .or x | .cp x => srcAccesses x s
  | .rlc x | .rrc x | .rl x | .rr x | .sla x | .sra x | .swap x | .srl x => rmAccesses x s
  | .bit _ x | .res _ x | .set _ x => rmAccesses x s
  | .ldRegReg _ _ | .ldRegImm _ _ | .ldPairImm _ _ | .ldSpHl | .ldHlSpE8 _ => []
  | .jp _ | .jpCond _ _ | .jpHl | .jr _ | .jrCond _ _ => []
  | .incReg _ | .decReg _ | .rlca | .rrca | .rla | .rra | .daa | .cpl | .scf | .ccf => []
  | .addHl _ | .incPair _ | .decPair _ | .addSpE8 _ => []
  | .nop | .halt | .stop _ | .di | .ei | .illegal _ => []

/-- The cells an instruction stores to (the store rules of 40_load, 41_control, 42_alu8, 44_cb_prefix). -/
def storedCells (i : Instr) (s : State) : List Nat :=
  match i with
  | .ldMhlReg _ | .ldMhlImm _ | .incMhl | .decMhl | .ldMhlIncA | .ldMhlDecA => [s.hl.toNat]
  | .ldMbcA => [s.bc.toNat]
  | .ldMdeA => [s.de.toNat]
  | .ldMabsA a => [a.toNat]
  | .ldhImmA n => [0xFF00 + n.toNat]
  | .ldhCA => [0xFF00 + (s.r8 .c).toNat]
  | .ldMabsSp a => [a.toNat, busAddress s.params (a.toNat + 1)]
  | .push _ | .call _ | .rst _ => pushCells s
  | .callCond cc _ => if cond cc s then pushCells s else []
  | .rlc x | .rrc x | .rl x | .rr x | .sla x | .sra x | .swap x | .srl x => rmAccesses x s
  | .res _ x | .set _ x => rmAccesses x s
  | .bit _ _ => []
  | .ldRegReg _ _ | .ldRegImm _ _ | .ldRegMhl _ | .ldAMbc | .ldAMde | .ldAMhlInc | .ldAMhlDec => []
  | .ldAMabs _ | .ldhAImm _ | .ldhAC | .ldPairImm _ _ | .ldSpHl | .ldHlSpE8 _ | .pop _ => []
  | .jp _ | .jpCond _ _ | .jpHl | .jr _ | .jrCond _ _ | .ret | .retCond _ | .reti => []
  | .add _ | .adc _ | .sub _ | .sbc _ | .and _ | .xor _ | .or _ | .cp _ => []
  | .incReg _ | .decReg _ | .rlca | .rrca | .rla | .rra | .daa | .cpl | .scf | .ccf => []
  | .addHl _ | .incPair _ | .decPair _ | .addSpE8 _ => []
  | .nop | .halt | .stop _ | .di | .ei | .illegal _ => []

/-! ### The registers an instruction writes (R23) -/

/-- The halves of a 16-bit register; AF's low half is F, which the flag table covers. -/
def r16Halves : R16 → List Reg8
  | .bc => [.b, .c]
  | .de => [.d, .e]
  | .hl => [.h, .l]
  | .sp => []

/-- The halves of a register that POP writes, F apart. -/
def stkHalves : R16Stk → List Reg8
  | .bc => [.b, .c]
  | .de => [.d, .e]
  | .hl => [.h, .l]
  | .af => [.a]

/-- The register an r8 operand names. -/
def rmHalves : RM8 → List Reg8
  | .reg r => [r]
  | .mhl => []

/-- The 8-bit registers an instruction writes (R23), F apart. -/
def writtenR8 : Instr → List Reg8
  | .ldRegReg dst _ | .ldRegImm dst _ | .ldRegMhl dst => [dst]
  | .ldAMbc | .ldAMde | .ldAMabs _ | .ldhAImm _ | .ldhAC => [.a]
  | .ldAMhlInc | .ldAMhlDec => [.a, .h, .l]
  | .ldMhlIncA | .ldMhlDecA | .ldHlSpE8 _ | .addHl _ => [.h, .l]
  | .ldPairImm rr _ | .incPair rr | .decPair rr => r16Halves rr
  | .pop rr => stkHalves rr
  | .add _ | .adc _ | .sub _ | .sbc _ | .and _ | .xor _ | .or _ => [.a]
  | .incReg r | .decReg r => [r]
  | .rlca | .rrca | .rla | .rra | .daa | .cpl => [.a]
  | .rlc x | .rrc x | .rl x | .rr x | .sla x | .sra x | .swap x | .srl x | .res _ x | .set _ x => rmHalves x
  | .ldMhlReg _ | .ldMhlImm _ | .ldMbcA | .ldMdeA | .ldMabsA _ | .ldhImmA _ | .ldhCA | .ldMabsSp _ => []
  | .ldSpHl | .push _ | .addSpE8 _ | .cp _ | .incMhl | .decMhl | .scf | .ccf | .bit _ _ => []
  | .jp _ | .jpCond _ _ | .jpHl | .jr _ | .jrCond _ _ | .call _ | .callCond _ _ => []
  | .ret | .retCond _ | .reti | .rst _ | .nop | .halt | .stop _ | .di | .ei | .illegal _ => []

/-- The instruction writes SP (R23). -/
def writesSp (i : Instr) (s : State) : Bool :=
  match i with
  | .ldPairImm rr _ | .incPair rr | .decPair rr => decide (rr = .sp)
  | .ldSpHl | .addSpE8 _ | .push _ | .pop _ | .call _ | .ret | .reti | .rst _ => true
  | .callCond cc _ | .retCond cc => cond cc s
  | .ldRegReg _ _ | .ldRegImm _ _ | .ldRegMhl _ | .ldMhlReg _ | .ldMhlImm _ | .ldAMbc | .ldAMde => false
  | .ldMbcA | .ldMdeA | .ldAMhlInc | .ldAMhlDec | .ldMhlIncA | .ldMhlDecA | .ldAMabs _ | .ldMabsA _ => false
  | .ldhAImm _ | .ldhImmA _ | .ldhAC | .ldhCA | .ldMabsSp _ | .ldHlSpE8 _ => false
  | .jp _ | .jpCond _ _ | .jpHl | .jr _ | .jrCond _ _ => false
  | .add _ | .adc _ | .sub _ | .sbc _ | .and _ | .xor _ | .or _ | .cp _ => false
  | .incReg _ | .incMhl | .decReg _ | .decMhl | .rlca | .rrca | .rla | .rra | .daa | .cpl | .scf | .ccf => false
  | .addHl _ | .rlc _ | .rrc _ | .rl _ | .rr _ | .sla _ | .sra _ | .swap _ | .srl _ => false
  | .bit _ _ | .res _ _ | .set _ _ | .nop | .halt | .stop _ | .di | .ei | .illegal _ => false

/-- The instruction sets a target for PC (R82). -/
def setsTarget (i : Instr) (s : State) : Bool :=
  match i with
  | .jp _ | .jpHl | .jr _ | .call _ | .ret | .reti | .rst _ => true
  | .jpCond cc _ | .jrCond cc _ | .callCond cc _ | .retCond cc => cond cc s
  | .ldRegReg _ _ | .ldRegImm _ _ | .ldRegMhl _ | .ldMhlReg _ | .ldMhlImm _ | .ldAMbc | .ldAMde => false
  | .ldMbcA | .ldMdeA | .ldAMhlInc | .ldAMhlDec | .ldMhlIncA | .ldMhlDecA | .ldAMabs _ | .ldMabsA _ => false
  | .ldhAImm _ | .ldhImmA _ | .ldhAC | .ldhCA | .ldMabsSp _ | .ldPairImm _ _ | .ldSpHl | .ldHlSpE8 _ => false
  | .push _ | .pop _ | .add _ | .adc _ | .sub _ | .sbc _ | .and _ | .xor _ | .or _ | .cp _ => false
  | .incReg _ | .incMhl | .decReg _ | .decMhl | .rlca | .rrca | .rla | .rra | .daa | .cpl | .scf | .ccf => false
  | .addHl _ | .incPair _ | .decPair _ | .addSpE8 _ => false
  | .rlc _ | .rrc _ | .rl _ | .rr _ | .sla _ | .sra _ | .swap _ | .srl _ => false
  | .bit _ _ | .res _ _ | .set _ _ | .nop | .halt | .stop _ | .di | .ei | .illegal _ => false

/-! ### The flag cross-table (R180) -/

/-- An entry of the table: `*` or data, `0`, `1`, `-`. -/
inductive FlagEffect where
  | computed | cleared | isSet | kept
deriving DecidableEq, Repr

/-- What an entry says of a flag's value before and after. -/
def FlagEffect.Holds (e : FlagEffect) (before after : Bool) : Prop :=
  match e with
  | .computed => True
  | .cleared => after = false
  | .isSet => after = true
  | .kept => after = before

/-- An instruction that writes no flag. -/
abbrev noFlags : FlagEffect × FlagEffect × FlagEffect × FlagEffect := (.kept, .kept, .kept, .kept)

/-- The row of R180: Z, N, H, C. -/
def flagRow : Instr → FlagEffect × FlagEffect × FlagEffect × FlagEffect
  | .add _ | .adc _ => (.computed, .cleared, .computed, .computed)
  | .sub _ | .sbc _ | .cp _ => (.computed, .isSet, .computed, .computed)
  | .and _ => (.computed, .cleared, .isSet, .cleared)
  | .xor _ | .or _ => (.computed, .cleared, .cleared, .cleared)
  | .incReg _ | .incMhl => (.computed, .cleared, .computed, .kept)
  | .decReg _ | .decMhl => (.computed, .isSet, .computed, .kept)
  | .rlca | .rrca | .rla | .rra => (.cleared, .cleared, .cleared, .computed)
  | .daa => (.computed, .kept, .cleared, .computed)
  | .cpl => (.kept, .isSet, .isSet, .kept)
  | .scf => (.kept, .cleared, .cleared, .isSet)
  | .ccf => (.kept, .cleared, .cleared, .computed)
  | .addHl _ => (.kept, .cleared, .computed, .computed)
  | .addSpE8 _ | .ldHlSpE8 _ => (.cleared, .cleared, .computed, .computed)
  | .rlc _ | .rrc _ | .rl _ | .rr _ | .sla _ | .sra _ | .srl _ => (.computed, .cleared, .cleared, .computed)
  | .swap _ => (.computed, .cleared, .cleared, .cleared)
  | .bit _ _ => (.computed, .cleared, .isSet, .kept)
  | .pop rr => if rr = .af then (.computed, .computed, .computed, .computed) else noFlags
  | .ldRegReg _ _ | .ldRegImm _ _ | .ldRegMhl _ | .ldMhlReg _ | .ldMhlImm _ | .ldAMbc | .ldAMde => noFlags
  | .ldMbcA | .ldMdeA | .ldAMhlInc | .ldAMhlDec | .ldMhlIncA | .ldMhlDecA | .ldAMabs _ | .ldMabsA _ => noFlags
  | .ldhAImm _ | .ldhImmA _ | .ldhAC | .ldhCA | .ldMabsSp _ | .ldPairImm _ _ | .ldSpHl | .push _ => noFlags
  | .jp _ | .jpCond _ _ | .jpHl | .jr _ | .jrCond _ _ | .call _ | .callCond _ _ => noFlags
  | .ret | .retCond _ | .reti | .rst _ | .incPair _ | .decPair _ => noFlags
  | .res _ _ | .set _ _ | .nop | .halt | .stop _ | .di | .ei | .illegal _ => noFlags

/-! ### Arithmetic words -/

/-- The bits of `v` one place up, with `low` in bit 0. -/
def ShiftedUp (r v : Byte) (low : Bool) : Prop := r.getLsbD 0 = low ∧ ∀ k, k < 7 → r.getLsbD (k + 1) = v.getLsbD k

/-- The bits of `v` one place down, with `high` in bit 7. -/
def ShiftedDown (r v : Byte) (high : Bool) : Prop := r.getLsbD 7 = high ∧ ∀ k, k < 7 → r.getLsbD k = v.getLsbD (k + 1)

/-- `adj` of DAA after an addition or a subtraction (R198). -/
def decimalAdjustment (a : Nat) (n h c : Bool) : Nat :=
  if n = false then
    (if h = true ∨ a % 16 > 9 then 0x06 else 0) ||| (if c = true ∨ a > 0x99 then 0x60 else 0)
  else (if h = true then 0x06 else 0) ||| (if c = true then 0x60 else 0)

/-- The byte whose two digits are those of `n` < 100. -/
def bcd (n : Nat) : Byte := BitVec.ofNat 8 (n / 10 * 16 + n % 10)

/-- Push bytes in order, and pop `n` bytes in order (R57, R59). -/
def pushAll (s : State) : List Byte → Except Fault State
  | [] => .ok s
  | v :: rest => match pushByte s v with
    | .ok t => pushAll t rest
    | .error f => .error f

/-- Pop `n` bytes, the first popped first. -/
def popAll (s : State) : Nat → Except Fault (List Byte × State)
  | 0 => .ok ([], s)
  | n + 1 => match popByte s with
    | .ok (v, t) => match popAll t n with
      | .ok (vs, u) => .ok (v :: vs, u)
      | .error f => .error f
    | .error f => .error f

end Sys2Proof.Claim

open Sys2Proof Sys2Proof.Machine Sys2Proof.Claim

/-! ### Decoding and encoding -/

/-- R81, R84 to R105: no bit of an encoding is dropped, for every well-formed instruction and every operand value. -/
def Obligations.DecodeOfEncodeIsIdentity : Prop :=
  ∀ (i : Instr) (rest : List Byte), WellFormed i → decode (encode i ++ rest) = .ok (i, rest)

/-- R81, R102: each byte sequence has one meaning, and the decoder answers well-formed instructions only. -/
def Obligations.EncodeOfDecodeIsIdentity : Prop :=
  ∀ (bytes rest : List Byte) (i : Instr), decode bytes = .ok (i, rest) → WellFormed i ∧ encode i ++ rest = bytes

/-- R81, R104: decoding is total; only a list that ends inside an instruction is refused, by name. -/
def Obligations.DecoderRefusesOnlyShortLists : Prop :=
  ∀ (op n1 n2 : Byte) (rest : List Byte),
    decode [] = .error .noOpcode ∧
    (decode [op] = if opLength op = 1 then .ok (decodeOp op 0 0, []) else .error (.noSecondByte op)) ∧
    (opLength op = 3 → decode [op, n1] = .error (.noThirdByte op)) ∧
    (opLength op ≠ 3 → ∃ i r, decode [op, n1] = .ok (i, r)) ∧
    ∃ i r, decode (op :: n1 :: n2 :: rest) = .ok (i, r)

/-- R103: the illegal bytes are the eleven listed ones, and no other first byte decodes to ILLEGAL. -/
def Obligations.IllegalBytesAreTheEleven : Prop :=
  ∀ op n1 n2 x : Byte, decodeOp op n1 n2 = .illegal x ↔
    x = op ∧ op ∈ [0xD3, 0xDB, 0xDD, 0xE3, 0xE4, 0xEB, 0xEC, 0xED, 0xF4, 0xFC, (0xFD : Byte)]

/-- R84, R105: the first byte alone tells the length, 0xCB gives 2, and every length is 1, 2 or 3. -/
def Obligations.LengthFixedByFirstByte : Prop :=
  opLength 0xCB = 2 ∧ ∀ (op : Byte) (more rest : List Byte) (i : Instr), decode (op :: more) = .ok (i, rest) →
    i.length = opLength op ∧ 1 ≤ i.length ∧ i.length ≤ 3 ∧ (op :: more).length = i.length + rest.length

/-- Words written out from R97 to R101, one or more of each family. -/
def Obligations.SpecWordsDecode : Prop :=
  decode [0x48] = .ok (.ldRegReg .c .b, []) ∧ decode [0x2E, 0xFF] = .ok (.ldRegImm .l 0xFF, []) ∧
  decode [0xEA, 0x23, 0xC1] = .ok (.ldMabsA 0xC123, []) ∧ decode [0xF5] = .ok (.push .af, []) ∧
  decode [0xDC, 0x00, 0x40] = .ok (.callCond .c 0x4000, []) ∧ decode [0x38, 0xFC] = .ok (.jrCond .c 0xFC, []) ∧
  decode [0xCF] = .ok (.rst 1, []) ∧ decode [0x9C] = .ok (.sbc (.reg .h), []) ∧
  decode [0xFE, 0x2F] = .ok (.cp (.imm 0x2F), []) ∧ decode [0x19] = .ok (.addHl .de, []) ∧
  decode [0xCB, 0x1E] = .ok (.rr .mhl, []) ∧ decode [0xCB, 0xDE] = .ok (.set 3 .mhl, []) ∧
  decode [0x76] = .ok (.halt, []) ∧ decode [0x10, 0x00] = .ok (.stop 0, []) ∧ decode [0xD3] = .ok (.illegal 0xD3, [])

/-- R81, R96, R108: over the fixed table as descriptors, the step that takes its table as an input is the step; so no
row raises InvalidOperandCombination or MalformedCondition. -/
def Obligations.FixedTableStepIsStep : Prop :=
  (∀ s : State, stepWithTable fixedTable s = step s) ∧
  ∀ (s : State) (pc0 : Word) (bytes : List Byte), s.fault = none →
    step s ≠ .fault (.invalidOperandCombination pc0 bytes) ∧ step s ≠ .fault (.malformedCondition pc0 bytes)

/-- R96, R108, R252: a fetched descriptor whose gate is no condition code raises MalformedCondition; one that no rule
handles raises InvalidOperandCombination; neither makes another access. That the first wins where both hold is the model's
choice (log entry 15). -/
def Obligations.DescriptorFaults : Prop :=
  ∀ (s : State) (desc : Descriptor) (bytes : List Byte) (n1 n2 : Byte),
    ((∃ o, conditionOperand desc = some o ∧ ∀ cc, o ≠ .condition cc) →
      execDescriptor desc bytes n1 n2 s = .fault (.malformedCondition s.pc bytes)) ∧
    ((∀ o, conditionOperand desc = some o → ∃ cc, o = .condition cc) → instrOf desc.mnemonic desc.operands n1 n2 = none →
      execDescriptor desc bytes n1 n2 s = .fault (.invalidOperandCombination s.pc bytes))

/-! ### The step -/

/-- R80, R31: when the bytes at PC decode to `i`, the step is `exec i` and then the delayed-enable step. -/
def Obligations.StepRunsDecodedInstruction : Prop :=
  ∀ (s : State) (i : Instr) (bytes : List Byte), s.Running → decode bytes = .ok (i, []) → BytesAt s s.pc.toNat bytes →
    step s = match exec i s with
      | .next t => .next (if s.eiPending = true ∧ t.eiPending = true then { t with ime := true, eiPending := false } else t)
      | .fault f => .fault f
      | .refused r => .refused r

/-- R80, R241, R242, R250: a latched fault is answered again; a halted or stopped CORE changes nothing. -/
def Obligations.LatchedOrWaitingCoreDoesNothing : Prop :=
  (∀ (s : State) (f : Fault), s.fault = some f → step s = .fault f ∧ executeOne s = (s, .fault f)) ∧
  (∀ s : State, s.fault = none → (s.halted = true ∨ s.stopped = true) →
    step s = .next s ∧ executeOne s = (s, .ok 0))

/-- R53, R80, R256: the step faults at the first of its instruction bytes that has no cell, an illegal opcode byte
before any further fetch. Under Wrap the fault records the reduced address: the model's reading (log entry 14). -/
def Obligations.FetchFaultsInOrder : Prop :=
  ∀ s : State, s.Running →
    (¬ HasCell s s.pc.toNat → step s = .fault (.addressOutOfRange s.pc.toNat s.pc)) ∧
    (HasCell s s.pc.toNat → s.peek s.pc.toNat ∈ illegalBytes →
      step s = .fault (.illegalOpcode s.pc (s.peek s.pc.toNat))) ∧
    (HasCell s s.pc.toNat → opLength (s.peek s.pc.toNat) ≠ 1 → ¬ HasCell s (s.pc.toNat + 1) →
      step s = .fault (.addressOutOfRange (busAddress s.params (s.pc.toNat + 1)) s.pc)) ∧
    (HasCell s s.pc.toNat → opLength (s.peek s.pc.toNat) = 3 → HasCell s (s.pc.toNat + 1) →
      ¬ HasCell s (s.pc.toNat + 2) →
      step s = .fault (.addressOutOfRange (busAddress s.params (s.pc.toNat + 2)) s.pc))

/-- R250: a faulting step changes nothing but the latch, records its own pc0, and is answered by every later step; no
host action but a launch clears the latch. -/
def Obligations.FaultIsAtomicAndSticky : Prop :=
  ∀ (s t : State) (f : Fault), executeOne s = (t, .fault f) →
    t = { s with fault := some f } ∧ (s.fault = none → faultPc f = s.pc) ∧ executeOne t = (t, .fault f) ∧
    ∀ (h : HostAction) (u : State), (∀ p init image, h ≠ .launch p init image) → hostAct h t = .next u →
      u.fault = some f

/-- R83: `Ok(n)` gives the encoded length of the executed instruction, whether or not it branches, 0 exactly while the
CORE is halted or stopped, and no count comes with a fault. -/
def Obligations.BytesConsumedIsTheLength : Prop :=
  ∀ s : State,
    (∀ (t : State) (n : Nat), executeOne s = (t, .ok n) → step s = .next t ∧
      ((s.halted = true ∨ s.stopped = true) ∧ n = 0 ∨
        s.Running ∧ n ∈ [1, 2, 3] ∧ ∃ i, fetchInstr s = .ok i ∧ n = i.length)) ∧
    (∀ f, step s = .fault f → ∀ n, (executeOne s).2 ≠ .ok n)

/-- Every step keeps the invariant: canonical store inside MEM_SIZE cells, F[3:0] = 0, legal parameters. -/
def Obligations.StepKeepsInvariant : Prop :=
  ∀ s t : State, s.Inv → step s = .next t → t.Inv

/-- The reset state meets the invariant and `CleanLaunch` (R282), and its latches are as R30 and R281 say. -/
def Obligations.ResetMeetsInvariant : Prop :=
  State.reset.Inv ∧ CleanLaunch State.reset ∧ State.reset.ime = false ∧ State.reset.params = Params.default

/-- R280, R281, R282: the launch takes every register from INIT, F masked, the cells from the image, the latches clean.
The model's choices: of several entries for one cell the last counts (log entry 12), and a cell that no entry names reads
the byte of log entry 2. -/
def Obligations.LaunchTakesInitAndImage : Prop :=
  ∀ (p : Params) (x : Init) (image : List Host.Cell),
    let s := State.launch p x image
    CleanLaunch s ∧ (p.wf → s.Inv) ∧ s.ime = x.ime ∧ s.params = p ∧ s.sp = x.sp ∧ s.pc = x.pc ∧
    s.r8 .a = x.a ∧ s.f = x.f &&& 0xF0 ∧ s.r8 .b = x.b ∧ s.r8 .c = x.c ∧ s.r8 .d = x.d ∧ s.r8 .e = x.e ∧
    s.r8 .h = x.h ∧ s.r8 .l = x.l ∧
    (∀ (before later : List Host.Cell) (a : Nat) (v : Byte), image = before ++ (a, v) :: later →
      (∀ c ∈ later, c.1 ≠ a) → a < p.memSize → a ≤ 0xFFFF → cell s a = v) ∧
    (∀ a, (∀ c ∈ image, c.1 ≠ a) → cell s a = unlistedByte)

/-- R25, R284: no host action breaks the invariant, if a launch it makes has legal parameters. -/
def Obligations.HostActionsKeepInvariant : Prop :=
  ∀ (h : HostAction) (s t : State), (∀ p x image, h = .launch p x image → p.wf) → s.Inv → hostAct h s = .next t → t.Inv

/-- R80, R254, R285: a step always answers, with a next state or a fault; a next state has no latched fault and the same
parameters. -/
def Obligations.StepAnswersNextOrFault : Prop :=
  ∀ s : State, (∃ f, step s = .fault f) ∨ ∃ t, step s = .next t ∧ t.fault = none ∧ t.params = s.params

/-- R253: with MEM_SIZE = 0x10000 and ADDR_POLICY = Fault, a step faults exactly on an illegal opcode byte, on an
instruction whose bytes run past 0xFFFF, and on LD (a16),SP with a16 = 0xFFFF; the address is then 0x10000. -/
def Obligations.FaultCasesUnderDefaults : Prop :=
  ∀ (s : State) (f : Fault), s.params.memSize = 0x10000 → s.params.addrPolicy = .fault → s.Running →
    let op := s.peek s.pc.toNat
    (step s = .fault f ↔
      (op ∈ illegalBytes ∧ f = .illegalOpcode s.pc op) ∨
      (f = .addressOutOfRange 0x10000 s.pc ∧
        ((opLength op = 2 ∧ s.pc = 0xFFFF) ∨ (opLength op = 3 ∧ (s.pc = 0xFFFE ∨ s.pc = 0xFFFF)) ∨
          (op = 0x08 ∧ s.pc.toNat + 2 ≤ 0xFFFF ∧ s.peek (s.pc.toNat + 1) = 0xFF ∧ s.peek (s.pc.toNat + 2) = 0xFF))))

/-! ### Whole-machine rules over every instruction -/

/-- R12, R63, R256: every instruction but ILLEGAL answers a next state when each of its data and stack accesses has a
cell, and otherwise faults at the first, in access order, that has none. Under Wrap the fault records the reduced address: the
model's reading (log entry 14). -/
def Obligations.ExecCompletesOrFaultsAtFirstAccess : Prop :=
  ∀ (i : Instr) (s : State), (∀ op, i ≠ .illegal op) →
    match (accesses i s).find? (fun a => !inStore s.params a) with
    | some a => exec i s = .fault (.addressOutOfRange (busAddress s.params a) s.pc)
    | none => ∃ t, exec i s = .next t

/-- R23: an instruction changes no 8-bit register but those it writes, and SP only if it writes it. -/
def Obligations.RegisterFrame : Prop :=
  ∀ (i : Instr) (s t : State), exec i s = .next t →
    (∀ r, r ∉ writtenR8 i → t.r8 r = s.r8 r) ∧ (writesSp i s = false → t.sp = s.sp)

/-- R64: an instruction changes no byte of memory but the cells it stores to. -/
def Obligations.MemoryFrame : Prop :=
  ∀ (i : Instr) (s t : State), exec i s = .next t → ∀ a, a ∉ storedCells i s → cell t a = cell s a

/-- R30: halted is written by HALT alone, stopped by STOP alone, IME by DI and RETI, ei_pending by EI and DI, the fault
latch and the parameters by none (the delayed-enable step, which is no instruction, is apart). -/
def Obligations.LatchFrame : Prop :=
  ∀ (i : Instr) (s t : State), exec i s = .next t →
    (i ≠ .halt → t.halted = s.halted) ∧ ((∀ n, i ≠ .stop n) → t.stopped = s.stopped) ∧
    (i ≠ .di → i ≠ .reti → t.ime = s.ime) ∧ (i ≠ .di → i ≠ .ei → t.eiPending = s.eiPending) ∧
    t.fault = s.fault ∧ t.params = s.params

/-- R180: the flag cross-table, row by row, over every instruction; one not listed leaves all of F. -/
def Obligations.FlagTableHolds : Prop :=
  ∀ (i : Instr) (s t : State), exec i s = .next t →
    (flagRow i).1.Holds s.flagZ t.flagZ ∧ (flagRow i).2.1.Holds s.flagN t.flagN ∧
    (flagRow i).2.2.1.Holds s.flagH t.flagH ∧ (flagRow i).2.2.2.Holds s.flagC t.flagC ∧
    (flagRow i = noFlags → t.f = s.f)

/-- R13, R82: an instruction that sets no target, a not-taken conditional among them, leaves PC at
`(pc0 + len) mod 2^16`. -/
def Obligations.PcAdvancesPastInstruction : Prop :=
  ∀ (i : Instr) (s t : State), exec i s = .next t → setsTarget i s = false →
    t.pc.toNat = (s.pc.toNat + i.length) % 2 ^ 16

/-- R31, R169, R243, R244, R289: IME becomes 1 at the end of the instruction after EI, unless that is DI; with no enable
pending, only DI and RETI write IME, and only EI leaves an enable pending. -/
def Obligations.DelayedEnable : Prop :=
  ∀ (s t : State) (i : Instr), s.Running → fetchInstr s = .ok i → step s = .next t →
    (s.eiPending = true → t.eiPending = false ∧ (i = .di → t.ime = false) ∧ (i ≠ .di → t.ime = true)) ∧
    (s.eiPending = false → (t.eiPending = true ↔ i = .ei) ∧ (i = .di → t.ime = false) ∧ (i = .reti → t.ime = true) ∧
      (i ≠ .di → i ≠ .reti → t.ime = s.ime))

/-! ### Registers -/

/-- R25: every write to F and to AF, POP AF, a host write and INIT among them, stores `v & 0xF0` into F; F[3:0] is 0 at
reset, and a launch, a step and a host action keep it 0. -/
def Obligations.LowFlagBitsStayZero : Prop :=
  (∀ (s : State) (v : Byte), (s.setF v).f = v &&& 0xF0 ∧ hostAct (.writeF v) s = .next (s.setF v)) ∧
  (∀ (s : State) (v : Word), hostAct (.writeR16 .af v) s = .next (s.setR16 .af v)) ∧
  (∀ s t : State, exec (.pop .af) s = .next t → t.f = loByte (popValue s) &&& 0xF0) ∧
  (∀ p x image, (State.launch p x image).f = x.f &&& 0xF0) ∧
  (∀ (s : State) (v : Word), (s.setR16 .af v).f = loByte v &&& 0xF0 ∧ (s.setR16 .af v).r8 .a = hiByte v) ∧
  State.reset.flagsLow ∧ (∀ p x image, (State.launch p x image).flagsLow) ∧
  (∀ s t : State, s.flagsLow → step s = .next t → t.flagsLow) ∧
  (∀ (h : HostAction) (s t : State), s.flagsLow → hostAct h s = .next t → t.flagsLow)

/-- R21, R22, R41: the two halves of a pair and the pair are views of one slot; a write of one half keeps the other, and
a write of F is masked (R25). -/
def Obligations.HalvesAreViewsOfPairs : Prop :=
  ∀ (s : State) (v : Byte) (w : Word),
    (∀ r r' : Reg8, (s.setR8 r v).r8 r = v ∧ (r' ≠ r → (s.setR8 r v).r8 r' = s.r8 r') ∧ (s.setR8 r v).f = s.f) ∧
    (s.setR8 .a v).r16 .af = join v s.f ∧ (s.setR8 .b v).r16 .bc = join v (s.r8 .c) ∧
    (s.setR8 .c v).r16 .bc = join (s.r8 .b) v ∧ (s.setR8 .d v).r16 .de = join v (s.r8 .e) ∧
    (s.setR8 .e v).r16 .de = join (s.r8 .d) v ∧ (s.setR8 .h v).r16 .hl = join v (s.r8 .l) ∧
    (s.setR8 .l v).r16 .hl = join (s.r8 .h) v ∧
    (s.setR16 .bc w).r8 .b = hiByte w ∧ (s.setR16 .bc w).r8 .c = loByte w ∧
    (s.setR16 .de w).r8 .d = hiByte w ∧ (s.setR16 .de w).r8 .e = loByte w ∧
    (s.setR16 .hl w).r8 .h = hiByte w ∧ (s.setR16 .hl w).r8 .l = loByte w ∧
    (s.setR16 .af w).r8 .a = hiByte w ∧ (s.setR16 .af w).f = loByte w &&& 0xF0 ∧
    (s.setF v).r16 .af = join (s.r8 .a) (v &&& 0xF0)

/-- R95: the four predicates test bit 7 and bit 4 of F; the byte 0x90 sets Zero and Carry, the byte 0xA0 Zero alone. -/
def Obligations.ConditionTestsOneBit : Prop :=
  (∀ s : State, (cond .nz s = true ↔ s.f.toNat / 128 % 2 = 0) ∧ (cond .z s = true ↔ s.f.toNat / 128 % 2 = 1) ∧
    (cond .nc s = true ↔ s.f.toNat / 16 % 2 = 0) ∧ (cond .c s = true ↔ s.f.toNat / 16 % 2 = 1)) ∧
  (∀ s : State, s.f = 0x90 → cond .z s = true ∧ cond .c s = true) ∧
  (∀ s : State, s.f = 0xA0 → cond .z s = true ∧ cond .c s = false)

/-! ### The bus and the stack -/

/-- R52, R53, R72: the address check, and a byte written is read back while every other cell keeps its byte. That the
fault records the address after the reduction of R53's pseudocode, where R251 says "the unbounded natural computed", is the
model's reading (log entry 14). -/
def Obligations.ByteAccessChecksAndRoundTrips : Prop :=
  ∀ (s : State) (a : Nat) (v : Byte),
    (HasCell s a ↔ (if s.params.addrPolicy = .wrap then a % 2 ^ 16 else a) ≤ 0xFFFF ∧
      (if s.params.addrPolicy = .wrap then a % 2 ^ 16 else a) < s.params.memSize) ∧
    (¬ HasCell s a →
      memRead s a = .error (.addressOutOfRange (if s.params.addrPolicy = .wrap then a % 2 ^ 16 else a) s.pc) ∧
      memWrite s a v = .error (.addressOutOfRange (if s.params.addrPolicy = .wrap then a % 2 ^ 16 else a) s.pc)) ∧
    (HasCell s a → ∃ t, memWrite s a v = .ok t ∧ memRead t a = .ok v ∧
      ∀ b, b ≠ busAddress s.params a → cell t b = cell s b)

/-- R54, R55, R72: a word is low byte first; both addresses are checked before either byte moves; a word written is read
back. Under Wrap the fault records the reduced address: the model's reading (log entry 14). -/
def Obligations.WordAccessIsLittleEndian : Prop :=
  ∀ (s : State) (a : Nat) (v : Word),
    (HasCell s a → HasCell s (a + 1) → memReadWord s a = .ok (join (s.peek (a + 1)) (s.peek a)) ∧
      ∃ t, memWriteWord s a v = .ok t ∧ memRead t a = .ok (loByte v) ∧ memRead t (a + 1) = .ok (hiByte v) ∧
      memReadWord t a = .ok v ∧ SameCellsBut [busAddress s.params a, busAddress s.params (a + 1)] s t) ∧
    (¬ HasCell s a → memWriteWord s a v = .error (.addressOutOfRange (busAddress s.params a) s.pc) ∧
      memReadWord s a = .error (.addressOutOfRange (busAddress s.params a) s.pc)) ∧
    (HasCell s a → ¬ HasCell s (a + 1) →
      memWriteWord s a v = .error (.addressOutOfRange (busAddress s.params (a + 1)) s.pc) ∧
      memReadWord s a = .error (.addressOutOfRange (busAddress s.params (a + 1)) s.pc))

/-- R60: in both modes, as many pops as pushes answer the bytes in reverse order and restore SP, while no cell is pushed
twice; and a popped word is the pushed word. -/
def Obligations.StackIsLastInFirstOut : Prop :=
  (∀ (s t : State) (vs : List Byte), vs.length ≤ 0x10000 → pushAll s vs = .ok t →
    ∃ u, popAll t vs.length = .ok (vs.reverse, u) ∧ u.sp = s.sp ∧ u.mem = t.mem) ∧
  (∀ (s t : State) (v : Word), pushWord s v = .ok t → ∃ u, popWord t = .ok (v, u) ∧ u.sp = s.sp ∧ u.mem = t.mem)

/-- R57, R58, R59: where a pushed word goes and from where a popped word comes, in each mode, whenever the cells are in
the store; SP moves by 2 modulo 2^16 in both. -/
def Obligations.StackCellsByMode : Prop :=
  ∀ (s : State) (v : Word),
    ((∀ a ∈ pushCells s, HasCell s a) → ∃ t, pushWord s v = .ok t ∧ Pushed s t v ∧ SameCellsBut (pushCells s) s t) ∧
    ((∀ a ∈ popCells s, HasCell s a) → ∃ t, popWord s = .ok (popValue s, t) ∧ t = { s with sp := s.sp + 2 })

/-! ### Loads -/

/-- R120, R121, R140, R141: register, immediate and pair loads. -/
def Obligations.RegisterLoadResult : Prop :=
  ∀ (s : State) (dst src : Reg8) (n : Byte) (rr : R16) (w : Word),
    (∃ t, exec (.ldRegReg dst src) s = .next t ∧ t.r8 dst = s.r8 src ∧ (∀ x, x ≠ dst → t.r8 x = s.r8 x) ∧
      t.f = s.f ∧ t.pc = s.pc + 1 ∧ t.sp = s.sp ∧ t.mem = s.mem ∧ SameLatches s t) ∧
    (∃ t, exec (.ldRegImm dst n) s = .next t ∧ t.r8 dst = n ∧ (∀ x, x ≠ dst → t.r8 x = s.r8 x) ∧ t.f = s.f ∧
      t.pc = s.pc + 2 ∧ t.sp = s.sp ∧ t.mem = s.mem ∧ SameLatches s t) ∧
    exec (.ldPairImm rr w) s = .next { s.setR16 (r16Pair rr) w with pc := s.pc + 3 } ∧
    exec .ldSpHl s = .next { s with sp := s.hl, pc := s.pc + 1 }

/-- R122, R125, R126, R133, R135, R137: a load reads the cell its address names, the address formed before the write. -/
def Obligations.MemoryLoadResult : Prop :=
  ∀ (s : State) (dst : Reg8) (w : Word) (n : Byte),
    (HasCell s s.hl.toNat → ∃ t, exec (.ldRegMhl dst) s = .next t ∧ t.r8 dst = cell s s.hl.toNat) ∧
    (HasCell s s.bc.toNat → ∃ t, exec .ldAMbc s = .next t ∧ t.r8 .a = cell s s.bc.toNat) ∧
    (HasCell s s.de.toNat → ∃ t, exec .ldAMde s = .next t ∧ t.r8 .a = cell s s.de.toNat) ∧
    (HasCell s w.toNat → ∃ t, exec (.ldAMabs w) s = .next t ∧ t.r8 .a = cell s w.toNat) ∧
    (HasCell s (0xFF00 + n.toNat) → ∃ t, exec (.ldhAImm n) s = .next t ∧ t.r8 .a = cell s (0xFF00 + n.toNat)) ∧
    (HasCell s (0xFF00 + (s.r8 .c).toNat) →
      ∃ t, exec .ldhAC s = .next t ∧ t.r8 .a = cell s (0xFF00 + (s.r8 .c).toNat))

/-- R123, R124, R127, R128, R134, R136, R138: a store writes the one cell its address names. -/
def Obligations.MemoryStoreResult : Prop :=
  ∀ (s : State) (r : Reg8) (w : Word) (n : Byte),
    (HasCell s s.hl.toNat →
      (∃ t, exec (.ldMhlReg r) s = .next t ∧ cell t s.hl.toNat = s.r8 r ∧ SameCellsBut [s.hl.toNat] s t) ∧
      (∃ t, exec (.ldMhlImm n) s = .next t ∧ cell t s.hl.toNat = n ∧ SameCellsBut [s.hl.toNat] s t)) ∧
    (HasCell s s.bc.toNat →
      ∃ t, exec .ldMbcA s = .next t ∧ cell t s.bc.toNat = s.r8 .a ∧ SameCellsBut [s.bc.toNat] s t) ∧
    (HasCell s s.de.toNat →
      ∃ t, exec .ldMdeA s = .next t ∧ cell t s.de.toNat = s.r8 .a ∧ SameCellsBut [s.de.toNat] s t) ∧
    (HasCell s w.toNat →
      ∃ t, exec (.ldMabsA w) s = .next t ∧ cell t w.toNat = s.r8 .a ∧ SameCellsBut [w.toNat] s t) ∧
    (HasCell s (0xFF00 + n.toNat) → ∃ t, exec (.ldhImmA n) s = .next t ∧ cell t (0xFF00 + n.toNat) = s.r8 .a ∧
      SameCellsBut [0xFF00 + n.toNat] s t) ∧
    (HasCell s (0xFF00 + (s.r8 .c).toNat) → ∃ t, exec .ldhCA s = .next t ∧
      cell t (0xFF00 + (s.r8 .c).toNat) = s.r8 .a ∧ SameCellsBut [0xFF00 + (s.r8 .c).toNat] s t)

/-- R93, R129 to R132: the access at HL first, then HL moves by exactly one, modulo 2^16. -/
def Obligations.AutoIndexResult : Prop :=
  ∀ s : State, HasCell s s.hl.toNat →
    (∃ t, exec .ldAMhlInc s = .next t ∧ t.r8 .a = cell s s.hl.toNat ∧ t.hl.toNat = (s.hl.toNat + 1) % 2 ^ 16 ∧
      t.mem = s.mem) ∧
    (∃ t, exec .ldAMhlDec s = .next t ∧ t.r8 .a = cell s s.hl.toNat ∧ (t.hl.toNat + 1) % 2 ^ 16 = s.hl.toNat ∧
      t.mem = s.mem) ∧
    (∃ t, exec .ldMhlIncA s = .next t ∧ cell t s.hl.toNat = s.r8 .a ∧ t.hl.toNat = (s.hl.toNat + 1) % 2 ^ 16 ∧
      SameCellsBut [s.hl.toNat] s t) ∧
    (∃ t, exec .ldMhlDecA s = .next t ∧ cell t s.hl.toNat = s.r8 .a ∧ (t.hl.toNat + 1) % 2 ^ 16 = s.hl.toNat ∧
      SameCellsBut [s.hl.toNat] s t)

/-- R139: SP goes out as a little-endian word; past 0xFFFF the high byte faults, or wraps to 0x0000 under `Wrap`. -/
def Obligations.StoreStackPointerResult : Prop :=
  ∀ (s : State) (a : Word),
    (HasCell s a.toNat → HasCell s (a.toNat + 1) →
      ∃ t, exec (.ldMabsSp a) s = .next t ∧ cell t a.toNat = loByte s.sp ∧
        cell t (busAddress s.params (a.toNat + 1)) = hiByte s.sp ∧
        SameCellsBut [a.toNat, busAddress s.params (a.toNat + 1)] s t ∧ t.sp = s.sp) ∧
    (HasCell s 0xFFFF → s.params.addrPolicy = .fault →
      exec (.ldMabsSp 0xFFFF) s = .fault (.addressOutOfRange 0x10000 s.pc))

/-- R142, R213, R214: SP plus a signed displacement; Z and N cleared, H and C from the unsigned low byte. -/
def Obligations.StackPointerDisplacementResult : Prop :=
  ∀ (s : State) (e : Byte),
    let h := decide (s.sp.toNat % 16 + e.toNat % 16 > 0x0F)
    let c := decide (s.sp.toNat % 256 + e.toNat > 0xFF)
    (∃ t, exec (.ldHlSpE8 e) s = .next t ∧ t.hl = s.sp + sext16 e ∧ t.sp = s.sp ∧ FlagsAre t false false h c) ∧
    (∃ t, exec (.addSpE8 e) s = .next t ∧ t.sp = s.sp + sext16 e ∧ t.hl = s.hl ∧ FlagsAre t false false h c)

/-- R143, R144, R145: PUSH and POP of the four pairs; POP AF discards the low four bits. -/
def Obligations.PushAndPopResult : Prop :=
  ∀ (s : State) (rr : R16Stk),
    ((∀ a ∈ pushCells s, HasCell s a) → ∃ t, exec (.push rr) s = .next t ∧ Pushed s t (s.r16 (stkPair rr)) ∧
      SameRegisters s t ∧ SameCellsBut (pushCells s) s t) ∧
    ((∀ a ∈ popCells s, HasCell s a) → ∃ t, exec (.pop rr) s = .next t ∧
      t.r16 (stkPair rr) = (if rr = .af then popValue s &&& 0xFFF0 else popValue s) ∧ t.sp = s.sp + 2 ∧ t.mem = s.mem)

/-! ### Control transfer -/

/-- R160 to R164: jumps write PC and nothing else; the relative base is the address of the next instruction. -/
def Obligations.JumpResult : Prop :=
  ∀ (s : State) (cc : Cond) (a : Word) (e : Byte),
    exec (.jp a) s = .next { s with pc := a } ∧
    exec (.jpCond cc a) s = .next { s with pc := if cond cc s then a else s.pc + 3 } ∧
    exec .jpHl s = .next { s with pc := s.hl } ∧
    (∃ t, exec (.jr e) s = .next t ∧ t = { s with pc := t.pc } ∧
      (t.pc.toNat : Int) = (s.pc.toNat + 2 + e.toInt) % 2 ^ 16) ∧
    (∃ t, exec (.jrCond cc e) s = .next t ∧ t = { s with pc := t.pc } ∧
      (t.pc.toNat : Int) = (s.pc.toNat + 2 + (if cond cc s then e.toInt else 0)) % 2 ^ 16)

/-- R165, R166, R170: a call pushes the address of the next instruction, then sets the target; a call not taken touches
neither SP nor memory. -/
def Obligations.CallResult : Prop :=
  ∀ (s : State) (cc : Cond) (a : Word) (y : BitVec 3),
    ((∀ x ∈ pushCells s, HasCell s x) →
      (∃ t, exec (.call a) s = .next t ∧ t.pc = a ∧ Pushed s t (s.pc + 3) ∧ SameRegisters s t ∧
        SameCellsBut (pushCells s) s t) ∧
      (cond cc s = true → ∃ t, exec (.callCond cc a) s = .next t ∧ t.pc = a ∧ Pushed s t (s.pc + 3) ∧
        SameRegisters s t ∧ SameCellsBut (pushCells s) s t) ∧
      (∃ t, exec (.rst y) s = .next t ∧ t.pc.toNat = 8 * y.toNat ∧ Pushed s t (s.pc + 1) ∧ SameRegisters s t ∧
        SameCellsBut (pushCells s) s t)) ∧
    (cond cc s = false → exec (.callCond cc a) s = .next { s with pc := s.pc + 3 })

/-- R167, R168, R169: a return pops PC; RETI also sets IME at once; a return not taken leaves SP. -/
def Obligations.ReturnResult : Prop :=
  ∀ (s : State) (cc : Cond),
    ((∀ x ∈ popCells s, HasCell s x) →
      exec .ret s = .next { s with pc := popValue s, sp := s.sp + 2 } ∧
      (cond cc s = true → exec (.retCond cc) s = .next { s with pc := popValue s, sp := s.sp + 2 }) ∧
      exec .reti s = .next { s with pc := popValue s, sp := s.sp + 2, ime := true }) ∧
    (cond cc s = false → exec (.retCond cc) s = .next { s with pc := s.pc + 1 })

/-- R171: a taken CALL whose first target instruction is RET comes back to the address after the CALL with SP restored,
in both stack modes; so does RST, one byte long. -/
def Obligations.CallThenReturn : Prop :=
  ∀ (s t : State) (i : Instr), s.Running → fetchInstr s = .ok i →
    ((∃ a, i = .call a) ∨ (∃ cc a, i = .callCond cc a ∧ cond cc s = true) ∨ (∃ y, i = .rst y)) →
    step s = .next t → fetchInstr t = .ok .ret →
    ∃ u, step t = .next u ∧ u.pc.toNat = (s.pc.toNat + i.length) % 2 ^ 16 ∧ u.sp = s.sp

/-! ### 8-bit arithmetic and logic -/

/-- R181, R182, R183: the sum modulo 256, H out of bit 3, C out of bit 7. -/
def Obligations.AdditionResult : Prop :=
  ∀ (s : State) (src : Src8) (v : Byte), SrcReads src s v →
    let a := (s.r8 .a).toNat
    let c := s.flagC.toNat
    (∃ t, exec (.add src) s = .next t ∧ (t.r8 .a).toNat = (a + v.toNat) % 256 ∧
      FlagsAre t (t.r8 .a == 0) false (decide (a % 16 + v.toNat % 16 > 15)) (decide (a + v.toNat > 255))) ∧
    (∃ t, exec (.adc src) s = .next t ∧ (t.r8 .a).toNat = (a + v.toNat + c) % 256 ∧
      FlagsAre t (t.r8 .a == 0) false (decide (a % 16 + v.toNat % 16 + c > 15)) (decide (a + v.toNat + c > 255)))

/-- R181, R184, R185, R189: the difference modulo 256, H and C as borrows; CP writes the flags alone. -/
def Obligations.SubtractionResult : Prop :=
  ∀ (s : State) (src : Src8) (v : Byte), SrcReads src s v →
    let a := (s.r8 .a).toNat
    let c := s.flagC.toNat
    (∃ t, exec (.sub src) s = .next t ∧ ((t.r8 .a).toNat : Int) = ((a : Int) - v.toNat) % 256 ∧
      FlagsAre t (t.r8 .a == 0) true (decide (a % 16 < v.toNat % 16)) (decide (a < v.toNat))) ∧
    (∃ t, exec (.sbc src) s = .next t ∧ ((t.r8 .a).toNat : Int) = ((a : Int) - v.toNat - c) % 256 ∧
      FlagsAre t (t.r8 .a == 0) true (decide (a % 16 < v.toNat % 16 + c)) (decide (a < v.toNat + c))) ∧
    (∃ t, exec (.cp src) s = .next t ∧ t.r8 .a = s.r8 .a ∧
      FlagsAre t (decide (a = v.toNat)) true (decide (a % 16 < v.toNat % 16)) (decide (a < v.toNat)))

/-- R186, R187, R188: bitwise results; AND sets H, the others clear it; C is cleared. -/
def Obligations.LogicResult : Prop :=
  ∀ (s : State) (src : Src8) (v : Byte), SrcReads src s v →
    (∃ t, exec (.and src) s = .next t ∧ t.r8 .a = s.r8 .a &&& v ∧ FlagsAre t (t.r8 .a == 0) false true false) ∧
    (∃ t, exec (.xor src) s = .next t ∧ t.r8 .a = s.r8 .a ^^^ v ∧ FlagsAre t (t.r8 .a == 0) false false false) ∧
    (∃ t, exec (.or src) s = .next t ∧ t.r8 .a = s.r8 .a ||| v ∧ FlagsAre t (t.r8 .a == 0) false false false)

/-- R190 to R193: increment and decrement of a register or of (HL); C is kept. -/
def Obligations.IncrementDecrementResult : Prop :=
  ∀ (s : State) (r : Reg8),
    (∃ t, exec (.incReg r) s = .next t ∧ (t.r8 r).toNat = ((s.r8 r).toNat + 1) % 256 ∧
      FlagsAre t (decide ((s.r8 r).toNat = 0xFF)) false (decide ((s.r8 r).toNat % 16 = 0x0F)) s.flagC) ∧
    (∃ t, exec (.decReg r) s = .next t ∧ ((t.r8 r).toNat + 1) % 256 = (s.r8 r).toNat ∧
      FlagsAre t (decide ((s.r8 r).toNat = 1)) true (decide ((s.r8 r).toNat % 16 = 0)) s.flagC) ∧
    (HasCell s s.hl.toNat →
      (∃ t, exec .incMhl s = .next t ∧ (cell t s.hl.toNat).toNat = ((cell s s.hl.toNat).toNat + 1) % 256 ∧
        FlagsAre t (decide ((cell s s.hl.toNat).toNat = 0xFF)) false
          (decide ((cell s s.hl.toNat).toNat % 16 = 0x0F)) s.flagC) ∧
      (∃ t, exec .decMhl s = .next t ∧ ((cell t s.hl.toNat).toNat + 1) % 256 = (cell s s.hl.toNat).toNat ∧
        FlagsAre t (decide ((cell s s.hl.toNat).toNat = 1)) true
          (decide ((cell s s.hl.toNat).toNat % 16 = 0)) s.flagC))

/-- R194 to R197: accumulator rotates, bit by bit; Z, N and H cleared whatever the result. -/
def Obligations.AccumulatorRotateResult : Prop :=
  ∀ s : State,
    let a := s.r8 .a
    (∃ t, exec .rlca s = .next t ∧ ShiftedUp (t.r8 .a) a (a.getLsbD 7) ∧ FlagsAre t false false false (a.getLsbD 7)) ∧
    (∃ t, exec .rrca s = .next t ∧ ShiftedDown (t.r8 .a) a (a.getLsbD 0) ∧
      FlagsAre t false false false (a.getLsbD 0)) ∧
    (∃ t, exec .rla s = .next t ∧ ShiftedUp (t.r8 .a) a s.flagC ∧ FlagsAre t false false false (a.getLsbD 7)) ∧
    (∃ t, exec .rra s = .next t ∧ ShiftedDown (t.r8 .a) a s.flagC ∧ FlagsAre t false false false (a.getLsbD 0))

/-- R198: the decimal adjustment, for every A and every flag combination. -/
def Obligations.DecimalAdjustResult : Prop :=
  ∀ s : State, ∃ t, exec .daa s = .next t ∧
    let a := (s.r8 .a).toNat
    let adj := decimalAdjustment a s.flagN s.flagH s.flagC
    (s.flagN = false → (t.r8 .a).toNat = (a + adj) % 256) ∧ (s.flagN = true → ((t.r8 .a).toNat + adj) % 256 = a) ∧
    FlagsAre t (t.r8 .a == 0) s.flagN false (s.flagC || (!s.flagN && decide (a > 0x99)))

/-- Derived from R182 and R198: ADD of two-digit decimals and then DAA is decimal addition, with the hundred in C. -/
def Obligations.DecimalAddition : Prop :=
  ∀ (s : State) (x y : Nat), x < 100 → y < 100 → s.r8 .a = bcd x →
    ∃ t u, exec (.add (.imm (bcd y))) s = .next t ∧ exec .daa t = .next u ∧ u.r8 .a = bcd ((x + y) % 100) ∧
      u.flagC = decide (x + y ≥ 100) ∧ u.flagZ = decide ((x + y) % 100 = 0)

/-- R199, R200, R201. -/
def Obligations.ComplementAndCarryResult : Prop :=
  ∀ s : State,
    (∃ t, exec .cpl s = .next t ∧ (t.r8 .a).toNat = 255 - (s.r8 .a).toNat ∧ FlagsAre t s.flagZ true true s.flagC) ∧
    (∃ t, exec .scf s = .next t ∧ t.r8 .a = s.r8 .a ∧ FlagsAre t s.flagZ false false true) ∧
    (∃ t, exec .ccf s = .next t ∧ t.r8 .a = s.r8 .a ∧ FlagsAre t s.flagZ false false (!s.flagC))

/-! ### 16-bit arithmetic -/

/-- R210, R211, R212: ADD HL keeps Z and takes H from bit 11 and C from bit 15; INC and DEC of a pair write no flag. -/
def Obligations.PairArithmeticResult : Prop :=
  ∀ (s : State) (rr : R16),
    let x := (s.r16 (r16Pair rr)).toNat
    (∃ t, exec (.addHl rr) s = .next t ∧ t.hl.toNat = (s.hl.toNat + x) % 2 ^ 16 ∧
      FlagsAre t s.flagZ false (decide (s.hl.toNat % 4096 + x % 4096 > 0x0FFF)) (decide (s.hl.toNat + x > 0xFFFF))) ∧
    (∃ t, exec (.incPair rr) s = .next t ∧ (t.r16 (r16Pair rr)).toNat = (x + 1) % 2 ^ 16 ∧ t.f = s.f) ∧
    (∃ t, exec (.decPair rr) s = .next t ∧ ((t.r16 (r16Pair rr)).toNat + 1) % 2 ^ 16 = x ∧ t.f = s.f)

/-! ### 0xCB-prefixed instructions -/

/-- R221 to R228: rotates, shifts and SWAP of a register or of (HL), bit by bit; Z is computed from the result. -/
def Obligations.ShiftResult : Prop :=
  ∀ (s : State) (x : RM8) (v : Byte), RmReads x s v →
    (∃ t r, exec (.rlc x) s = .next t ∧ RmHolds x s t r ∧ ShiftedUp r v (v.getLsbD 7) ∧
      FlagsAre t (r == 0) false false (v.getLsbD 7)) ∧
    (∃ t r, exec (.rrc x) s = .next t ∧ RmHolds x s t r ∧ ShiftedDown r v (v.getLsbD 0) ∧
      FlagsAre t (r == 0) false false (v.getLsbD 0)) ∧
    (∃ t r, exec (.rl x) s = .next t ∧ RmHolds x s t r ∧ ShiftedUp r v s.flagC ∧
      FlagsAre t (r == 0) false false (v.getLsbD 7)) ∧
    (∃ t r, exec (.rr x) s = .next t ∧ RmHolds x s t r ∧ ShiftedDown r v s.flagC ∧
      FlagsAre t (r == 0) false false (v.getLsbD 0)) ∧
    (∃ t r, exec (.sla x) s = .next t ∧ RmHolds x s t r ∧ ShiftedUp r v false ∧
      FlagsAre t (r == 0) false false (v.getLsbD 7)) ∧
    (∃ t r, exec (.sra x) s = .next t ∧ RmHolds x s t r ∧ ShiftedDown r v (v.getLsbD 7) ∧
      FlagsAre t (r == 0) false false (v.getLsbD 0)) ∧
    (∃ t r, exec (.srl x) s = .next t ∧ RmHolds x s t r ∧ ShiftedDown r v false ∧
      FlagsAre t (r == 0) false false (v.getLsbD 0)) ∧
    (∃ t r, exec (.swap x) s = .next t ∧ RmHolds x s t r ∧ (∀ k, k < 8 → r.getLsbD k = v.getLsbD ((k + 4) % 8)) ∧
      FlagsAre t (r == 0) false false false)

/-- R229, R230, R231: BIT tests and writes nothing but flags and PC; RES and SET write one bit and no flag. -/
def Obligations.BitOperationResult : Prop :=
  ∀ (s : State) (b : BitVec 3) (x : RM8) (v : Byte), RmReads x s v →
    (∃ t, exec (.bit b x) s = .next t ∧ RmHolds x s t v ∧ t.mem = s.mem ∧ (∀ r, t.r8 r = s.r8 r) ∧ t.sp = s.sp ∧
      SameLatches s t ∧ t.pc = s.pc + 2 ∧ FlagsAre t (!v.getLsbD b.toNat) false true s.flagC) ∧
    (∃ t r, exec (.res b x) s = .next t ∧ RmHolds x s t r ∧ t.f = s.f ∧
      ∀ k, k < 8 → r.getLsbD k = (v.getLsbD k && decide (k ≠ b.toNat))) ∧
    (∃ t r, exec (.set b x) s = .next t ∧ RmHolds x s t r ∧ t.f = s.f ∧
      ∀ k, k < 8 → r.getLsbD k = (v.getLsbD k || decide (k = b.toNat)))

/-! ### System instructions -/

/-- R240 to R244: the whole next state of each. -/
def Obligations.SystemInstructionResult : Prop :=
  ∀ (s : State) (n : Byte),
    exec .nop s = .next { s with pc := s.pc + 1 } ∧ exec .halt s = .next { s with pc := s.pc + 1, halted := true } ∧
    exec (.stop n) s = .next { s with pc := s.pc + 2, stopped := true } ∧
    exec .di s = .next { s with pc := s.pc + 1, ime := false, eiPending := false } ∧
    exec .ei s = .next { s with pc := s.pc + 1, eiPending := true }

/-- R245: each of the eleven bytes raises IllegalOpcode with `(pc0, op)`, in every state that fetches it. -/
def Obligations.IllegalOpcodeFaults : Prop :=
  (∀ (s : State) (op : Byte), exec (.illegal op) s = .fault (.illegalOpcode s.pc op)) ∧
  ∀ s : State, s.Running → HasCell s s.pc.toNat →
    s.peek s.pc.toNat ∈ [0xD3, 0xDB, 0xDD, 0xE3, 0xE4, 0xEB, 0xEC, 0xED, 0xF4, 0xFC, (0xFD : Byte)] →
    executeOne s = ({ s with fault := some (.illegalOpcode s.pc (s.peek s.pc.toNat)) },
      .fault (.illegalOpcode s.pc (s.peek s.pc.toNat)))

/-! ### Interrupts and the host -/

/-- R263: entry pushes PC, clears IME, ei_pending and halted and jumps to the vector; nothing else changes. A push with no
cell faults with pc0 the current PC. -/
def Obligations.InterruptEntryResult : Prop :=
  ∀ (s : State) (i : InterruptSource), s.fault = none → s.ime = true →
    ((∀ a ∈ pushCells s, HasCell s a) → ∃ t, hostAct (.enterInterrupt i) s = .next t ∧ Pushed s t s.pc ∧
      t.pc.toNat = (match i with | .vblank => 0x40 | .lcdStat => 0x48 | .timer => 0x50 | .serial => 0x58 | .joypad => 0x60) ∧
      t.ime = false ∧ t.eiPending = false ∧ t.halted = false ∧ t.stopped = s.stopped ∧ t.fault = none ∧
      t.params = s.params ∧ SameRegisters s t ∧ SameCellsBut (pushCells s) s t) ∧
    (∀ a, (pushCells s).find? (fun x => !inStore s.params x) = some a →
      hostAct (.enterInterrupt i) s = .fault (.addressOutOfRange a s.pc))

/-- R265: an entry and then RETI restore PC, SP and IME; no register and no further cell changes. -/
def Obligations.EntryThenReturn : Prop :=
  ∀ (s t : State) (i : InterruptSource), hostAct (.enterInterrupt i) s = .next t →
    ∃ u, exec .reti t = .next u ∧ u.pc = s.pc ∧ u.sp = s.sp ∧ u.ime = true ∧ SameRegisters s u ∧ u.mem = t.mem

/-- R262, R267 (I11): the model has no entry while IME = 0 or while a fault is latched. R264: the wake input clears
halted and stopped, and nothing else changes. -/
def Obligations.EntryConditionsAndWake : Prop :=
  ∀ (s : State) (i : InterruptSource),
    hostAct .wake s = .next { s with halted := false, stopped := false } ∧
    (s.fault = none → s.ime = false → hostAct (.enterInterrupt i) s = .refused .entryWhileMasked) ∧
    (∀ f, s.fault = some f → hostAct (.enterInterrupt i) s = .refused .entryWhileFaulted)
end

