-- ==== Sys2Proof/Laws/Memory.lean ====
section
/-! SUPPORT. The laws of the store: a read after a write, a write leaves every other cell alone, every operation keeps
the canonical form, and two stores in canonical form that read alike are equal. -/

namespace Sys2Proof.Machine

open Sys2Proof

/-! ### Read after write -/

theorem Memory.get_erase_same (m : Memory) (a : Nat) : Memory.get (Memory.erase m a) a = unlistedByte := by
  induction m with
  | nil => rfl
  | cons c rest ih =>
    by_cases h : c.1 = a
    · simpa [Memory.erase, h] using ih
    · simpa [Memory.erase, h, Memory.get] using ih

theorem Memory.get_erase_other (m : Memory) {a b : Nat} (h : b ≠ a) :
    Memory.get (Memory.erase m a) b = Memory.get m b := by
  induction m with
  | nil => rfl
  | cons c rest ih =>
    by_cases hc : c.1 = a
    · simpa [Memory.erase, hc, Memory.get, Ne.symm h] using ih
    · by_cases hb : c.1 = b
      · simp [Memory.erase, Memory.get, hb, h]
      · simpa [Memory.erase, hc, Memory.get, hb] using ih

theorem Memory.get_insert_same (m : Memory) (a : Nat) (v : Byte) (h : ∀ c ∈ m, c.1 ≠ a) :
    Memory.get (Memory.insert m a v) a = v := by
  induction m with
  | nil => simp [Memory.insert, Memory.get]
  | cons c rest ih =>
    have hc : c.1 ≠ a := h c (by simp)
    have hr := ih fun d hd => h d (by simp [hd])
    by_cases hlt : a < c.1 <;> simp [Memory.insert, hlt, Memory.get, hc, hr]

theorem Memory.get_insert_other (m : Memory) {a b : Nat} (v : Byte) (h : b ≠ a) :
    Memory.get (Memory.insert m a v) b = Memory.get m b := by
  induction m with
  | nil => simp [Memory.insert, Memory.get, Ne.symm h]
  | cons c rest ih =>
    by_cases hlt : a < c.1
    · simp [Memory.insert, hlt, Memory.get, Ne.symm h]
    · simp [Memory.insert, hlt, Memory.get, ih]

theorem Memory.erase_no_entry (m : Memory) (a : Nat) : ∀ c ∈ Memory.erase m a, c.1 ≠ a := by
  intro c hc
  simpa using (List.mem_filter.mp hc).2

@[simp] theorem Memory.get_set_same (m : Memory) (a : Nat) (v : Byte) : Memory.get (Memory.set m a v) a = v := by
  unfold Memory.set
  split
  · rename_i h
    rw [Memory.get_erase_same, h]
  · exact Memory.get_insert_same _ a v (Memory.erase_no_entry m a)

theorem Memory.get_set_other (m : Memory) {a b : Nat} (v : Byte) (h : b ≠ a) :
    Memory.get (Memory.set m a v) b = Memory.get m b := by
  unfold Memory.set
  split
  · exact Memory.get_erase_other m h
  · rw [Memory.get_insert_other _ v h, Memory.get_erase_other m h]

/-! ### The canonical form -/

theorem Memory.mem_insert (m : Memory) (a : Nat) (v : Byte) (c : Host.Cell) :
    c ∈ Memory.insert m a v ↔ c = (a, v) ∨ c ∈ m := by
  induction m with
  | nil => simp [Memory.insert]
  | cons d rest ih =>
    by_cases hlt : a < d.1
    · simp [Memory.insert, hlt]
    · simp only [Memory.insert, hlt, if_false, List.mem_cons, ih]
      tauto

theorem Memory.wf_erase {m : Memory} (h : Memory.wf m) (a : Nat) : Memory.wf (Memory.erase m a) :=
  ⟨h.1.filter _, fun c hc => h.2 c (List.mem_filter.mp hc).1⟩

theorem Memory.wf_insert {m : Memory} (h : Memory.wf m) {a : Nat} (ha : ∀ c ∈ m, c.1 ≠ a) {v : Byte}
    (hv : v ≠ unlistedByte) : Memory.wf (Memory.insert m a v) := by
  refine ⟨?_, fun c hc => ?_⟩
  · induction m with
    | nil => simp [Memory.insert]
    | cons d rest ih =>
      have hp := List.pairwise_cons.mp h.1
      have hr : Memory.wf rest := ⟨hp.2, fun c hc => h.2 c (by simp [hc])⟩
      have hd : d.1 ≠ a := ha d (by simp)
      by_cases hlt : a < d.1
      · simp only [Memory.insert, hlt, if_true, List.pairwise_cons]
        refine ⟨fun c hc => ?_, hp⟩
        rcases List.mem_cons.mp hc with rfl | hc
        · exact hlt
        · exact Nat.lt_trans hlt (hp.1 c hc)
      · simp only [Memory.insert, hlt, if_false, List.pairwise_cons]
        refine ⟨fun c hc => ?_, ih hr fun c hc => ha c (by simp [hc])⟩
        rcases (Memory.mem_insert rest a v c).mp hc with rfl | hc
        · exact Nat.lt_of_le_of_ne (Nat.le_of_not_lt hlt) hd
        · exact hp.1 c hc
  · rcases (Memory.mem_insert m a v c).mp hc with rfl | hc
    · exact hv
    · exact h.2 c hc

/-- A write keeps the canonical form. -/
theorem Memory.wf_set {m : Memory} (h : Memory.wf m) (a : Nat) (v : Byte) : Memory.wf (Memory.set m a v) := by
  unfold Memory.set
  split
  · exact Memory.wf_erase h a
  · rename_i hv
    exact Memory.wf_insert (Memory.wf_erase h a) (Memory.erase_no_entry m a) hv

/-- A write to a cell of the store lists no cell outside it. -/
theorem Memory.within_set {m : Memory} {n : Nat} (h : Memory.within m n) {a : Nat} (ha : a < n ∧ a ≤ 0xFFFF) (v : Byte) :
    Memory.within (Memory.set m a v) n := by
  intro c hc
  unfold Memory.set at hc
  split at hc
  · exact h c (List.mem_filter.mp hc).1
  · rcases (Memory.mem_insert _ a v c).mp hc with rfl | hc
    · exact ha
    · exact h c (List.mem_filter.mp hc).1

theorem loadImage_wf_within (n : Nat) (image : List Host.Cell) :
    Memory.wf (loadImage n image) ∧ Memory.within (loadImage n image) n := by
  have key : ∀ (l : List Host.Cell) (m : Memory), Memory.wf m ∧ Memory.within m n →
      Memory.wf (l.foldl (fun m c => if c.1 < n ∧ c.1 ≤ 0xFFFF then Memory.set m c.1 c.2 else m) m) ∧
      Memory.within (l.foldl (fun m c => if c.1 < n ∧ c.1 ≤ 0xFFFF then Memory.set m c.1 c.2 else m) m) n := by
    intro l
    induction l with
    | nil => exact fun m h => h
    | cons c rest ih =>
      intro m h
      simp only [List.foldl_cons]
      apply ih
      split
      · rename_i hc
        exact ⟨Memory.wf_set h.1 c.1 c.2, Memory.within_set h.2 hc c.2⟩
      · exact h
  exact key image [] ⟨⟨List.Pairwise.nil, by simp⟩, by simp [Memory.within]⟩

/-- Entries of an image for other cells leave a cell's byte. -/
theorem foldImage_get_other {n : Nat} {image : List Host.Cell} {a : Nat} (h : ∀ c ∈ image, c.1 ≠ a) (m : Memory) :
    Memory.get (image.foldl (fun m c => if c.1 < n ∧ c.1 ≤ 0xFFFF then Memory.set m c.1 c.2 else m) m) a =
      Memory.get m a := by
  induction image generalizing m with
  | nil => rfl
  | cons c rest ih =>
    rw [List.foldl_cons, ih fun d hd => h d (List.mem_cons_of_mem _ hd)]
    split
    · exact Memory.get_set_other m c.2 (h c List.mem_cons_self).symm
    · rfl

/-- A cell that no entry of the image names (log entry 2). -/
theorem loadImage_get_unlisted (n : Nat) {image : List Host.Cell} {a : Nat} (h : ∀ c ∈ image, c.1 ≠ a) :
    Memory.get (loadImage n image) a = unlistedByte :=
  foldImage_get_other h []

/-- The last entry of the image for a cell of the store gives the cell's byte (log entry 12). -/
theorem loadImage_get_last {n a : Nat} (hn : a < n) (ha : a ≤ 0xFFFF) (before : List Host.Cell) (v : Byte)
    {later : List Host.Cell} (h : ∀ c ∈ later, c.1 ≠ a) :
    Memory.get (loadImage n (before ++ (a, v) :: later)) a = v := by
  rw [loadImage, List.foldl_append, List.foldl_cons, foldImage_get_other h, if_pos ⟨hn, ha⟩, Memory.get_set_same]

/-! ### Equal reads, equal stores -/

theorem Memory.get_lt_head {c : Host.Cell} {rest : Memory} (h : Memory.wf (c :: rest)) {a : Nat} (ha : a < c.1) :
    Memory.get (c :: rest) a = unlistedByte := by
  have none_of : ∀ m : Memory, (∀ d ∈ m, a < d.1) → Memory.get m a = unlistedByte := by
    intro m
    induction m with
    | nil => exact fun _ => rfl
    | cons d t ih =>
      intro hd
      have h1 := hd d (by simp)
      simp [Memory.get, Nat.ne_of_gt h1, ih fun e he => hd e (by simp [he])]
  refine none_of _ fun d hd => ?_
  rcases List.mem_cons.mp hd with rfl | hd
  · exact ha
  · exact Nat.lt_trans ha ((List.pairwise_cons.mp h.1).1 d hd)

theorem Memory.wf_tail {c : Host.Cell} {rest : Memory} (h : Memory.wf (c :: rest)) : Memory.wf rest :=
  ⟨(List.pairwise_cons.mp h.1).2, fun d hd => h.2 d (by simp [hd])⟩

theorem Memory.get_head (c : Host.Cell) (rest : Memory) : Memory.get (c :: rest) c.1 = c.2 := by simp [Memory.get]

theorem Memory.get_tail {c : Host.Cell} {rest : Memory} {a : Nat} (ha : c.1 ≠ a) :
    Memory.get (c :: rest) a = Memory.get rest a := by simp [Memory.get, ha]

theorem Memory.get_tail_head {c : Host.Cell} {rest : Memory} (h : Memory.wf (c :: rest)) :
    Memory.get rest c.1 = unlistedByte := by
  cases rest with
  | nil => rfl
  | cons d t => exact Memory.get_lt_head (Memory.wf_tail h) ((List.pairwise_cons.mp h.1).1 d (by simp))

/-- Two stores in canonical form that read alike everywhere are equal data. -/
theorem Memory.ext {m n : Memory} (hm : Memory.wf m) (hn : Memory.wf n) (h : ∀ a, Memory.get m a = Memory.get n a) :
    m = n := by
  induction m generalizing n with
  | nil =>
    cases n with
    | nil => rfl
    | cons d t => exact absurd ((Memory.get_head d t).symm.trans (h d.1).symm) (hn.2 d (by simp))
  | cons c rest ih =>
    cases n with
    | nil => exact absurd ((Memory.get_head c rest).symm.trans (h c.1)) (hm.2 c (by simp))
    | cons d t =>
      have hcd : c.1 = d.1 := by
        rcases Nat.lt_trichotomy c.1 d.1 with hlt | heq | hgt
        · have := h c.1
          rw [Memory.get_head, Memory.get_lt_head hn hlt] at this
          exact absurd this (hm.2 c (by simp))
        · exact heq
        · have := h d.1
          rw [Memory.get_head, Memory.get_lt_head hm hgt] at this
          exact absurd this.symm (hn.2 d (by simp))
      have hv : c.2 = d.2 := by
        have := h c.1
        rw [Memory.get_head, hcd, Memory.get_head] at this
        exact this
      have htail : rest = t := by
        refine ih (Memory.wf_tail hm) (Memory.wf_tail hn) fun a => ?_
        by_cases ha : c.1 = a
        · rw [← ha, Memory.get_tail_head hm, hcd, Memory.get_tail_head hn]
        · have hd : d.1 ≠ a := fun e => ha (hcd.trans e)
          exact (Memory.get_tail ha).symm.trans ((h a).trans (Memory.get_tail hd))
      rw [Prod.ext hcd hv, htail]

end Sys2Proof.Machine
end

