-- ==== Sys2Proof/Laws/State.lean ====
section
/-! SUPPORT. The small lemmas of the state's updates: each field after each update, each accessor after each update, so
that no later proof unfolds a record update. -/

namespace Sys2Proof.Machine

open Sys2Proof

/-! ### Bytes and words -/

@[simp] theorem hiByte_join (hi lo : Byte) : hiByte (join hi lo) = hi := by
  ext i hi'
  simp only [hiByte, join, BitVec.getElem_extractLsb', BitVec.getLsbD_append]
  simp [show ¬ 8 + i < 8 by omega, BitVec.getElem_eq_testBit_toNat, BitVec.getLsbD]

@[simp] theorem loByte_join (hi lo : Byte) : loByte (join hi lo) = lo := by
  ext i hi'
  simp only [loByte, join, BitVec.getElem_extractLsb', BitVec.getLsbD_append]
  simp [hi', BitVec.getElem_eq_testBit_toNat, BitVec.getLsbD]

@[simp] theorem join_halves (w : Word) : join (hiByte w) (loByte w) = w := by
  apply BitVec.eq_of_toNat_eq
  have h := w.isLt
  simp only [hiByte, join, loByte, BitVec.toNat_append, BitVec.extractLsb'_toNat]
  rw [← Nat.shiftLeft_add_eq_or_of_lt (by omega)]
  simp only [Nat.shiftLeft_eq, Nat.shiftRight_eq_div_pow]
  omega

/-- `H ++ L` is `H*256 + L` (R9). -/
theorem toNat_join (hi lo : Byte) : (join hi lo).toNat = hi.toNat * 256 + lo.toNat := by
  simp only [join, BitVec.toNat_append]
  rw [← Nat.shiftLeft_add_eq_or_of_lt lo.isLt]
  simp [Nat.shiftLeft_eq]

theorem toNat_hiByte (w : Word) : (hiByte w).toNat = w.toNat / 256 := by
  have h := w.isLt
  simp only [hiByte, BitVec.extractLsb'_toNat, Nat.shiftRight_eq_div_pow]
  omega

theorem toNat_loByte (w : Word) : (loByte w).toNat = w.toNat % 256 := by
  simp [loByte, BitVec.extractLsb'_toNat]

theorem join_inj {hi lo hi' lo' : Byte} (h : join hi lo = join hi' lo') : hi = hi' ∧ lo = lo' :=
  ⟨by simpa using congrArg hiByte h, by simpa using congrArg loByte h⟩

/-! ### Each field after each update -/

@[simp] theorem State.setR8_sp (s : State) (r : Reg8) (v : Byte) : (s.setR8 r v).sp = s.sp := by cases r <;> rfl
@[simp] theorem State.setR8_pc (s : State) (r : Reg8) (v : Byte) : (s.setR8 r v).pc = s.pc := by cases r <;> rfl
@[simp] theorem State.setR8_ime (s : State) (r : Reg8) (v : Byte) : (s.setR8 r v).ime = s.ime := by cases r <;> rfl
@[simp] theorem State.setR8_eiPending (s : State) (r : Reg8) (v : Byte) : (s.setR8 r v).eiPending = s.eiPending := by cases r <;> rfl
@[simp] theorem State.setR8_halted (s : State) (r : Reg8) (v : Byte) : (s.setR8 r v).halted = s.halted := by cases r <;> rfl
@[simp] theorem State.setR8_stopped (s : State) (r : Reg8) (v : Byte) : (s.setR8 r v).stopped = s.stopped := by cases r <;> rfl
@[simp] theorem State.setR8_fault (s : State) (r : Reg8) (v : Byte) : (s.setR8 r v).fault = s.fault := by cases r <;> rfl
@[simp] theorem State.setR8_mem (s : State) (r : Reg8) (v : Byte) : (s.setR8 r v).mem = s.mem := by cases r <;> rfl
@[simp] theorem State.setR8_params (s : State) (r : Reg8) (v : Byte) : (s.setR8 r v).params = s.params := by cases r <;> rfl

@[simp] theorem State.setR16_ime (s : State) (rr : Pair) (v : Word) : (s.setR16 rr v).ime = s.ime := by cases rr <;> rfl
@[simp] theorem State.setR16_eiPending (s : State) (rr : Pair) (v : Word) : (s.setR16 rr v).eiPending = s.eiPending := by cases rr <;> rfl
@[simp] theorem State.setR16_halted (s : State) (rr : Pair) (v : Word) : (s.setR16 rr v).halted = s.halted := by cases rr <;> rfl
@[simp] theorem State.setR16_stopped (s : State) (rr : Pair) (v : Word) : (s.setR16 rr v).stopped = s.stopped := by cases rr <;> rfl
@[simp] theorem State.setR16_fault (s : State) (rr : Pair) (v : Word) : (s.setR16 rr v).fault = s.fault := by cases rr <;> rfl
@[simp] theorem State.setR16_mem (s : State) (rr : Pair) (v : Word) : (s.setR16 rr v).mem = s.mem := by cases rr <;> rfl
@[simp] theorem State.setR16_params (s : State) (rr : Pair) (v : Word) : (s.setR16 rr v).params = s.params := by cases rr <;> rfl

@[simp] theorem State.setF_bc (s : State) (v : Byte) : (s.setF v).bc = s.bc := rfl
@[simp] theorem State.setF_de (s : State) (v : Byte) : (s.setF v).de = s.de := rfl
@[simp] theorem State.setF_hl (s : State) (v : Byte) : (s.setF v).hl = s.hl := rfl
@[simp] theorem State.setF_sp (s : State) (v : Byte) : (s.setF v).sp = s.sp := rfl
@[simp] theorem State.setF_pc (s : State) (v : Byte) : (s.setF v).pc = s.pc := rfl
@[simp] theorem State.setF_ime (s : State) (v : Byte) : (s.setF v).ime = s.ime := rfl
@[simp] theorem State.setF_eiPending (s : State) (v : Byte) : (s.setF v).eiPending = s.eiPending := rfl
@[simp] theorem State.setF_halted (s : State) (v : Byte) : (s.setF v).halted = s.halted := rfl
@[simp] theorem State.setF_stopped (s : State) (v : Byte) : (s.setF v).stopped = s.stopped := rfl
@[simp] theorem State.setF_fault (s : State) (v : Byte) : (s.setF v).fault = s.fault := rfl
@[simp] theorem State.setF_mem (s : State) (v : Byte) : (s.setF v).mem = s.mem := rfl
@[simp] theorem State.setF_params (s : State) (v : Byte) : (s.setF v).params = s.params := rfl

@[simp] theorem State.setF_af (s : State) (v : Byte) : (s.setF v).af = join (hiByte s.af) (v &&& 0xF0) := rfl

@[simp] theorem State.setFlags_bc (s : State) (z n h c : Bool) : (s.setFlags z n h c).bc = s.bc := rfl
@[simp] theorem State.setFlags_de (s : State) (z n h c : Bool) : (s.setFlags z n h c).de = s.de := rfl
@[simp] theorem State.setFlags_hl (s : State) (z n h c : Bool) : (s.setFlags z n h c).hl = s.hl := rfl
@[simp] theorem State.setFlags_sp (s : State) (z n h c : Bool) : (s.setFlags z n h c).sp = s.sp := rfl
@[simp] theorem State.setFlags_pc (s : State) (z n h c : Bool) : (s.setFlags z n h c).pc = s.pc := rfl
@[simp] theorem State.setFlags_ime (s : State) (z n h c : Bool) : (s.setFlags z n h c).ime = s.ime := rfl
@[simp] theorem State.setFlags_eiPending (s : State) (z n h c : Bool) : (s.setFlags z n h c).eiPending = s.eiPending := rfl
@[simp] theorem State.setFlags_halted (s : State) (z n h c : Bool) : (s.setFlags z n h c).halted = s.halted := rfl
@[simp] theorem State.setFlags_stopped (s : State) (z n h c : Bool) : (s.setFlags z n h c).stopped = s.stopped := rfl
@[simp] theorem State.setFlags_fault (s : State) (z n h c : Bool) : (s.setFlags z n h c).fault = s.fault := rfl
@[simp] theorem State.setFlags_mem (s : State) (z n h c : Bool) : (s.setFlags z n h c).mem = s.mem := rfl
@[simp] theorem State.setFlags_params (s : State) (z n h c : Bool) : (s.setFlags z n h c).params = s.params := rfl

@[simp] theorem State.poke_af (s : State) (a : Nat) (v : Byte) : (s.poke a v).af = s.af := rfl
@[simp] theorem State.poke_bc (s : State) (a : Nat) (v : Byte) : (s.poke a v).bc = s.bc := rfl
@[simp] theorem State.poke_de (s : State) (a : Nat) (v : Byte) : (s.poke a v).de = s.de := rfl
@[simp] theorem State.poke_hl (s : State) (a : Nat) (v : Byte) : (s.poke a v).hl = s.hl := rfl
@[simp] theorem State.poke_sp (s : State) (a : Nat) (v : Byte) : (s.poke a v).sp = s.sp := rfl
@[simp] theorem State.poke_pc (s : State) (a : Nat) (v : Byte) : (s.poke a v).pc = s.pc := rfl
@[simp] theorem State.poke_ime (s : State) (a : Nat) (v : Byte) : (s.poke a v).ime = s.ime := rfl
@[simp] theorem State.poke_eiPending (s : State) (a : Nat) (v : Byte) : (s.poke a v).eiPending = s.eiPending := rfl
@[simp] theorem State.poke_halted (s : State) (a : Nat) (v : Byte) : (s.poke a v).halted = s.halted := rfl
@[simp] theorem State.poke_stopped (s : State) (a : Nat) (v : Byte) : (s.poke a v).stopped = s.stopped := rfl
@[simp] theorem State.poke_fault (s : State) (a : Nat) (v : Byte) : (s.poke a v).fault = s.fault := rfl
@[simp] theorem State.poke_params (s : State) (a : Nat) (v : Byte) : (s.poke a v).params = s.params := rfl

@[simp] theorem State.poke_mem (s : State) (a : Nat) (v : Byte) :
    (s.poke a v).mem = Memory.set s.mem (busAddress s.params a) v := rfl

@[simp] theorem State.advance_af (s : State) (len : Nat) : (s.advance len).af = s.af := rfl
@[simp] theorem State.advance_bc (s : State) (len : Nat) : (s.advance len).bc = s.bc := rfl
@[simp] theorem State.advance_de (s : State) (len : Nat) : (s.advance len).de = s.de := rfl
@[simp] theorem State.advance_hl (s : State) (len : Nat) : (s.advance len).hl = s.hl := rfl
@[simp] theorem State.advance_sp (s : State) (len : Nat) : (s.advance len).sp = s.sp := rfl
@[simp] theorem State.advance_ime (s : State) (len : Nat) : (s.advance len).ime = s.ime := rfl
@[simp] theorem State.advance_eiPending (s : State) (len : Nat) : (s.advance len).eiPending = s.eiPending := rfl
@[simp] theorem State.advance_halted (s : State) (len : Nat) : (s.advance len).halted = s.halted := rfl
@[simp] theorem State.advance_stopped (s : State) (len : Nat) : (s.advance len).stopped = s.stopped := rfl
@[simp] theorem State.advance_fault (s : State) (len : Nat) : (s.advance len).fault = s.fault := rfl
@[simp] theorem State.advance_mem (s : State) (len : Nat) : (s.advance len).mem = s.mem := rfl
@[simp] theorem State.advance_params (s : State) (len : Nat) : (s.advance len).params = s.params := rfl

@[simp] theorem State.advance_pc (s : State) (len : Nat) : (s.advance len).pc = s.pc + BitVec.ofNat 16 len := rfl

@[simp] theorem State.jumpTo_af (s : State) (target : Word) : (s.jumpTo target).af = s.af := rfl
@[simp] theorem State.jumpTo_bc (s : State) (target : Word) : (s.jumpTo target).bc = s.bc := rfl
@[simp] theorem State.jumpTo_de (s : State) (target : Word) : (s.jumpTo target).de = s.de := rfl
@[simp] theorem State.jumpTo_hl (s : State) (target : Word) : (s.jumpTo target).hl = s.hl := rfl
@[simp] theorem State.jumpTo_sp (s : State) (target : Word) : (s.jumpTo target).sp = s.sp := rfl
@[simp] theorem State.jumpTo_ime (s : State) (target : Word) : (s.jumpTo target).ime = s.ime := rfl
@[simp] theorem State.jumpTo_eiPending (s : State) (target : Word) : (s.jumpTo target).eiPending = s.eiPending := rfl
@[simp] theorem State.jumpTo_halted (s : State) (target : Word) : (s.jumpTo target).halted = s.halted := rfl
@[simp] theorem State.jumpTo_stopped (s : State) (target : Word) : (s.jumpTo target).stopped = s.stopped := rfl
@[simp] theorem State.jumpTo_fault (s : State) (target : Word) : (s.jumpTo target).fault = s.fault := rfl
@[simp] theorem State.jumpTo_mem (s : State) (target : Word) : (s.jumpTo target).mem = s.mem := rfl
@[simp] theorem State.jumpTo_params (s : State) (target : Word) : (s.jumpTo target).params = s.params := rfl

@[simp] theorem State.jumpTo_pc (s : State) (target : Word) : (s.jumpTo target).pc = target := rfl

@[simp] theorem State.latchFault_af (s : State) (f : Fault) : (s.latchFault f).af = s.af := rfl
@[simp] theorem State.latchFault_bc (s : State) (f : Fault) : (s.latchFault f).bc = s.bc := rfl
@[simp] theorem State.latchFault_de (s : State) (f : Fault) : (s.latchFault f).de = s.de := rfl
@[simp] theorem State.latchFault_hl (s : State) (f : Fault) : (s.latchFault f).hl = s.hl := rfl
@[simp] theorem State.latchFault_sp (s : State) (f : Fault) : (s.latchFault f).sp = s.sp := rfl
@[simp] theorem State.latchFault_pc (s : State) (f : Fault) : (s.latchFault f).pc = s.pc := rfl
@[simp] theorem State.latchFault_ime (s : State) (f : Fault) : (s.latchFault f).ime = s.ime := rfl
@[simp] theorem State.latchFault_eiPending (s : State) (f : Fault) : (s.latchFault f).eiPending = s.eiPending := rfl
@[simp] theorem State.latchFault_halted (s : State) (f : Fault) : (s.latchFault f).halted = s.halted := rfl
@[simp] theorem State.latchFault_stopped (s : State) (f : Fault) : (s.latchFault f).stopped = s.stopped := rfl
@[simp] theorem State.latchFault_mem (s : State) (f : Fault) : (s.latchFault f).mem = s.mem := rfl
@[simp] theorem State.latchFault_params (s : State) (f : Fault) : (s.latchFault f).params = s.params := rfl

@[simp] theorem State.latchFault_fault (s : State) (f : Fault) : (s.latchFault f).fault = some f := rfl

@[simp] theorem State.wake_af (s : State) : (s.wake).af = s.af := rfl
@[simp] theorem State.wake_bc (s : State) : (s.wake).bc = s.bc := rfl
@[simp] theorem State.wake_de (s : State) : (s.wake).de = s.de := rfl
@[simp] theorem State.wake_hl (s : State) : (s.wake).hl = s.hl := rfl
@[simp] theorem State.wake_sp (s : State) : (s.wake).sp = s.sp := rfl
@[simp] theorem State.wake_pc (s : State) : (s.wake).pc = s.pc := rfl
@[simp] theorem State.wake_ime (s : State) : (s.wake).ime = s.ime := rfl
@[simp] theorem State.wake_eiPending (s : State) : (s.wake).eiPending = s.eiPending := rfl
@[simp] theorem State.wake_fault (s : State) : (s.wake).fault = s.fault := rfl
@[simp] theorem State.wake_mem (s : State) : (s.wake).mem = s.mem := rfl
@[simp] theorem State.wake_params (s : State) : (s.wake).params = s.params := rfl

@[simp] theorem State.wake_halted (s : State) : s.wake.halted = false := rfl
@[simp] theorem State.wake_stopped (s : State) : s.wake.stopped = false := rfl

@[simp] theorem State.enableDelayed_af (s : State) (before : Bool) : (s.enableDelayed before).af = s.af := by
  unfold State.enableDelayed; split <;> rfl
@[simp] theorem State.enableDelayed_bc (s : State) (before : Bool) : (s.enableDelayed before).bc = s.bc := by
  unfold State.enableDelayed; split <;> rfl
@[simp] theorem State.enableDelayed_de (s : State) (before : Bool) : (s.enableDelayed before).de = s.de := by
  unfold State.enableDelayed; split <;> rfl
@[simp] theorem State.enableDelayed_hl (s : State) (before : Bool) : (s.enableDelayed before).hl = s.hl := by
  unfold State.enableDelayed; split <;> rfl
@[simp] theorem State.enableDelayed_sp (s : State) (before : Bool) : (s.enableDelayed before).sp = s.sp := by
  unfold State.enableDelayed; split <;> rfl
@[simp] theorem State.enableDelayed_pc (s : State) (before : Bool) : (s.enableDelayed before).pc = s.pc := by
  unfold State.enableDelayed; split <;> rfl
@[simp] theorem State.enableDelayed_halted (s : State) (before : Bool) : (s.enableDelayed before).halted = s.halted := by
  unfold State.enableDelayed; split <;> rfl
@[simp] theorem State.enableDelayed_stopped (s : State) (before : Bool) : (s.enableDelayed before).stopped = s.stopped := by
  unfold State.enableDelayed; split <;> rfl
@[simp] theorem State.enableDelayed_fault (s : State) (before : Bool) : (s.enableDelayed before).fault = s.fault := by
  unfold State.enableDelayed; split <;> rfl
@[simp] theorem State.enableDelayed_mem (s : State) (before : Bool) : (s.enableDelayed before).mem = s.mem := by
  unfold State.enableDelayed; split <;> rfl
@[simp] theorem State.enableDelayed_params (s : State) (before : Bool) : (s.enableDelayed before).params = s.params := by
  unfold State.enableDelayed; split <;> rfl

@[simp] theorem State.enableDelayed_ime (s : State) (before : Bool) :
    (s.enableDelayed before).ime = (before && s.eiPending || s.ime) := by
  unfold State.enableDelayed; split <;> simp_all

@[simp] theorem State.enableDelayed_eiPending (s : State) (before : Bool) :
    (s.enableDelayed before).eiPending = (!before && s.eiPending) := by
  unfold State.enableDelayed; split <;> cases before <;> simp_all

/-! ### Registers after register writes -/

@[simp] theorem State.r8_setR8_same (s : State) (r : Reg8) (v : Byte) : (s.setR8 r v).r8 r = v := by
  cases r <;> simp [State.r8, State.setR8]

theorem State.r8_setR8_other (s : State) {r r' : Reg8} (h : r' ≠ r) (v : Byte) : (s.setR8 r v).r8 r' = s.r8 r' := by
  cases r <;> cases r' <;> simp_all [State.r8, State.setR8]

@[simp] theorem State.f_setR8 (s : State) (r : Reg8) (v : Byte) : (s.setR8 r v).f = s.f := by
  cases r <;> simp [State.f, State.setR8]

@[simp] theorem State.r16_setR16_same (s : State) {rr : Pair} (h : rr ≠ .af) (v : Word) : (s.setR16 rr v).r16 rr = v := by
  cases rr <;> simp_all [State.r16, State.setR16]

theorem State.r16_setR16_other (s : State) {rr rr' : Pair} (h : rr' ≠ rr) (v : Word) :
    (s.setR16 rr v).r16 rr' = s.r16 rr' := by
  cases rr <;> cases rr' <;> simp_all [State.r16, State.setR16]

@[simp] theorem State.r8_setF (s : State) (v : Byte) (r : Reg8) : (s.setF v).r8 r = s.r8 r := by
  cases r <;> simp [State.r8]

@[simp] theorem State.r8_setFlags (s : State) (z n h c : Bool) (r : Reg8) : (s.setFlags z n h c).r8 r = s.r8 r :=
  State.r8_setF s _ r

@[simp] theorem State.f_setF (s : State) (v : Byte) : (s.setF v).f = v &&& 0xF0 := by simp [State.f]

@[simp] theorem State.r8_poke (s : State) (a : Nat) (v : Byte) (r : Reg8) : (s.poke a v).r8 r = s.r8 r := by
  cases r <;> rfl

@[simp] theorem State.r8_advance (s : State) (len : Nat) (r : Reg8) : (s.advance len).r8 r = s.r8 r := by
  cases r <;> rfl

@[simp] theorem State.r8_jumpTo (s : State) (t : Word) (r : Reg8) : (s.jumpTo t).r8 r = s.r8 r := by cases r <;> rfl

@[simp] theorem State.f_poke (s : State) (a : Nat) (v : Byte) : (s.poke a v).f = s.f := rfl
@[simp] theorem State.f_advance (s : State) (len : Nat) : (s.advance len).f = s.f := rfl
@[simp] theorem State.f_jumpTo (s : State) (t : Word) : (s.jumpTo t).f = s.f := rfl

/-- A write to AF keeps the high byte (R25). -/
@[simp] theorem hiByte_maskAf (v : Word) : hiByte (maskAf v) = hiByte v := by
  unfold hiByte maskAf
  ext k hk
  have : (0xFFF0 : Word).getLsbD (8 + k) = true := by
    revert k
    decide
  simp only [BitVec.getElem_extractLsb', BitVec.getLsbD_and, this, Bool.and_true]

/-- A write to AF clears F[3:0] (R25). -/
@[simp] theorem loByte_maskAf (v : Word) : loByte (maskAf v) = loByte v &&& 0xF0 := by
  unfold loByte maskAf
  ext k hk
  have : (0xFFF0 : Word).getLsbD (0 + k) = (0xF0 : Byte).getLsbD k := by
    revert k
    decide
  simp only [BitVec.getElem_extractLsb', BitVec.getElem_and, BitVec.getLsbD_and, this, BitVec.getLsbD_eq_getElem hk]

theorem State.r16_of_af (s : State) : s.r16 .af = join (s.r8 .a) s.f := by simp [State.r16, State.r8, State.f]
theorem State.r16_of_bc (s : State) : s.r16 .bc = join (s.r8 .b) (s.r8 .c) := by simp [State.r16, State.r8]
theorem State.r16_of_de (s : State) : s.r16 .de = join (s.r8 .d) (s.r8 .e) := by simp [State.r16, State.r8]
theorem State.r16_of_hl (s : State) : s.r16 .hl = join (s.r8 .h) (s.r8 .l) := by simp [State.r16, State.r8]

/-! ### Flags after flag writes -/

@[simp] theorem packFlags_bit7 (z n h c : Bool) : (packFlags z n h c)[7] = z := by
  cases z <;> cases n <;> cases h <;> cases c <;> rfl
@[simp] theorem packFlags_bit6 (z n h c : Bool) : (packFlags z n h c)[6] = n := by
  cases z <;> cases n <;> cases h <;> cases c <;> rfl
@[simp] theorem packFlags_bit5 (z n h c : Bool) : (packFlags z n h c)[5] = h := by
  cases z <;> cases n <;> cases h <;> cases c <;> rfl
@[simp] theorem packFlags_bit4 (z n h c : Bool) : (packFlags z n h c)[4] = c := by
  cases z <;> cases n <;> cases h <;> cases c <;> rfl
@[simp] theorem packFlags_mask (z n h c : Bool) : packFlags z n h c &&& 0xF0#8 = packFlags z n h c := by
  cases z <;> cases n <;> cases h <;> cases c <;> rfl
@[simp] theorem packFlags_low (z n h c : Bool) : packFlags z n h c &&& 0x0F#8 = 0 := by
  cases z <;> cases n <;> cases h <;> cases c <;> rfl

@[simp] theorem State.f_setFlags (s : State) (z n h c : Bool) : (s.setFlags z n h c).f = packFlags z n h c := by
  simp [State.setFlags]

@[simp] theorem State.flagZ_setFlags (s : State) (z n h c : Bool) : (s.setFlags z n h c).flagZ = z := by
  simp [State.flagZ]
@[simp] theorem State.flagN_setFlags (s : State) (z n h c : Bool) : (s.setFlags z n h c).flagN = n := by
  simp [State.flagN]
@[simp] theorem State.flagH_setFlags (s : State) (z n h c : Bool) : (s.setFlags z n h c).flagH = h := by
  simp [State.flagH]
@[simp] theorem State.flagC_setFlags (s : State) (z n h c : Bool) : (s.setFlags z n h c).flagC = c := by
  simp [State.flagC]

theorem State.f_setR16_af (s : State) (v : Word) : (s.setR16 .af v).f &&& 0x0F = 0 := by
  have h : loByte (v &&& 0xFFF0) &&& 0x0F = 0 := by
    apply BitVec.eq_of_getLsbD_eq
    intro i hi
    simp only [loByte, BitVec.getLsbD_and, BitVec.getLsbD_extractLsb']
    rcases i with _ | _ | _ | _ | _ | _ | _ | _ | i <;> simp
  simpa [State.f, State.setR16, maskAf] using h

end Sys2Proof.Machine
end

