-- ==== Sys2Proof/Laws/Bus.lean ====
section
/-! SUPPORT. One spec lemma per bus and stack operation: when it answers, and with what. -/

namespace Sys2Proof.Machine

open Sys2Proof

/-! ### The address check -/

theorem inStore_iff (p : Params) (a : Nat) :
    inStore p a = true ↔ busAddress p a < p.memSize ∧ busAddress p a ≤ 0xFFFF := by
  simp only [inStore, Bool.and_eq_true, decide_eq_true_eq]
  tauto

/-- A 16-bit address is used as it is, under either policy (R53). -/
@[simp] theorem busAddress_word (p : Params) (w : Word) : busAddress p w.toNat = w.toNat := by
  have h := w.isLt
  unfold busAddress
  split
  · rfl
  · exact Nat.mod_eq_of_lt h

/-- Under the defaults every 16-bit address has a cell (R7, R53). -/
theorem inStore_default (w : Word) : inStore Params.default w.toNat = true := by
  have h := w.isLt
  rw [inStore_iff, busAddress_word]
  simp only [Params.default]
  omega

/-! ### Bytes -/

@[simp] theorem State.peek_poke_same (s : State) (a : Nat) (v : Byte) : (s.poke a v).peek a = v := by
  simp [State.peek]

theorem State.peek_poke_other (s : State) {a b : Nat} (h : busAddress s.params b ≠ busAddress s.params a) (v : Byte) :
    (s.poke a v).peek b = s.peek b := by
  simp [State.peek, Memory.get_set_other _ v h]

theorem memRead_ok {s : State} {a : Nat} (h : inStore s.params a = true) : memRead s a = .ok (s.peek a) := by
  simp [memRead, h]

theorem memRead_error {s : State} {a : Nat} (h : inStore s.params a = false) : memRead s a = .error (addressFault s a) := by
  simp [memRead, h]

theorem memRead_cases (s : State) (a : Nat) :
    (inStore s.params a = true ∧ memRead s a = .ok (s.peek a)) ∨
    (inStore s.params a = false ∧ memRead s a = .error (addressFault s a)) := by
  cases h : inStore s.params a
  · exact .inr ⟨rfl, memRead_error h⟩
  · exact .inl ⟨rfl, memRead_ok h⟩

theorem memWrite_ok {s : State} {a : Nat} (h : inStore s.params a = true) (v : Byte) :
    memWrite s a v = .ok (s.poke a v) := by
  simp [memWrite, h]

theorem memWrite_error {s : State} {a : Nat} (h : inStore s.params a = false) (v : Byte) :
    memWrite s a v = .error (addressFault s a) := by
  simp [memWrite, h]

theorem memWrite_inv {s t : State} {a : Nat} {v : Byte} (h : memWrite s a v = .ok t) :
    inStore s.params a = true ∧ t = s.poke a v := by
  unfold memWrite at h
  split at h
  · exact ⟨‹_›, (Except.ok.inj h).symm⟩
  · cases h

/-! ### Words -/

theorem memReadWord_ok {s : State} {a : Nat} (h : inStore s.params a = true) (h' : inStore s.params (a + 1) = true) :
    memReadWord s a = .ok (join (s.peek (a + 1)) (s.peek a)) := by
  simp [memReadWord, h, h']

theorem memReadWord_inv {s : State} {a : Nat} {w : Word} (h : memReadWord s a = .ok w) :
    inStore s.params a = true ∧ inStore s.params (a + 1) = true ∧ w = join (s.peek (a + 1)) (s.peek a) := by
  unfold memReadWord at h
  split at h
  · split at h
    · exact ⟨‹_›, ‹_›, (Except.ok.inj h).symm⟩
    · cases h
  · cases h

theorem memWriteWord_ok {s : State} {a : Nat} (h : inStore s.params a = true) (h' : inStore s.params (a + 1) = true)
    (v : Word) : memWriteWord s a v = .ok ((s.poke a (loByte v)).poke (a + 1) (hiByte v)) := by
  simp [memWriteWord, h, h']

theorem memWriteWord_inv {s t : State} {a : Nat} {v : Word} (h : memWriteWord s a v = .ok t) :
    inStore s.params a = true ∧ inStore s.params (a + 1) = true ∧
      t = (s.poke a (loByte v)).poke (a + 1) (hiByte v) := by
  unfold memWriteWord at h
  split at h
  · split at h
    · exact ⟨‹_›, ‹_›, (Except.ok.inj h).symm⟩
    · cases h
  · cases h

/-! ### The stack -/

/-- The cell that a byte pushed at `sp` goes to, by mode (R57, R59). -/
def pushCell (mode : StackMode) (sp : Word) : Word :=
  match mode with
  | .doc => sp
  | .sm83 => sp - 1

/-- The cell that a pop at `sp` reads, by mode (R57, R59). -/
def popCell (mode : StackMode) (sp : Word) : Word :=
  match mode with
  | .doc => sp + 1
  | .sm83 => sp

theorem popCell_pushed (mode : StackMode) (sp : Word) : popCell mode (sp - 1) = pushCell mode sp := by
  cases mode <;> simp [popCell, pushCell]

theorem pushByte_ok {s : State} (v : Byte) (h : inStore s.params (pushCell s.params.stackMode s.sp).toNat = true) :
    pushByte s v = .ok { s.poke (pushCell s.params.stackMode s.sp).toNat v with sp := s.sp - 1 } := by
  unfold pushByte
  cases hm : s.params.stackMode <;> simp only [hm, pushCell] at h ⊢
  · rw [memWrite_ok h]
  · rw [memWrite_ok (by simpa using h)]
    rfl

theorem pushByte_inv {s t : State} {v : Byte} (h : pushByte s v = .ok t) :
    inStore s.params (pushCell s.params.stackMode s.sp).toNat = true ∧
      t = { s.poke (pushCell s.params.stackMode s.sp).toNat v with sp := s.sp - 1 } := by
  cases hs : inStore s.params (pushCell s.params.stackMode s.sp).toNat
  · unfold pushByte at h
    cases hm : s.params.stackMode <;> simp only [hm, pushCell] at h hs
    · rw [memWrite_error hs] at h
      cases h
    · rw [memWrite_error (by simpa using hs)] at h
      cases h
  · refine ⟨rfl, ?_⟩
    rw [pushByte_ok v hs] at h
    exact (Except.ok.inj h).symm

theorem popByte_ok {s : State} (h : inStore s.params (popCell s.params.stackMode s.sp).toNat = true) :
    popByte s = .ok (s.peek (popCell s.params.stackMode s.sp).toNat, { s with sp := s.sp + 1 }) := by
  unfold popByte
  cases hm : s.params.stackMode <;> simp only [hm, popCell] at h ⊢ <;> rw [memRead_ok h]

theorem popByte_inv {s t : State} {v : Byte} (h : popByte s = .ok (v, t)) :
    inStore s.params (popCell s.params.stackMode s.sp).toNat = true ∧
      v = s.peek (popCell s.params.stackMode s.sp).toNat ∧ t = { s with sp := s.sp + 1 } := by
  cases hs : inStore s.params (popCell s.params.stackMode s.sp).toNat
  · unfold popByte at h
    cases hm : s.params.stackMode <;> simp only [hm, popCell] at h hs <;> rw [memRead_error hs] at h <;> cases h
  · rw [popByte_ok hs] at h
    have := Except.ok.inj h
    exact ⟨rfl, (congrArg Prod.fst this).symm, (congrArg Prod.snd this).symm⟩

/-- A word push that answers: the high byte at the first cell, the low byte one below, SP down by 2 (R58, R59). -/
theorem pushWord_inv {s t : State} {v : Word} (h : pushWord s v = .ok t) :
    inStore s.params (pushCell s.params.stackMode s.sp).toNat = true ∧
    inStore s.params (pushCell s.params.stackMode (s.sp - 1)).toNat = true ∧
    t = { (s.poke (pushCell s.params.stackMode s.sp).toNat (hiByte v)).poke
            (pushCell s.params.stackMode (s.sp - 1)).toNat (loByte v) with sp := s.sp - 1 - 1 } := by
  unfold pushWord at h
  split at h
  · rename_i u hu
    obtain ⟨h1, rfl⟩ := pushByte_inv hu
    obtain ⟨h2, rfl⟩ := pushByte_inv h
    exact ⟨h1, h2, rfl⟩
  · cases h

theorem pushWord_ok {s : State} (v : Word) (h1 : inStore s.params (pushCell s.params.stackMode s.sp).toNat = true)
    (h2 : inStore s.params (pushCell s.params.stackMode (s.sp - 1)).toNat = true) :
    pushWord s v = .ok { (s.poke (pushCell s.params.stackMode s.sp).toNat (hiByte v)).poke
            (pushCell s.params.stackMode (s.sp - 1)).toNat (loByte v) with sp := s.sp - 1 - 1 } := by
  unfold pushWord
  rw [pushByte_ok _ h1]
  exact pushByte_ok _ h2

/-- A word pop that answers: the low byte from the first cell, the high byte one above, SP up by 2 (R58, R59). -/
theorem popWord_inv {s t : State} {v : Word} (h : popWord s = .ok (v, t)) :
    inStore s.params (popCell s.params.stackMode s.sp).toNat = true ∧
    inStore s.params (popCell s.params.stackMode (s.sp + 1)).toNat = true ∧
    v = join (s.peek (popCell s.params.stackMode (s.sp + 1)).toNat) (s.peek (popCell s.params.stackMode s.sp).toNat) ∧
    t = { s with sp := s.sp + 1 + 1 } := by
  unfold popWord at h
  split at h
  · rename_i lo u hu
    obtain ⟨h1, rfl, rfl⟩ := popByte_inv hu
    split at h
    · rename_i hi w hw
      obtain ⟨h2, rfl, rfl⟩ := popByte_inv hw
      have := Except.ok.inj h
      exact ⟨h1, h2, (congrArg Prod.fst this).symm, (congrArg Prod.snd this).symm⟩
    · cases h
  · cases h

theorem popWord_ok {s : State} (h1 : inStore s.params (popCell s.params.stackMode s.sp).toNat = true)
    (h2 : inStore s.params (popCell s.params.stackMode (s.sp + 1)).toNat = true) :
    popWord s = .ok (join (s.peek (popCell s.params.stackMode (s.sp + 1)).toNat)
      (s.peek (popCell s.params.stackMode s.sp).toNat), { s with sp := s.sp + 1 + 1 }) := by
  unfold popWord
  rw [popByte_ok h1]
  simp only
  rw [popByte_ok (s := { s with sp := s.sp + 1 }) h2]
  rfl

end Sys2Proof.Machine
end

