-- ==== Sys2Proof/Laws/Ops.lean ====
section
/-! SUPPORT. One lemma per shared operation of the meanings: everything it can do when it answers, cited instead of
unfolding it. -/

namespace Sys2Proof.Machine

open Sys2Proof

/-! ### The two ends of an instruction -/

@[simp] theorem complete_ok (len : Nat) (t : State) : complete len (.ok t) = .next (t.advance len) := rfl
@[simp] theorem complete_error (len : Nat) (f : Fault) : complete len (.error f) = .fault f := rfl
@[simp] theorem transfer_ok (w : Word) (t : State) : transfer (.ok (w, t)) = .next (t.jumpTo w) := rfl
@[simp] theorem transfer_error (f : Fault) : transfer (.error f) = .fault f := rfl

theorem complete_next {len : Nat} {r : Except Fault State} {t : State} (h : complete len r = .next t) :
    ∃ u, r = .ok u ∧ t = u.advance len := by
  cases r with
  | ok u => exact ⟨u, rfl, (Host.Outcome.next.inj h).symm⟩
  | error f => cases h

theorem complete_fault {len : Nat} {r : Except Fault State} {f : Fault} (h : complete len r = .fault f) :
    r = .error f := by
  cases r with
  | ok u => cases h
  | error g => exact congrArg _ (Host.Outcome.fault.inj h)

theorem complete_ne_refused (len : Nat) (r : Except Fault State) (x : Refusal) : complete len r ≠ .refused x := by
  cases r <;> simp

theorem transfer_next {r : Except Fault (Word × State)} {t : State} (h : transfer r = .next t) :
    ∃ w u, r = .ok (w, u) ∧ t = u.jumpTo w := by
  cases r with
  | ok p => exact ⟨p.1, p.2, rfl, (Host.Outcome.next.inj h).symm⟩
  | error f => cases h

theorem transfer_fault {r : Except Fault (Word × State)} {f : Fault} (h : transfer r = .fault f) : r = .error f := by
  cases r with
  | ok p => cases h
  | error g => exact congrArg _ (Host.Outcome.fault.inj h)

theorem transfer_ne_refused (r : Except Fault (Word × State)) (x : Refusal) : transfer r ≠ .refused x := by
  rcases r with f | ⟨w, u⟩ <;> simp

theorem finishStep_next {before : Bool} {o : Host.Outcome State Fault Refusal} {t : State}
    (h : finishStep before o = .next t) : ∃ u, o = .next u ∧ t = u.enableDelayed before := by
  cases o with
  | next u => exact ⟨u, rfl, (Host.Outcome.next.inj h).symm⟩
  | fault f => cases h
  | refused r => cases h

theorem finishStep_fault {before : Bool} {o : Host.Outcome State Fault Refusal} {f : Fault}
    (h : finishStep before o = .fault f) : o = .fault f := by
  cases o with
  | next u => cases h
  | fault g => exact congrArg _ (Host.Outcome.fault.inj h)
  | refused r => cases h

theorem finishStep_refused {before : Bool} {o : Host.Outcome State Fault Refusal} {r : Refusal}
    (h : finishStep before o = .refused r) : o = .refused r := by
  cases o with
  | next u => cases h
  | fault g => cases h
  | refused q => exact congrArg _ (Host.Outcome.refused.inj h)

/-! ### Locations -/

theorem Loc.read_inv {l : Loc} {s : State} {v : Byte} (h : l.read s = .ok v) :
    (∃ r, l = .reg8 r ∧ v = s.r8 r) ∨ l = .imm v ∨
    (∃ a, l = .mem a ∧ inStore s.params a = true ∧ v = s.peek a) := by
  cases l with
  | reg8 r => exact .inl ⟨r, rfl, (Except.ok.inj h).symm⟩
  | imm w => exact .inr (.inl (congrArg _ (Except.ok.inj h)))
  | mem a =>
    have h : memRead s a = .ok v := h
    rcases memRead_cases s a with ⟨ha, hr⟩ | ⟨_, hr⟩ <;> rw [hr] at h
    · exact .inr (.inr ⟨a, rfl, ha, (Except.ok.inj h).symm⟩)
    · cases h

theorem Loc.read_error {l : Loc} {s : State} {f : Fault} (h : l.read s = .error f) :
    ∃ a, l = .mem a ∧ inStore s.params a = false ∧ f = addressFault s a := by
  cases l with
  | reg8 r => cases h
  | imm w => cases h
  | mem a =>
    have h : memRead s a = .error f := h
    rcases memRead_cases s a with ⟨_, hr⟩ | ⟨ha, hr⟩ <;> rw [hr] at h
    · cases h
    · exact ⟨a, rfl, ha, (Except.error.inj h).symm⟩

theorem Loc.write_inv {l : Loc} {s t : State} {v : Byte} (h : l.write s v = .ok t) :
    (∃ r, l = .reg8 r ∧ t = s.setR8 r v) ∨ (∃ w, l = .imm w ∧ t = s) ∨
    (∃ a, l = .mem a ∧ inStore s.params a = true ∧ t = s.poke a v) := by
  cases l with
  | reg8 r => exact .inl ⟨r, rfl, (Except.ok.inj h).symm⟩
  | imm w => exact .inr (.inl ⟨w, rfl, (Except.ok.inj h).symm⟩)
  | mem a => exact .inr (.inr ⟨a, rfl, memWrite_inv h⟩)

/-! ### Copies, updates and sources -/

/-- A byte load that answers: what was read, what the write left, and the markers applied (R91, R93, R146). -/
theorem copyByte_inv {dst src : ByteOperand} {s t : State} (h : copyByte dst src s = .ok t) :
    ∃ v u, (src.resolve s).read s = .ok v ∧ (dst.resolve s).write s v = .ok u ∧
      t = dst.postModify (src.postModify u) := by
  unfold copyByte at h
  split at h
  · cases h
  · rename_i v hv
    split at h
    · cases h
    · rename_i u hu
      exact ⟨v, u, hv, hu, (Except.ok.inj h).symm⟩

theorem copyByte_ok {dst src : ByteOperand} {s u : State} {v : Byte} (hv : (src.resolve s).read s = .ok v)
    (hu : (dst.resolve s).write s v = .ok u) : copyByte dst src s = .ok (dst.postModify (src.postModify u)) := by
  simp [copyByte, hv, hu]

/-- An update of an r8 operand that answers (R220). -/
theorem updateRM_inv {t : RM8} {f : Byte → Byte} {g : Byte → State → State} {s u : State}
    (h : updateRM t f g s = .ok u) :
    ∃ v w, ((rmOperand t).resolve s).read s = .ok v ∧ ((rmOperand t).resolve s).write s (f v) = .ok w ∧ u = g v w := by
  unfold updateRM at h
  split at h
  · cases h
  · rename_i v hv
    split at h
    · cases h
    · rename_i w hw
      exact ⟨v, w, hv, hw, (Except.ok.inj h).symm⟩

/-- An update of a register always answers. -/
@[simp] theorem updateRM_reg (r : Reg8) (f : Byte → Byte) (g : Byte → State → State) (s : State) :
    updateRM (.reg r) f g s = .ok (g (s.r8 r) (s.setR8 r (f (s.r8 r)))) := rfl

/-- An update of (HL) answers when HL has a cell. -/
theorem updateRM_mhl {f : Byte → Byte} {g : Byte → State → State} {s : State}
    (h : inStore s.params s.hl.toNat = true) :
    updateRM .mhl f g s = .ok (g (s.peek s.hl.toNat) (s.poke s.hl.toNat (f (s.peek s.hl.toNat)))) := by
  simp [updateRM, rmOperand, ByteOperand.resolve, Loc.read, Loc.write, State.r16, memRead_ok h, memWrite_ok h]

/-- An ALU source that answers (R181). -/
theorem withSrc_inv {src : Src8} {s t : State} {k : Byte → State} (h : withSrc src s k = .ok t) :
    ∃ v, ((srcOperand src).resolve s).read s = .ok v ∧ t = k v := by
  unfold withSrc at h
  split at h
  · cases h
  · rename_i v hv
    exact ⟨v, hv, (Except.ok.inj h).symm⟩

theorem withSrc_ok {src : Src8} {s : State} {v : Byte} (k : Byte → State)
    (h : ((srcOperand src).resolve s).read s = .ok v) : withSrc src s k = .ok (k v) := by
  simp [withSrc, h]

/-! ### Calls and returns -/

theorem callTo_inv {s t : State} {len : Nat} {target w : Word} (h : callTo s len target = .ok (w, t)) :
    w = target ∧ pushWord s (s.pc + BitVec.ofNat 16 len) = .ok t := by
  unfold callTo at h
  split at h
  · rename_i u hu
    cases h
    exact ⟨rfl, hu⟩
  · cases h

theorem callTo_ok {s t : State} {len : Nat} (target : Word) (h : pushWord s (s.pc + BitVec.ofNat 16 len) = .ok t) :
    callTo s len target = .ok (target, t) := by
  simp [callTo, h]

theorem returnFromInterrupt_inv {s t : State} {w : Word} (h : returnFromInterrupt s = .ok (w, t)) :
    ∃ u, popWord s = .ok (w, u) ∧ t = { u with ime := true } := by
  unfold returnFromInterrupt at h
  split at h
  · rename_i x u hu
    cases h
    exact ⟨u, hu, rfl⟩
  · cases h

theorem returnFromInterrupt_ok {s u : State} {w : Word} (h : popWord s = .ok (w, u)) :
    returnFromInterrupt s = .ok (w, { u with ime := true }) := by
  simp [returnFromInterrupt, h]

/-- An interrupt entry that answers: the push from the state with the latches cleared, then the vector (R263). -/
theorem enterInterrupt_inv {s t : State} {i : InterruptSource} (h : enterInterrupt s i = .ok t) :
    ∃ u, pushWord { s with ime := false, eiPending := false, halted := false } s.pc = .ok u ∧ t = u.jumpTo i.vector := by
  unfold enterInterrupt at h
  split at h
  · rename_i u hu
    exact ⟨u, hu, (Except.ok.inj h).symm⟩
  · cases h

end Sys2Proof.Machine
end

