-- ==== Sys2Proof/Laws/Exec.lean ====
section
/-! SUPPORT. What an instruction can do to the state, said once: every next state is built from the state before by the
named operations, so what they keep, every instruction keeps. -/

namespace Sys2Proof.Machine

open Sys2Proof

/-- `P` survives every named operation that writes registers, flags or cells that the store has. -/
structure KeptByOps (params : Params) (P : State → Prop) : Prop where
  setR8 : ∀ u r v, P u → P (u.setR8 r v)
  setR16 : ∀ u rr v, rr ≠ .pc → P u → P (u.setR16 rr v)
  setFlags : ∀ u z n h c, P u → P (u.setFlags z n h c)
  setSp : ∀ (u : State) v, P u → P { u with sp := v }
  setHl : ∀ (u : State) v, P u → P { u with hl := v }
  poke : ∀ u a v, u.params = params → inStore params a = true → P u → P (u.poke a v)
  advance : ∀ u len, P u → P (u.advance len)
  jumpTo : ∀ u target, P u → P (u.jumpTo target)

variable {P : State → Prop} {s t u : State}

theorem complete_keeps {len : Nat} {r : Except Fault State} (k : KeptByOps s.params P)
    (h : complete len r = .next t) (hr : ∀ u, r = .ok u → P u) : P t := by
  obtain ⟨u, hu, rfl⟩ := complete_next h
  exact k.advance u len (hr u hu)

theorem transfer_keeps {r : Except Fault (Word × State)} (k : KeptByOps s.params P)
    (h : transfer r = .next t) (hr : ∀ w u, r = .ok (w, u) → P u) : P t := by
  obtain ⟨w, u, hu, rfl⟩ := transfer_next h
  exact k.jumpTo u w (hr w u hu)

theorem Loc.write_keeps {l : Loc} {v : Byte} (k : KeptByOps s.params P) (hs : P s) (h : l.write s v = .ok u) : P u := by
  obtain ⟨r, -, rfl⟩ | ⟨w, -, rfl⟩ | ⟨a, -, ha, rfl⟩ := Loc.write_inv h
  · exact k.setR8 s r v hs
  · exact hs
  · exact k.poke s a v rfl ha hs

theorem postModify_keeps (o : ByteOperand) (k : KeptByOps s.params P) (h : P u) : P (o.postModify u) := by
  cases o <;> first | exact h | exact k.setHl _ _ h

theorem copyByte_keeps {dst src : ByteOperand} (k : KeptByOps s.params P) (hs : P s)
    (h : copyByte dst src s = .ok u) : P u := by
  obtain ⟨v, w, -, hw, rfl⟩ := copyByte_inv h
  exact postModify_keeps dst k (postModify_keeps src k (Loc.write_keeps k hs hw))

theorem updateRM_keeps {x : RM8} {f : Byte → Byte} {g : Byte → State → State} (k : KeptByOps s.params P) (hs : P s)
    (hg : ∀ v w, P w → P (g v w)) (h : updateRM x f g s = .ok u) : P u := by
  obtain ⟨v, w, -, hw, rfl⟩ := updateRM_inv h
  exact hg v w (Loc.write_keeps k hs hw)

theorem withSrc_keeps {src : Src8} {f : Byte → State} (hf : ∀ v, P (f v)) (h : withSrc src s f = .ok u) : P u := by
  obtain ⟨v, -, rfl⟩ := withSrc_inv h
  exact hf v

theorem pushWord_keeps {v : Word} (k : KeptByOps s.params P) (hs : P s) (h : pushWord s v = .ok u) : P u := by
  obtain ⟨h1, h2, rfl⟩ := pushWord_inv h
  exact k.setSp _ _ (k.poke _ _ _ rfl h2 (k.poke _ _ _ rfl h1 hs))

theorem popWord_keeps {w : Word} (k : KeptByOps s.params P) (hs : P s) (h : popWord s = .ok (w, u)) : P u := by
  obtain ⟨-, -, -, rfl⟩ := popWord_inv h
  exact k.setSp _ _ hs

theorem callTo_keeps {len : Nat} {target w : Word} (k : KeptByOps s.params P) (hs : P s)
    (h : callTo s len target = .ok (w, u)) : P u := pushWord_keeps k hs (callTo_inv h).2

/-- What the named operations keep, and the latch writes of RETI, DI, EI, HALT and STOP keep, every instruction keeps. -/
theorem exec_keeps {i : Instr} (k : KeptByOps s.params P) (hs : P s)
    (reti : i = .reti → ∀ u, P u → P { u with ime := true })
    (di : i = .di → P { s with ime := false, eiPending := false })
    (ei : i = .ei → P { s with eiPending := true })
    (halt : i = .halt → P { s with halted := true })
    (stop : ∀ n, i = .stop n → P { s with stopped := true })
    (h : exec i s = .next t) : P t := by
  have same : ∀ len, complete len (.ok s) = .next t → P t := fun len h =>
    complete_keeps k h fun u hu => Except.ok.inj hu ▸ hs
  have jump : ∀ w, transfer (.ok (w, s)) = .next t → P t := fun w h =>
    transfer_keeps k h fun _ u hu => by
      cases hu
      exact hs
  have one : ∀ len u, P u → complete len (.ok u) = .next t → P t := fun len u hu h =>
    complete_keeps k h fun v hv => Except.ok.inj hv ▸ hu
  cases i with
  | illegal op => cases h
  | nop => exact same 1 h
  | halt => exact one 1 _ (halt rfl) h
  | stop n => exact one 2 _ (stop n rfl) h
  | di => exact one 1 _ (di rfl) h
  | ei => exact one 1 _ (ei rfl) h
  | jp a | jpHl | jr e => exact jump _ h
  | jpCond cc a =>
    simp only [exec, execJpCond] at h
    split at h
    · exact jump _ h
    · exact same 3 h
  | jrCond cc e =>
    simp only [exec, execJrCond] at h
    split at h
    · exact jump _ h
    · exact same 2 h
  | call a =>
    exact transfer_keeps k h fun _ _ hu => callTo_keeps k hs hu
  | rst y =>
    exact transfer_keeps k h fun _ _ hu => callTo_keeps k hs hu
  | callCond cc a =>
    simp only [exec, execCallCond] at h
    split at h
    · exact transfer_keeps k h fun _ _ hu => callTo_keeps k hs hu
    · exact same 3 h
  | ret => exact transfer_keeps k h fun _ _ hu => popWord_keeps k hs hu
  | retCond cc =>
    simp only [exec, execRetCond] at h
    split at h
    · exact transfer_keeps k h fun _ _ hu => popWord_keeps k hs hu
    · exact same 1 h
  | reti =>
    refine transfer_keeps k h fun _ _ hu => ?_
    obtain ⟨v, hv, rfl⟩ := returnFromInterrupt_inv hu
    exact reti rfl v (popWord_keeps k hs hv)
  | push rr => exact complete_keeps k h fun _ hu => pushWord_keeps k hs hu
  | pop rr =>
    simp only [exec, execPop] at h
    split at h
    · rename_i v w hw
      exact one 1 _ (k.setR16 _ _ _ (by cases rr <;> decide) (popWord_keeps k hs hw)) h
    · cases h
  | ldMabsSp a =>
    refine complete_keeps k h fun u hu => ?_
    obtain ⟨h1, h2, rfl⟩ := memWriteWord_inv hu
    exact k.poke _ _ _ rfl h2 (k.poke _ _ _ rfl h1 hs)
  | ldPairImm rr n => exact one 3 _ (k.setR16 _ _ _ (by cases rr <;> decide) hs) h
  | incPair rr | decPair rr => exact one 1 _ (k.setR16 _ _ _ (by cases rr <;> decide) hs) h
  | ldSpHl => exact one 1 _ (k.setR16 _ _ _ (by decide) hs) h
  | addHl rr => exact one 1 _ (k.setFlags _ _ _ _ _ (k.setR16 _ _ _ (by decide) hs)) h
  | ldHlSpE8 e | addSpE8 e => exact one 2 _ (k.setFlags _ _ _ _ _ (k.setR16 _ _ _ (by decide) hs)) h
  | rlca | rrca | rla | rra | daa | cpl => exact one 1 _ (k.setFlags _ _ _ _ _ (k.setR8 _ _ _ hs)) h
  | scf | ccf => exact one 1 _ (k.setFlags _ _ _ _ _ hs) h
  | add src | adc src | sub src | sbc src | and src | xor src | or src =>
    exact complete_keeps k h fun _ hu => withSrc_keeps (fun _ => k.setFlags _ _ _ _ _ (k.setR8 _ _ _ hs)) hu
  | cp src => exact complete_keeps k h fun _ hu => withSrc_keeps (fun _ => k.setFlags _ _ _ _ _ hs) hu
  | incReg r | decReg r => exact one 1 _ (k.setFlags _ _ _ _ _ (k.setR8 _ _ _ hs)) h
  | incMhl | decMhl =>
    exact complete_keeps k h fun _ hu => updateRM_keeps k hs (fun _ _ => k.setFlags _ _ _ _ _) hu
  | rlc x | rrc x | rl x | rr x | sla x | sra x | swap x | srl x =>
    exact complete_keeps k h fun _ hu => updateRM_keeps k hs (fun _ _ => k.setFlags _ _ _ _ _) hu
  | res b x | set b x => exact complete_keeps k h fun _ hu => updateRM_keeps k hs (fun _ _ hw => hw) hu
  | bit b x =>
    simp only [exec, execBit] at h
    split at h
    · exact one 2 _ (k.setFlags _ _ _ _ _ hs) h
    · cases h
  | ldRegReg dst src =>
    exact complete_keeps (len := 1) (r := copyByte (.reg dst) (.reg src) s) k h fun _ hu => copyByte_keeps k hs hu
  | ldRegImm dst n =>
    exact complete_keeps (len := 2) (r := copyByte (.reg dst) (.imm n) s) k h fun _ hu => copyByte_keeps k hs hu
  | ldRegMhl _ | ldMhlReg _ | ldMhlImm _ =>
    exact complete_keeps k h fun _ hu => copyByte_keeps k hs hu
  | ldAMbc | ldAMde | ldMbcA | ldMdeA | ldAMhlInc | ldAMhlDec | ldMhlIncA | ldMhlDecA =>
    exact complete_keeps k h fun _ hu => copyByte_keeps k hs hu
  | ldAMabs _ | ldMabsA _ | ldhAImm _ | ldhImmA _ | ldhAC | ldhCA =>
    exact complete_keeps k h fun _ hu => copyByte_keeps k hs hu

end Sys2Proof.Machine
end

