-- ==== Sys2Proof/Laws/PerInstr.lean ====
section
/-! SUPPORT. One lemma per instruction about its encoding: a well-formed instruction is one to three bytes, as many as
its row of the opcode table gives, and its first byte alone tells how many (30_encoding R84, R105). -/

namespace Sys2Proof.Laws

open Sys2Proof

/-- The encoding of `i` has `i.length` bytes, and that is what `opLength` says of its first byte. -/
def EncodedLength.Statement (i : Instr) : Prop :=
  WellFormed i → (encode i).length = i.length ∧ ∃ op rest, encode i = op :: rest ∧ opLength op = i.length

theorem EncodedLength.of_alu (y : BitVec 3) (src : Src8) :
    (encodeAlu y src).length = src.length ∧ ∃ op rest, encodeAlu y src = op :: rest ∧ opLength op = src.length := by
  have hr : ∀ y : BitVec 3, ∀ z : BitVec 3, opLength (opcode 2 y z) = 1 := by decide
  have hi : ∀ y : BitVec 3, opLength (opcode 3 y 6) = 2 := by decide
  cases src with
  | reg r => exact ⟨rfl, _, _, rfl, hr y r.code⟩
  | mhl => exact ⟨rfl, _, _, rfl, hr y 6⟩
  | imm n => exact ⟨rfl, _, _, rfl, hi y⟩

theorem EncodedLength.of_cb (x : BitVec 2) (y : BitVec 3) (t : RM8) :
    (encodeCb x y t).length = 2 ∧ ∃ op rest, encodeCb x y t = op :: rest ∧ opLength op = 2 :=
  ⟨rfl, _, _, rfl, rfl⟩

theorem EncodedLength.ldRegReg (dst : Reg8) (src : Reg8) : EncodedLength.Statement (.ldRegReg dst src) := by
  cases dst <;> cases src <;> exact fun _ => ⟨rfl, _, _, rfl, rfl⟩

theorem EncodedLength.ldRegImm (dst : Reg8) (n : Byte) : EncodedLength.Statement (.ldRegImm dst n) := by
  cases dst <;> exact fun _ => ⟨rfl, _, _, rfl, rfl⟩

theorem EncodedLength.ldRegMhl (dst : Reg8) : EncodedLength.Statement (.ldRegMhl dst) := by
  cases dst <;> exact fun _ => ⟨rfl, _, _, rfl, rfl⟩

theorem EncodedLength.ldMhlReg (src : Reg8) : EncodedLength.Statement (.ldMhlReg src) := by
  cases src <;> exact fun _ => ⟨rfl, _, _, rfl, rfl⟩

theorem EncodedLength.ldMhlImm (n : Byte) : EncodedLength.Statement (.ldMhlImm n) := fun _ => ⟨rfl, _, _, rfl, rfl⟩

theorem EncodedLength.ldAMbc : EncodedLength.Statement .ldAMbc := fun _ => ⟨rfl, _, _, rfl, rfl⟩

theorem EncodedLength.ldAMde : EncodedLength.Statement .ldAMde := fun _ => ⟨rfl, _, _, rfl, rfl⟩

theorem EncodedLength.ldMbcA : EncodedLength.Statement .ldMbcA := fun _ => ⟨rfl, _, _, rfl, rfl⟩

theorem EncodedLength.ldMdeA : EncodedLength.Statement .ldMdeA := fun _ => ⟨rfl, _, _, rfl, rfl⟩

theorem EncodedLength.ldAMhlInc : EncodedLength.Statement .ldAMhlInc := fun _ => ⟨rfl, _, _, rfl, rfl⟩

theorem EncodedLength.ldAMhlDec : EncodedLength.Statement .ldAMhlDec := fun _ => ⟨rfl, _, _, rfl, rfl⟩

theorem EncodedLength.ldMhlIncA : EncodedLength.Statement .ldMhlIncA := fun _ => ⟨rfl, _, _, rfl, rfl⟩

theorem EncodedLength.ldMhlDecA : EncodedLength.Statement .ldMhlDecA := fun _ => ⟨rfl, _, _, rfl, rfl⟩

theorem EncodedLength.ldAMabs (a : Word) : EncodedLength.Statement (.ldAMabs a) := fun _ => ⟨rfl, _, _, rfl, rfl⟩

theorem EncodedLength.ldMabsA (a : Word) : EncodedLength.Statement (.ldMabsA a) := fun _ => ⟨rfl, _, _, rfl, rfl⟩

theorem EncodedLength.ldhAImm (n : Byte) : EncodedLength.Statement (.ldhAImm n) := fun _ => ⟨rfl, _, _, rfl, rfl⟩

theorem EncodedLength.ldhImmA (n : Byte) : EncodedLength.Statement (.ldhImmA n) := fun _ => ⟨rfl, _, _, rfl, rfl⟩

theorem EncodedLength.ldhAC : EncodedLength.Statement .ldhAC := fun _ => ⟨rfl, _, _, rfl, rfl⟩

theorem EncodedLength.ldhCA : EncodedLength.Statement .ldhCA := fun _ => ⟨rfl, _, _, rfl, rfl⟩

theorem EncodedLength.ldMabsSp (a : Word) : EncodedLength.Statement (.ldMabsSp a) := fun _ => ⟨rfl, _, _, rfl, rfl⟩

theorem EncodedLength.ldPairImm (rr : R16) (n : Word) : EncodedLength.Statement (.ldPairImm rr n) := by
  cases rr <;> exact fun _ => ⟨rfl, _, _, rfl, rfl⟩

theorem EncodedLength.ldSpHl : EncodedLength.Statement .ldSpHl := fun _ => ⟨rfl, _, _, rfl, rfl⟩

theorem EncodedLength.ldHlSpE8 (e : Byte) : EncodedLength.Statement (.ldHlSpE8 e) := fun _ => ⟨rfl, _, _, rfl, rfl⟩

theorem EncodedLength.push (rr : R16Stk) : EncodedLength.Statement (.push rr) := by
  cases rr <;> exact fun _ => ⟨rfl, _, _, rfl, rfl⟩

theorem EncodedLength.pop (rr : R16Stk) : EncodedLength.Statement (.pop rr) := by
  cases rr <;> exact fun _ => ⟨rfl, _, _, rfl, rfl⟩

theorem EncodedLength.jp (a : Word) : EncodedLength.Statement (.jp a) := fun _ => ⟨rfl, _, _, rfl, rfl⟩

theorem EncodedLength.jpCond (cc : Cond) (a : Word) : EncodedLength.Statement (.jpCond cc a) := by
  cases cc <;> exact fun _ => ⟨rfl, _, _, rfl, rfl⟩

theorem EncodedLength.jpHl : EncodedLength.Statement .jpHl := fun _ => ⟨rfl, _, _, rfl, rfl⟩

theorem EncodedLength.jr (e : Byte) : EncodedLength.Statement (.jr e) := fun _ => ⟨rfl, _, _, rfl, rfl⟩

theorem EncodedLength.jrCond (cc : Cond) (e : Byte) : EncodedLength.Statement (.jrCond cc e) := by
  cases cc <;> exact fun _ => ⟨rfl, _, _, rfl, rfl⟩

theorem EncodedLength.call (a : Word) : EncodedLength.Statement (.call a) := fun _ => ⟨rfl, _, _, rfl, rfl⟩

theorem EncodedLength.callCond (cc : Cond) (a : Word) : EncodedLength.Statement (.callCond cc a) := by
  cases cc <;> exact fun _ => ⟨rfl, _, _, rfl, rfl⟩

theorem EncodedLength.ret : EncodedLength.Statement .ret := fun _ => ⟨rfl, _, _, rfl, rfl⟩

theorem EncodedLength.retCond (cc : Cond) : EncodedLength.Statement (.retCond cc) := by
  cases cc <;> exact fun _ => ⟨rfl, _, _, rfl, rfl⟩

theorem EncodedLength.reti : EncodedLength.Statement .reti := fun _ => ⟨rfl, _, _, rfl, rfl⟩

theorem EncodedLength.rst (y : BitVec 3) : EncodedLength.Statement (.rst y) := by
  have key : ∀ y : BitVec 3, opLength (opcode 3 y 7) = 1 := by decide
  exact fun _ => ⟨rfl, _, _, rfl, key y⟩

theorem EncodedLength.add (src : Src8) : EncodedLength.Statement (.add src) := fun _ => EncodedLength.of_alu 0 src

theorem EncodedLength.adc (src : Src8) : EncodedLength.Statement (.adc src) := fun _ => EncodedLength.of_alu 1 src

theorem EncodedLength.sub (src : Src8) : EncodedLength.Statement (.sub src) := fun _ => EncodedLength.of_alu 2 src

theorem EncodedLength.sbc (src : Src8) : EncodedLength.Statement (.sbc src) := fun _ => EncodedLength.of_alu 3 src

theorem EncodedLength.and (src : Src8) : EncodedLength.Statement (.and src) := fun _ => EncodedLength.of_alu 4 src

theorem EncodedLength.xor (src : Src8) : EncodedLength.Statement (.xor src) := fun _ => EncodedLength.of_alu 5 src

theorem EncodedLength.or (src : Src8) : EncodedLength.Statement (.or src) := fun _ => EncodedLength.of_alu 6 src

theorem EncodedLength.cp (src : Src8) : EncodedLength.Statement (.cp src) := fun _ => EncodedLength.of_alu 7 src

theorem EncodedLength.incReg (r : Reg8) : EncodedLength.Statement (.incReg r) := by
  cases r <;> exact fun _ => ⟨rfl, _, _, rfl, rfl⟩

theorem EncodedLength.incMhl : EncodedLength.Statement .incMhl := fun _ => ⟨rfl, _, _, rfl, rfl⟩

theorem EncodedLength.decReg (r : Reg8) : EncodedLength.Statement (.decReg r) := by
  cases r <;> exact fun _ => ⟨rfl, _, _, rfl, rfl⟩

theorem EncodedLength.decMhl : EncodedLength.Statement .decMhl := fun _ => ⟨rfl, _, _, rfl, rfl⟩

theorem EncodedLength.rlca : EncodedLength.Statement .rlca := fun _ => ⟨rfl, _, _, rfl, rfl⟩

theorem EncodedLength.rrca : EncodedLength.Statement .rrca := fun _ => ⟨rfl, _, _, rfl, rfl⟩

theorem EncodedLength.rla : EncodedLength.Statement .rla := fun _ => ⟨rfl, _, _, rfl, rfl⟩

theorem EncodedLength.rra : EncodedLength.Statement .rra := fun _ => ⟨rfl, _, _, rfl, rfl⟩

theorem EncodedLength.daa : EncodedLength.Statement .daa := fun _ => ⟨rfl, _, _, rfl, rfl⟩

theorem EncodedLength.cpl : EncodedLength.Statement .cpl := fun _ => ⟨rfl, _, _, rfl, rfl⟩

theorem EncodedLength.scf : EncodedLength.Statement .scf := fun _ => ⟨rfl, _, _, rfl, rfl⟩

theorem EncodedLength.ccf : EncodedLength.Statement .ccf := fun _ => ⟨rfl, _, _, rfl, rfl⟩

theorem EncodedLength.addHl (rr : R16) : EncodedLength.Statement (.addHl rr) := by
  cases rr <;> exact fun _ => ⟨rfl, _, _, rfl, rfl⟩

theorem EncodedLength.incPair (rr : R16) : EncodedLength.Statement (.incPair rr) := by
  cases rr <;> exact fun _ => ⟨rfl, _, _, rfl, rfl⟩

theorem EncodedLength.decPair (rr : R16) : EncodedLength.Statement (.decPair rr) := by
  cases rr <;> exact fun _ => ⟨rfl, _, _, rfl, rfl⟩

theorem EncodedLength.addSpE8 (e : Byte) : EncodedLength.Statement (.addSpE8 e) := fun _ => ⟨rfl, _, _, rfl, rfl⟩

theorem EncodedLength.rlc (t : RM8) : EncodedLength.Statement (.rlc t) := fun _ => EncodedLength.of_cb 0 0 t

theorem EncodedLength.rrc (t : RM8) : EncodedLength.Statement (.rrc t) := fun _ => EncodedLength.of_cb 0 1 t

theorem EncodedLength.rl (t : RM8) : EncodedLength.Statement (.rl t) := fun _ => EncodedLength.of_cb 0 2 t

theorem EncodedLength.rr (t : RM8) : EncodedLength.Statement (.rr t) := fun _ => EncodedLength.of_cb 0 3 t

theorem EncodedLength.sla (t : RM8) : EncodedLength.Statement (.sla t) := fun _ => EncodedLength.of_cb 0 4 t

theorem EncodedLength.sra (t : RM8) : EncodedLength.Statement (.sra t) := fun _ => EncodedLength.of_cb 0 5 t

theorem EncodedLength.swap (t : RM8) : EncodedLength.Statement (.swap t) := fun _ => EncodedLength.of_cb 0 6 t

theorem EncodedLength.srl (t : RM8) : EncodedLength.Statement (.srl t) := fun _ => EncodedLength.of_cb 0 7 t

theorem EncodedLength.bit (b : BitVec 3) (t : RM8) : EncodedLength.Statement (.bit b t) := fun _ => EncodedLength.of_cb 1 b t

theorem EncodedLength.res (b : BitVec 3) (t : RM8) : EncodedLength.Statement (.res b t) := fun _ => EncodedLength.of_cb 2 b t

theorem EncodedLength.set (b : BitVec 3) (t : RM8) : EncodedLength.Statement (.set b t) := fun _ => EncodedLength.of_cb 3 b t

theorem EncodedLength.nop : EncodedLength.Statement .nop := fun _ => ⟨rfl, _, _, rfl, rfl⟩

theorem EncodedLength.halt : EncodedLength.Statement .halt := fun _ => ⟨rfl, _, _, rfl, rfl⟩

theorem EncodedLength.stop (n : Byte) : EncodedLength.Statement (.stop n) := fun _ => ⟨rfl, _, _, rfl, rfl⟩

theorem EncodedLength.di : EncodedLength.Statement .di := fun _ => ⟨rfl, _, _, rfl, rfl⟩

theorem EncodedLength.ei : EncodedLength.Statement .ei := fun _ => ⟨rfl, _, _, rfl, rfl⟩

theorem EncodedLength.illegal (op : Byte) : EncodedLength.Statement (.illegal op) := by
  have key : ∀ op ∈ illegalBytes, opLength op = 1 := by decide
  exact fun h => ⟨rfl, _, _, rfl, key op (by simpa [WellFormed, Instr.wellFormed] using h)⟩

end Sys2Proof.Laws
end

