-- ==== Sys2Proof/Laws/Run.lean ====
section
/-! SUPPORT. What a run can come out as (70_reset_and_hazards R286). -/

namespace Sys2Proof.Machine

open Sys2Proof

/-- A boundary at which the run goes on: no fault is latched and `RunEnds` does not hold. -/
abbrev GoesOn (endPc : Word) (s : State) : Prop := s.fault = none ∧ ¬ RunEnds endPc s

theorem runEvents_cons (e : Event) (es : List Event) (s : State) :
    runEvents (e :: es) s = (runEvent e s).bind (runEvents es) := by
  simp only [runEvents]; cases runEvent e s <;> rfl

/-- The ways one boundary of a run can come out. -/
theorem runUntil_cases (endPc : Word) (es : List Event) (s : State) :
    (∃ f, s.fault = some f ∧ runUntil endPc es s = .faulted s f) ∨
    (RunEnds endPc s ∧ runUntil endPc es s = .ended s) ∨
    (GoesOn endPc s ∧
      ((es = [] ∧ runUntil endPc es s = .unfinished s) ∨
        ∃ e rest, es = e :: rest ∧
          ((runEvent e s = none ∧ runUntil endPc es s = .refused s) ∨
            ∃ t, runEvent e s = some t ∧ runUntil endPc es s = runUntil endPc rest t))) := by
  cases hf : s.fault with
  | some f => exact .inl ⟨f, rfl, by unfold runUntil; split <;> simp_all⟩
  | none =>
    by_cases he : RunEnds endPc s
    · exact .inr (.inl ⟨he, by unfold runUntil; split <;> simp_all⟩)
    · refine .inr (.inr ⟨⟨hf, he⟩, ?_⟩)
      cases es with
      | nil => exact .inl ⟨rfl, by simp only [runUntil]; split <;> simp_all⟩
      | cons e rest =>
        refine .inr ⟨e, rest, rfl, ?_⟩
        cases hv : runEvent e s with
        | none => exact .inl ⟨rfl, by simp only [runUntil]; split <;> simp_all⟩
        | some t => exact .inr ⟨t, rfl, by rw [runUntil]; split <;> simp_all⟩

/-- A run that ends does so at the first boundary that `RunEnds` accepts, with no fault before it. -/
theorem runUntil_ended_first {endPc : Word} {es : List Event} {s t : State} (h : runUntil endPc es s = .ended t) :
    RunEnds endPc t ∧ ∃ before after, es = before ++ after ∧ runEvents before s = some t ∧
      ∀ p q, before = p ++ q → q ≠ [] → ∃ u, runEvents p s = some u ∧ GoesOn endPc u := by
  induction es generalizing s with
  | nil =>
    rcases runUntil_cases endPc [] s with ⟨_, _, hr⟩ | ⟨he, hr⟩ | ⟨_, ⟨_, hr⟩ | ⟨_, _, hc, _⟩⟩
    · rw [hr] at h; cases h
    · rw [hr] at h; cases h
      exact ⟨he, [], [], rfl, rfl, fun p q hpq hq => absurd (List.append_eq_nil_iff.mp hpq.symm).2 hq⟩
    · rw [hr] at h; cases h
    · cases hc
  | cons e rest ih =>
    rcases runUntil_cases endPc (e :: rest) s with ⟨_, _, hr⟩ | ⟨he, hr⟩ | ⟨hg, ⟨hc, _⟩ | ⟨e', rest', hc, hs⟩⟩
    · rw [hr] at h; cases h
    · rw [hr] at h; cases h
      exact ⟨he, [], e :: rest, rfl, rfl, fun p q hpq hq => absurd (List.append_eq_nil_iff.mp hpq.symm).2 hq⟩
    · cases hc
    · obtain ⟨rfl, rfl⟩ := List.cons.inj hc
      rcases hs with ⟨_, hr⟩ | ⟨u, hu, hr⟩
      · rw [hr] at h; cases h
      · rw [hr] at h
        obtain ⟨he, before, after, rfl, hb, hfirst⟩ := ih h
        refine ⟨he, e :: before, after, rfl, by rw [runEvents_cons, hu]; exact hb, fun p q hpq hq => ?_⟩
        cases p with
        | nil => exact ⟨s, rfl, hg⟩
        | cons d p =>
          obtain ⟨rfl, htail⟩ := List.cons.inj hpq
          obtain ⟨w, hw, hgw⟩ := hfirst p q htail hq
          exact ⟨w, by rw [runEvents_cons, hu]; exact hw, hgw⟩

/-- A faulted run shows the latched fault. -/
theorem runUntil_faulted {endPc : Word} {es : List Event} {s t : State} {f : Fault}
    (h : runUntil endPc es s = .faulted t f) : t.fault = some f := by
  induction es generalizing s with
  | nil =>
    rcases runUntil_cases endPc [] s with ⟨_, hf, hr⟩ | ⟨_, hr⟩ | ⟨_, ⟨_, hr⟩ | ⟨_, _, hc, _⟩⟩
    · rw [hr] at h; cases h; exact hf
    · rw [hr] at h; cases h
    · rw [hr] at h; cases h
    · cases hc
  | cons e rest ih =>
    rcases runUntil_cases endPc (e :: rest) s with ⟨_, hf, hr⟩ | ⟨_, hr⟩ | ⟨_, ⟨hc, _⟩ | ⟨e', rest', hc, hs⟩⟩
    · rw [hr] at h; cases h; exact hf
    · rw [hr] at h; cases h
    · cases hc
    · obtain ⟨rfl, rfl⟩ := List.cons.inj hc
      rcases hs with ⟨_, hr⟩ | ⟨u, _, hr⟩
      · rw [hr] at h; cases h
      · rw [hr] at h; exact ih h

end Sys2Proof.Machine
end

