-- ==== Sys2Proof/Laws/Step.lean ====
section
/-! SUPPORT. What a fetch and a step can do. -/

namespace Sys2Proof.Machine

open Sys2Proof

/-- A fetch that answers: the opcode byte, and as many bytes after it as its length counts (R63, R80). -/
theorem fetchInstr_inv {s : State} {i : Instr} (h : fetchInstr s = .ok i) :
    inStore s.params s.pc.toNat = true ∧ ∃ n1 n2, i = decodeOp (s.peek s.pc.toNat) n1 n2 := by
  unfold fetchInstr at h
  rcases memRead_cases s s.pc.toNat with ⟨ha, hr⟩ | ⟨_, hr⟩ <;> rw [hr] at h
  · refine ⟨ha, ?_⟩
    simp only at h
    split at h
    · exact ⟨_, _, (Except.ok.inj h).symm⟩
    · split at h
      · cases h
      · exact ⟨_, _, (Except.ok.inj h).symm⟩
    · split at h
      · cases h
      · exact ⟨_, _, (Except.ok.inj h).symm⟩
  · cases h

/-- The ways a step answers a next state (R80). -/
theorem step_next {s t : State} (h : step s = .next t) :
    (s.fault = none ∧ (s.halted = true ∨ s.stopped = true) ∧ t = s) ∨
    (s.fault = none ∧ s.halted = false ∧ s.stopped = false ∧
      ∃ i u, fetchInstr s = .ok i ∧ exec i s = .next u ∧ t = u.enableDelayed s.eiPending) := by
  unfold step at h
  split at h
  · cases h
  · rename_i hf
    split at h
    · rename_i hw
      exact .inl ⟨hf, by simpa using hw, (Host.Outcome.next.inj h).symm⟩
    · rename_i hw
      simp only [Bool.or_eq_true, not_or, Bool.not_eq_true] at hw
      split at h
      · cases h
      · rename_i i hi
        obtain ⟨u, hu, rfl⟩ := finishStep_next h
        exact .inr ⟨hf, hw.1, hw.2, i, u, hi, hu, rfl⟩

/-- The ways a step faults (R250, R256). -/
theorem step_fault {s : State} {f : Fault} (h : step s = .fault f) :
    s.fault = some f ∨
    (s.fault = none ∧ s.halted = false ∧ s.stopped = false ∧
      (fetchInstr s = .error f ∨ ∃ i, fetchInstr s = .ok i ∧ exec i s = .fault f)) := by
  unfold step at h
  split at h
  · rename_i g hg
    exact .inl (hg.trans (congrArg some (Host.Outcome.fault.inj h)))
  · rename_i hf
    split at h
    · cases h
    · rename_i hw
      simp only [Bool.or_eq_true, not_or, Bool.not_eq_true] at hw
      refine .inr ⟨hf, hw.1, hw.2, ?_⟩
      split at h
      · rename_i g hg
        exact .inl (hg.trans (congrArg Except.error (Host.Outcome.fault.inj h)))
      · rename_i i hi
        exact .inr ⟨i, hi, finishStep_fault h⟩

/-- The step of a running CORE whose fetch answers (R80). -/
theorem step_running {s : State} {i : Instr} (hf : s.fault = none) (hh : s.halted = false) (hs : s.stopped = false)
    (hi : fetchInstr s = .ok i) : step s = finishStep s.eiPending (exec i s) := by
  simp [step, hf, hh, hs, hi]

end Sys2Proof.Machine
end

