-- ==== Sys2Proof/Tests/Slice0.lean ====
section
/-! SUPPORT. The model's own tests. Every expected value is the spec's: 95_test_vectors names its vectors, and the
encodings are written out from 30_encoding R97 to R101. One step each, on a state that names only what matters. -/

namespace Sys2Proof.Tests

open Sys2Proof Sys2Proof.Machine Sys2Proof.Claim

/-- `s` with PC at `pc` and the bytes there. -/
def start (pc : Word) (bytes : List Byte) (s : State) : State := placeBytes { s with pc := pc } pc.toNat bytes

/-- What `view` shows of the state after one step, if there is one. -/
def after {α : Type} (s : State) (view : State → α) : Option α :=
  match step s with
  | .next t => some (view t)
  | .fault _ => none
  | .refused _ => none

/-- The fault of one step, if it faults. -/
def faultOf (s : State) : Option Fault :=
  match step s with
  | .next _ => none
  | .fault f => some f
  | .refused _ => none

/-- The defaults with ADDR_POLICY = Wrap (R7). -/
def wrapping : Params := { Params.default with addrPolicy := .wrap }

/-- The defaults with STACK_MODE = SM83 (R7). -/
def hardwareStack : Params := { Params.default with stackMode := .sm83 }

/-! ### Well-formedness and decoding -/

/-- R103: 0x00 is NOP, no illegal byte. -/
theorem test_wellFormed_refuses_other_bytes : Instr.wellFormed (.illegal 0x00) = false := by decide

theorem test_wellFormed_accepts_illegal_byte : Instr.wellFormed (.illegal 0xD3) = true := by decide

/-- Loads (R98): `01 000 101`, LD B,L. -/
theorem test_decode_ldRegReg : decodeOp 0b01000101 0 0 = .ldRegReg .b .l := by decide

/-- Loads (R97): `00 11 1 010`, LD A,(HL-). -/
theorem test_decode_ldAMhlDec : decodeOp 0b00111010 0 0 = .ldAMhlDec := by decide

/-- Loads (R100): `11 101 010` and a16, low byte first. -/
theorem test_decode_ldMabsA : decodeOp 0b11101010 0x23 0xC1 = .ldMabsA 0xC123 := by decide

/-- Loads (R100): `11 10 0 101`, PUSH HL. -/
theorem test_decode_push : decodeOp 0b11100101 0 0 = .push .hl := by decide

/-- Control (R100): `11 0 10 010` and a16, JP NC. -/
theorem test_decode_jpCond : decodeOp 0b11010010 0x34 0x12 = .jpCond .nc 0x1234 := by decide

/-- Control (R97): `00 1 01 000` and e8, JR Z. -/
theorem test_decode_jrCond : decodeOp 0b00101000 0xFC 0 = .jrCond .z 0xFC := by decide

/-- Control (R100): `11 101 111`, RST 0x28. -/
theorem test_decode_rst : decodeOp 0b11101111 0 0 = .rst 5 := by decide

/-- 8-bit arithmetic (R99): `10 011 110`, SBC A,(HL). -/
theorem test_decode_sbc : decodeOp 0b10011110 0 0 = .sbc .mhl := by decide

/-- 8-bit arithmetic (R100): `11 111 110` and n8, CP A,n8. -/
theorem test_decode_cp : decodeOp 0b11111110 0x2F 0 = .cp (.imm 0x2F) := by decide

/-- 8-bit arithmetic (R97): `00 110 101`, DEC (HL). -/
theorem test_decode_decMhl : decodeOp 0b00110101 0 0 = .decMhl := by decide

/-- 16-bit arithmetic (R97): `00 11 1 001`, ADD HL,SP. -/
theorem test_decode_addHl : decodeOp 0b00111001 0 0 = .addHl .sp := by decide

/-- 0xCB (R101): `00 110 110`, SWAP (HL). -/
theorem test_decode_swap : decodeOp 0xCB 0b00110110 0 = .swap .mhl := by decide

/-- 0xCB (R101): `10 101 011`, RES 5,E. -/
theorem test_decode_res : decodeOp 0xCB 0b10101011 0 = .res 5 (.reg .e) := by decide

/-- System (R98): `01 110 110`, HALT in the place of LD (HL),(HL). -/
theorem test_decode_halt : decodeOp 0b01110110 0 0 = .halt := by decide

/-- Illegal (R103): `11 011 101`. -/
theorem test_decode_illegal : decodeOp 0b11011101 0 0 = .illegal 0xDD := by decide

/-- The table's number of a 0xCB row: SET 3,(HL), 0xCBDE. -/
theorem test_decodeTableWord_cb : decodeTableWord 16 0xCBDE = some (.set 3 .mhl) := by decide

/-- The table gives operand bytes no bits: LD BC,n16 is 8 bits wide. -/
theorem test_decodeTableWord_short : decodeTableWord 8 0x01 = some (.ldPairImm .bc 0) := by decide

/-- The instruction placed for the host runs in the first step after reset. -/
theorem test_withFetchWord : after (State.reset.withFetchWord 16 0xCB37) (fun t => (t.pc, t.f)) = some (0x0002, 0x80) := by
  decide

/-- R84, R92: an opcode byte, then a16 low byte first. -/
theorem test_encode_word : encode (.ldMabsSp 0xC123) = [0x08, 0x23, 0xC1] := by decide

/-! ### One step per instruction -/

/-- 95_test_vectors V-LD-2. -/
theorem test_ldRegReg :
    after (start 0x0100 [0x45] { State.reset with bc := 0x0100, hl := 0x0080 }) (fun t => (t.bc, t.pc)) =
      some (0x8000, 0x0101) := by decide

/-- 95_test_vectors V-LD-3. -/
theorem test_ldRegImm :
    after (start 0x0100 [0x2E, 0xFF] { State.reset with af := 0x00B0 }) (fun t => (t.hl, t.af)) =
      some (0x00FF, 0x00B0) := by decide

/-- 95_test_vectors V-LD-4. -/
theorem test_ldRegMhl_address_first :
    after (start 0x0100 [0x66] { State.reset with hl := 0xC0D0, mem := [(0xC0D0, 0x12)] }) (fun t => (t.hl, t.pc)) =
      some (0x12D0, 0x0101) := by decide

/-- 95_test_vectors V-LD-6. -/
theorem test_ldMhlReg :
    after (start 0x0100 [0x75] { State.reset with hl := 0xC0D0 }) (fun t => (cell t 0xC0D0, t.pc)) =
      some (0xD0, 0x0101) := by decide

/-- 95_test_vectors V-LD-7. -/
theorem test_ldMhlImm_last_address :
    after (start 0x0100 [0x36, 0x00] { State.reset with hl := 0xFFFF, mem := [(0xFFFF, 0x1F)] }) (fun t => (cell t 0xFFFF, t.pc)) =
      some (0x00, 0x0102) := by decide

/-- 95_test_vectors V-LD-8. -/
theorem test_ldAMbc :
    after (start 0x0100 [0x0A] { State.reset with bc := 0x0100, af := 0x0030 }) (fun t => (t.af, t.pc)) =
      some (0x0A30, 0x0101) := by decide

/-- 95_test_vectors V-LD-15. -/
theorem test_ldAMde :
    after (start 0x0100 [0x1A] { State.reset with de := 0x0000, mem := [(0x0000, 0xE0)] }) (fun t => (t.af, t.pc)) =
      some (0xE000, 0x0101) := by decide

/-- 95_test_vectors V-LD-9. -/
theorem test_ldMbcA :
    after (start 0x0100 [0x02] { State.reset with bc := 0x0101, af := 0x7600 }) (fun t => (cell t 0x0101, t.pc)) =
      some (0x76, 0x0101) := by decide

/-- 95_test_vectors V-LD-14. -/
theorem test_ldMdeA :
    after (start 0x0100 [0x12] { State.reset with de := 0xFF80, af := 0x5500 }) (fun t => (cell t 0xFF80, t.pc)) =
      some (0x55, 0x0101) := by decide

/-- 95_test_vectors V-LD-10. -/
theorem test_ldAMhlInc_wraps :
    after (start 0x0100 [0x2A] { State.reset with hl := 0xFFFF, mem := [(0x0000, 0x77), (0xFFFF, 0xAB)] }) (fun t => (t.af, t.hl)) =
      some (0xAB00, 0x0000) := by decide

/-- 95_test_vectors V-LD-13. -/
theorem test_ldAMhlDec :
    after (start 0x0100 [0x3A] { State.reset with hl := 0x0100, af := 0x0010 }) (fun t => (t.af, t.hl)) =
      some (0x3A10, 0x00FF) := by decide

/-- 95_test_vectors L1-8. -/
theorem test_ldMhlIncA :
    after (start 0x0100 [0x22] { State.reset with hl := 0x1000, af := 0x0700 }) (fun t => (cell t 0x1000, t.hl)) =
      some (0x07, 0x1001) := by decide

/-- 95_test_vectors V-LD-11. -/
theorem test_ldMhlDecA_wraps :
    after (start 0x0100 [0x32] { State.reset with hl := 0x0000, af := 0x3C00 }) (fun t => (cell t 0x0000, t.hl)) =
      some (0x3C, 0xFFFF) := by decide

/-- 95_test_vectors V-LD-20. -/
theorem test_ldAMabs :
    after (start 0x0100 [0xFA, 0xFF, 0xFF] { State.reset with mem := [(0xFFFF, 0x42)] }) (fun t => (t.af, t.pc)) =
      some (0x4200, 0x0103) := by decide

/-- 95_test_vectors V-LD-21. -/
theorem test_ldMabsA :
    after (start 0x0200 [0xEA, 0x00, 0x00] { State.reset with af := 0x9900 }) (fun t => (cell t 0x0000, t.pc)) =
      some (0x99, 0x0203) := by decide

/-- 95_test_vectors V-LD-18. -/
theorem test_ldhAImm :
    after (start 0x0100 [0xF0, 0xFF] { State.reset with mem := [(0xFFFF, 0x01)] }) (fun t => (t.af, t.pc)) =
      some (0x0100, 0x0102) := by decide

/-- 95_test_vectors V-LD-19. -/
theorem test_ldhImmA :
    after (start 0x0100 [0xE0, 0x0F] { State.reset with af := 0xE100 }) (fun t => (cell t 0xFF0F, t.pc)) =
      some (0xE1, 0x0102) := by decide

/-- 95_test_vectors V-LD-16. -/
theorem test_ldhAC :
    after (start 0x0100 [0xF2] { State.reset with bc := 0x00FF, mem := [(0xFFFF, 0x1F)] }) (fun t => (t.af, t.pc)) =
      some (0x1F00, 0x0101) := by decide

/-- 95_test_vectors V-LD-17. -/
theorem test_ldhCA :
    after (start 0x0100 [0xE2] { State.reset with bc := 0x0000, af := 0x3000 }) (fun t => (cell t 0xFF00, t.pc)) =
      some (0x30, 0x0101) := by decide

/-- 95_test_vectors V-LD-22. -/
theorem test_ldMabsSp :
    after (start 0x0100 [0x08, 0xFE, 0xFF] { State.reset with sp := 0xABCD }) (fun t => (cell t 0xFFFE, cell t 0xFFFF)) =
      some (0xCD, 0xAB) := by decide

/-- 95_test_vectors V-LD-24. -/
theorem test_ldMabsSp_wrap :
    after (start 0x0100 [0x08, 0xFF, 0xFF] { State.reset with sp := 0xABCD, params := wrapping }) (fun t => (cell t 0xFFFF, cell t 0x0000)) =
      some (0xCD, 0xAB) := by decide

/-- 95_test_vectors V-LD-26. -/
theorem test_ldPairImm :
    after (start 0x0100 [0x01, 0xCD, 0xAB] { State.reset with af := 0x0050 }) (fun t => (t.bc, t.af)) =
      some (0xABCD, 0x0050) := by decide

/-- 95_test_vectors V-LD-27. -/
theorem test_ldSpHl :
    after (start 0x0100 [0xF9] { State.reset with hl := 0x0000, sp := 0xFFFE }) (fun t => (t.sp, t.pc)) =
      some (0x0000, 0x0101) := by decide

/-- 95_test_vectors V-LD-30. -/
theorem test_ldHlSpE8_negative :
    after (start 0x0100 [0xF8, 0x80] { State.reset with sp := 0x1234, af := 0x0080 }) (fun t => (t.hl, t.f)) =
      some (0x11B4, 0x00) := by decide

/-- 95_test_vectors V-LD-29. -/
theorem test_ldHlSpE8_flags :
    after (start 0x0100 [0xF8, 0x01] { State.reset with sp := 0xFFFF }) (fun t => (t.hl, t.f)) =
      some (0x0000, 0x30) := by decide

/-- 95_test_vectors V-LD-32. -/
theorem test_push_doc :
    after (start 0x0100 [0xF5] { State.reset with af := 0x12B0, sp := 0xDFFE }) (fun t => (cell t 0xDFFE, cell t 0xDFFD, t.sp)) =
      some (0x12, 0xB0, 0xDFFC) := by decide

/-- 95_test_vectors V-LD-33. -/
theorem test_push_sm83 :
    after (start 0x0100 [0xF5] { State.reset with af := 0x12B0, sp := 0xDFFE, params := hardwareStack }) (fun t => (cell t 0xDFFD, cell t 0xDFFC, t.sp)) =
      some (0x12, 0xB0, 0xDFFC) := by decide

/-- 95_test_vectors V-LD-37. -/
theorem test_pop_sm83 :
    after (start 0x0100 [0xC1] { State.reset with sp := 0xFFFE, mem := [(0xFFFE, 0xCD), (0xFFFF, 0xAB)], params := hardwareStack }) (fun t => (t.bc, t.sp)) =
      some (0xABCD, 0x0000) := by decide

/-- 95_test_vectors V-LD-38. -/
theorem test_pop_af_masks :
    after (start 0x0100 [0xF1] { State.reset with af := 0xFFF0, sp := 0xDFFC, mem := [(0xDFFD, 0x0F), (0xDFFE, 0x12)] }) (fun t => (t.af, t.sp)) =
      some (0x1200, 0xDFFE) := by decide

/-- 95_test_vectors L1-4b. -/
theorem test_jp :
    after (start 0x0100 [0xC3, 0x00, 0x02] { State.reset with af := 0x00F0 }) (fun t => (t.pc, t.af)) =
      some (0x0200, 0x00F0) := by decide

/-- 95_test_vectors V-CT-11. -/
theorem test_jpCond_reads_bit_4 :
    after (start 0x0100 [0xDA, 0x34, 0x12] { State.reset with af := 0x00E0 }) (fun t => t.pc) =
      some 0x0103 := by decide

/-- 95_test_vectors L1-6c. -/
theorem test_jpCond_reads_bit_7 :
    after (start 0x0100 [0xCA, 0x00, 0x02] { State.reset with af := 0x00A0 }) (fun t => t.pc) =
      some 0x0200 := by decide

/-- 95_test_vectors V-CT-12. -/
theorem test_jpHl :
    after (start 0x0100 [0xE9] { State.reset with hl := 0x4000, af := 0x00F0 }) (fun t => (t.pc, t.hl)) =
      some (0x4000, 0x4000) := by decide

/-- 95_test_vectors V-CT-16. -/
theorem test_jr_backward_wraps :
    after (start 0x0000 [0x18, 0xF0] State.reset) (fun t => t.pc) =
      some 0xFFF2 := by decide

/-- 95_test_vectors V-CT-14. -/
theorem test_jr_forward :
    after (start 0x0100 [0x18, 0x7F] State.reset) (fun t => t.pc) =
      some 0x0181 := by decide

/-- 95_test_vectors V-CT-20. -/
theorem test_jrCond_taken :
    after (start 0x0100 [0x30, 0x10] { State.reset with af := 0x00E0 }) (fun t => t.pc) =
      some 0x0112 := by decide

/-- 95_test_vectors V-CT-21. -/
theorem test_jrCond_not_taken :
    after (start 0x0100 [0x38, 0x10] { State.reset with af := 0x00E0 }) (fun t => t.pc) =
      some 0x0102 := by decide

/-- 95_test_vectors V-CT-22. -/
theorem test_call_doc :
    after (start 0x1234 [0xCD, 0x00, 0x40] { State.reset with sp := 0xDFFE }) (fun t => (t.pc, cell t 0xDFFE, cell t 0xDFFD)) =
      some (0x4000, 0x12, 0x37) := by decide

/-- 95_test_vectors V-CT-23. -/
theorem test_call_sm83 :
    after (start 0x1234 [0xCD, 0x00, 0x40] { State.reset with sp := 0xDFFE, params := hardwareStack }) (fun t => (t.pc, cell t 0xDFFD, cell t 0xDFFC)) =
      some (0x4000, 0x12, 0x37) := by decide

/-- 95_test_vectors V-CT-25. -/
theorem test_callCond_not_taken :
    after (start 0x0100 [0xDC, 0x00, 0x40] { State.reset with sp := 0xDFFE }) (fun t => (t.pc, t.sp)) =
      some (0x0103, 0xDFFE) := by decide

/-- 95_test_vectors V-CT-26. -/
theorem test_callCond_taken :
    after (start 0x0100 [0xC4, 0x00, 0x40] { State.reset with sp := 0xDFFE }) (fun t => (t.pc, cell t 0xDFFD)) =
      some (0x4000, 0x03) := by decide

/-- 95_test_vectors V-CT-27. -/
theorem test_ret :
    after (start 0x0100 [0xC9] { State.reset with sp := 0xDFFC, mem := [(0xDFFD, 0x37), (0xDFFE, 0x12)] }) (fun t => (t.pc, t.sp)) =
      some (0x1237, 0xDFFE) := by decide

/-- 95_test_vectors V-CT-30. -/
theorem test_retCond_taken :
    after (start 0x0100 [0xC8] { State.reset with sp := 0xDFFC, af := 0x0080, mem := [(0xDFFD, 0x37), (0xDFFE, 0x12)] }) (fun t => (t.pc, t.sp)) =
      some (0x1237, 0xDFFE) := by decide

/-- 95_test_vectors V-CT-29. -/
theorem test_retCond_not_taken :
    after (start 0x0100 [0xC8] { State.reset with sp := 0xDFFC, mem := [(0xDFFD, 0x37), (0xDFFE, 0x12)] }) (fun t => (t.pc, t.sp)) =
      some (0x0101, 0xDFFC) := by decide

/-- 95_test_vectors V-CT-34. -/
theorem test_reti_pending :
    after (start 0x0100 [0xD9] { State.reset with sp := 0xDFFC, eiPending := true, mem := [(0xDFFD, 0x37), (0xDFFE, 0x12)] }) (fun t => (t.pc, t.ime, t.eiPending)) =
      some (0x1237, true, false) := by decide

/-- 95_test_vectors V-CT-37. -/
theorem test_rst :
    after (start 0x0234 [0xD7] { State.reset with sp := 0xDFFE }) (fun t => (t.pc, cell t 0xDFFE, cell t 0xDFFD)) =
      some (0x0010, 0x02, 0x35) := by decide

/-- 95_test_vectors V-A8-1. -/
theorem test_add :
    after (start 0x0100 [0xC6, 0x01] { State.reset with af := 0xFF00 }) (fun t => t.af) =
      some 0x00B0 := by decide

/-- 95_test_vectors V-A8-3. -/
theorem test_add_same_register :
    after (start 0x0100 [0x87] { State.reset with af := 0x8800 }) (fun t => t.af) =
      some 0x1030 := by decide

/-- 95_test_vectors V-A8-6. -/
theorem test_adc :
    after (start 0x0100 [0xCE, 0x00] { State.reset with af := 0x0F10 }) (fun t => t.af) =
      some 0x1020 := by decide

/-- 95_test_vectors V-A8-7. -/
theorem test_adc_carry_and_all_ones :
    after (start 0x0100 [0xCE, 0xFF] { State.reset with af := 0x0010 }) (fun t => t.af) =
      some 0x00B0 := by decide

/-- 95_test_vectors V-A8-9. -/
theorem test_sub :
    after (start 0x0100 [0xD6, 0x01] { State.reset with af := 0x0000 }) (fun t => t.af) =
      some 0xFF70 := by decide

/-- 95_test_vectors V-A8-14. -/
theorem test_sbc :
    after (start 0x0100 [0xDE, 0xFF] { State.reset with af := 0xFF10 }) (fun t => t.af) =
      some 0xFF70 := by decide

/-- 95_test_vectors V-A8-13. -/
theorem test_sbc_to_zero :
    after (start 0x0100 [0xDE, 0x0F] { State.reset with af := 0x1010 }) (fun t => t.af) =
      some 0x00E0 := by decide

/-- 95_test_vectors V-A8-16. -/
theorem test_and :
    after (start 0x0100 [0xE6, 0x00] { State.reset with af := 0xFF10 }) (fun t => t.af) =
      some 0x00A0 := by decide

/-- 95_test_vectors V-A8-18. -/
theorem test_xor :
    after (start 0x0100 [0xAF] { State.reset with af := 0xC370 }) (fun t => t.af) =
      some 0x0080 := by decide

/-- 95_test_vectors V-A8-20. -/
theorem test_or :
    after (start 0x0100 [0xF6, 0x80] { State.reset with af := 0x0100 }) (fun t => t.af) =
      some 0x8100 := by decide

/-- 95_test_vectors V-A8-23. -/
theorem test_cp :
    after (start 0x0100 [0xBE] { State.reset with af := 0x1000, hl := 0xC000, mem := [(0xC000, 0x01)] }) (fun t => t.af) =
      some 0x1060 := by decide

/-- 95_test_vectors V-A8-25. -/
theorem test_incReg :
    after (start 0x0100 [0x3C] { State.reset with af := 0x0F10 }) (fun t => t.af) =
      some 0x1030 := by decide

/-- 95_test_vectors V-A8-28. -/
theorem test_incMhl :
    after (start 0x0100 [0x34] { State.reset with af := 0x0010, hl := 0xC000, mem := [(0xC000, 0xFF)] }) (fun t => (cell t 0xC000, t.f)) =
      some (0x00, 0xB0) := by decide

/-- 95_test_vectors V-A8-29. -/
theorem test_decReg :
    after (start 0x0100 [0x0D] { State.reset with af := 0x0010, bc := 0x0000 }) (fun t => (t.bc, t.f)) =
      some (0x00FF, 0x70) := by decide

/-- 95_test_vectors V-A8-31. -/
theorem test_decMhl :
    after (start 0x0100 [0x35] { State.reset with af := 0x0010, hl := 0xC000, mem := [(0xC000, 0x01)] }) (fun t => (cell t 0xC000, t.f)) =
      some (0x00, 0xD0) := by decide

/-- 95_test_vectors V-A8-32. -/
theorem test_rlca_zero :
    after (start 0x0100 [0x07] { State.reset with af := 0x00F0 }) (fun t => t.af) =
      some 0x0000 := by decide

/-- 95_test_vectors V-A8-33. -/
theorem test_rlca :
    after (start 0x0100 [0x07] { State.reset with af := 0x8000 }) (fun t => t.af) =
      some 0x0110 := by decide

/-- 95_test_vectors V-A8-34. -/
theorem test_rrca :
    after (start 0x0100 [0x0F] { State.reset with af := 0x0100 }) (fun t => t.af) =
      some 0x8010 := by decide

/-- 95_test_vectors V-A8-36. -/
theorem test_rla :
    after (start 0x0100 [0x17] { State.reset with af := 0x0010 }) (fun t => t.af) =
      some 0x0100 := by decide

/-- 95_test_vectors V-A8-38. -/
theorem test_rra :
    after (start 0x0100 [0x1F] { State.reset with af := 0x0010 }) (fun t => t.af) =
      some 0x8000 := by decide

/-- 95_test_vectors V-A8-41. -/
theorem test_daa_add :
    after (start 0x0100 [0x27] { State.reset with af := 0x9A00 }) (fun t => t.af) =
      some 0x0090 := by decide

/-- 95_test_vectors V-A8-44. -/
theorem test_daa_subtract :
    after (start 0x0100 [0x27] { State.reset with af := 0xFF70 }) (fun t => t.af) =
      some 0x9950 := by decide

/-- 95_test_vectors V-A8-47. -/
theorem test_cpl :
    after (start 0x0100 [0x2F] { State.reset with af := 0x0090 }) (fun t => t.af) =
      some 0xFFF0 := by decide

/-- 95_test_vectors V-A8-48. -/
theorem test_scf :
    after (start 0x0100 [0x37] { State.reset with af := 0x0070 }) (fun t => t.af) =
      some 0x0010 := by decide

/-- 95_test_vectors V-A8-49. -/
theorem test_ccf :
    after (start 0x0100 [0x3F] { State.reset with af := 0x00F0 }) (fun t => t.af) =
      some 0x0080 := by decide

/-- 95_test_vectors V-16-1. -/
theorem test_addHl :
    after (start 0x0100 [0x09] { State.reset with af := 0x0080, bc := 0x0001, hl := 0xFFFF }) (fun t => (t.hl, t.f)) =
      some (0x0000, 0xB0) := by decide

/-- 95_test_vectors V-16-4. -/
theorem test_addHl_half_carry :
    after (start 0x0100 [0x19] { State.reset with af := 0x0010, de := 0x0001, hl := 0x0FFF }) (fun t => (t.hl, t.f)) =
      some (0x1000, 0x20) := by decide

/-- 95_test_vectors V-16-6. -/
theorem test_incPair :
    after (start 0x0100 [0x33] { State.reset with af := 0x00F0, sp := 0xFFFF }) (fun t => (t.sp, t.af)) =
      some (0x0000, 0x00F0) := by decide

/-- 95_test_vectors V-16-7. -/
theorem test_decPair :
    after (start 0x0100 [0x0B] { State.reset with bc := 0x0000 }) (fun t => (t.bc, t.af)) =
      some (0xFFFF, 0x0000) := by decide

/-- 95_test_vectors V-16-10. -/
theorem test_addSpE8 :
    after (start 0x0100 [0xE8, 0x80] { State.reset with sp := 0x0080 }) (fun t => (t.sp, t.f)) =
      some (0x0000, 0x10) := by decide

/-- 95_test_vectors V-CB-2. -/
theorem test_rlc :
    after (start 0x0100 [0xCB, 0x06] { State.reset with hl := 0xC000, mem := [(0xC000, 0x80)] }) (fun t => (cell t 0xC000, t.f)) =
      some (0x01, 0x10) := by decide

/-- 95_test_vectors V-CB-3. -/
theorem test_rrc_zero :
    after (start 0x0100 [0xCB, 0x0F] { State.reset with af := 0x0010 }) (fun t => t.af) =
      some 0x0080 := by decide

/-- 95_test_vectors V-CB-4. -/
theorem test_rl :
    after (start 0x0100 [0xCB, 0x11] { State.reset with bc := 0x0080 }) (fun t => (t.bc, t.f)) =
      some (0x0000, 0x90) := by decide

/-- 95_test_vectors V-CB-7. -/
theorem test_rr :
    after (start 0x0100 [0xCB, 0x1A] { State.reset with af := 0x0010, de := 0x0000 }) (fun t => (t.de, t.f)) =
      some (0x8000, 0x00) := by decide

/-- 95_test_vectors V-CB-8. -/
theorem test_sla :
    after (start 0x0100 [0xCB, 0x27] { State.reset with af := 0xFF00 }) (fun t => t.af) =
      some 0xFE10 := by decide

/-- 95_test_vectors V-CB-9. -/
theorem test_sra :
    after (start 0x0100 [0xCB, 0x2F] { State.reset with af := 0x8000 }) (fun t => t.af) =
      some 0xC000 := by decide

/-- 95_test_vectors V-CB-12. -/
theorem test_swap :
    after (start 0x0100 [0xCB, 0x36] { State.reset with hl := 0xC000, mem := [(0xC000, 0xA5)] }) (fun t => (cell t 0xC000, t.f)) =
      some (0x5A, 0x00) := by decide

/-- 95_test_vectors V-CB-13. -/
theorem test_srl :
    after (start 0x0100 [0xCB, 0x38] { State.reset with bc := 0x8000 }) (fun t => (t.bc, t.f)) =
      some (0x4000, 0x00) := by decide

/-- 95_test_vectors V-CB-15. -/
theorem test_bit :
    after (start 0x0100 [0xCB, 0x46] { State.reset with af := 0x0050, hl := 0xC000, mem := [(0xC000, 0xFE)] }) (fun t => (cell t 0xC000, t.f)) =
      some (0xFE, 0xB0) := by decide

/-- 95_test_vectors V-CB-18. -/
theorem test_res :
    after (start 0x0100 [0xCB, 0xBE] { State.reset with af := 0x00F0, hl := 0xC000, mem := [(0xC000, 0xFF)] }) (fun t => (cell t 0xC000, t.f)) =
      some (0x7F, 0xF0) := by decide

/-- 95_test_vectors V-CB-20. -/
theorem test_set :
    after (start 0x0100 [0xCB, 0xFE] { State.reset with hl := 0xC000 }) (fun t => (cell t 0xC000, t.f)) =
      some (0x80, 0x00) := by decide

/-- 95_test_vectors V-FT-5. -/
theorem test_nop_pc_wraps :
    after (start 0xFFFF [0x00] State.reset) (fun t => t.pc) =
      some 0x0000 := by decide

/-- 95_test_vectors V-SY-2. -/
theorem test_halt :
    after (start 0x0100 [0x76] State.reset) (fun t => (t.pc, t.halted)) =
      some (0x0101, true) := by decide

/-- 95_test_vectors V-SY-5. -/
theorem test_stop :
    after (start 0x0100 [0x10, 0xFF] State.reset) (fun t => (t.pc, t.stopped)) =
      some (0x0102, true) := by decide

/-- 95_test_vectors V-SY-7. -/
theorem test_di :
    after (start 0x0100 [0xF3] { State.reset with ime := true }) (fun t => (t.pc, t.ime)) =
      some (0x0101, false) := by decide

/-- 95_test_vectors V-SY-8. -/
theorem test_ei :
    after (start 0x0100 [0xFB] State.reset) (fun t => (t.ime, t.eiPending)) =
      some (false, true) := by decide

/-- 95_test_vectors V-SY-9. -/
theorem test_ei_takes_effect_after_next :
    after (start 0x0100 [0x00] { State.reset with eiPending := true }) (fun t => (t.ime, t.eiPending)) =
      some (true, false) := by decide

/-- 95_test_vectors V-SY-10. -/
theorem test_ei_then_di :
    after (start 0x0100 [0xF3] { State.reset with eiPending := true }) (fun t => (t.ime, t.eiPending)) =
      some (false, false) := by decide

/-- 95_test_vectors V-FT-14. -/
theorem test_illegal_last_address :
    faultOf (start 0xFFFF [0xD3]
      State.reset) = some (.illegalOpcode 0xFFFF 0xD3) := by decide

/-- 95_test_vectors V-LD-23. -/
theorem test_word_store_past_end :
    faultOf (start 0x0100 [0x08, 0xFF, 0xFF]
      { State.reset with sp := 0xABCD }) = some (.addressOutOfRange 0x10000 0x0100) := by decide

/-- 95_test_vectors V-FT-2. -/
theorem test_fetch_past_end :
    faultOf (start 0xFFFE [0xC3, 0x00]
      State.reset) = some (.addressOutOfRange 0x10000 0xFFFE) := by decide

/-- 95_test_vectors V-FT-17. -/
theorem test_read_past_memory_under_wrap :
    faultOf (start 0x0100 [0x7E]
      { State.reset with hl := 0x8000, params := { memSize := 0x8000, addrPolicy := .wrap, stackMode := .doc } }) = some (.addressOutOfRange 0x8000 0x0100) := by decide

/-- 95_test_vectors V-FT-10. -/
theorem test_push_past_memory :
    faultOf (start 0x0100 [0xCD, 0x00, 0x02]
      { State.reset with sp := 0x8000, params := { memSize := 0x8000, addrPolicy := .fault, stackMode := .doc } }) = some (.addressOutOfRange 0x8000 0x0100) := by decide

/-- 95_test_vectors V-FT-12. -/
theorem test_sm83_push_past_memory :
    faultOf (start 0x0100 [0xC5]
      { State.reset with sp := 0x8001, bc := 0x1234, params := { memSize := 0x8000, addrPolicy := .fault, stackMode := .sm83 } }) = some (.addressOutOfRange 0x8000 0x0100) := by decide

/-! ### Witnesses: concrete states and operands that meet the hypotheses of each statement, at the ends of their ranges -/

/-- A small machine: 0x8000 cells, the given address policy and stack mode. -/
def small (policy : AddrPolicy) (mode : StackMode) : Params := { memSize := 0x8000, addrPolicy := policy, stackMode := mode }

/-- HL, BC and DE at the last address, C = 0xFF. -/
def atTop : State := { State.reset with hl := 0xFFFF, bc := 0xFFFF, de := 0xFFFF, mem := [(0xFFFF, 0x80)] }

/-- A state with a latched fault. -/
def latched : State := { State.reset with fault := some (.illegalOpcode 0x0100 0xD3) }

theorem witness_DecodeOfEncodeIsIdentity : WellFormed (.illegal 0xFD) ∧ WellFormed (.ldMabsSp 0xFFFF) := by decide

theorem witness_EncodeOfDecodeIsIdentity : decode [0xCB, 0xFF, 0x00] = .ok (.set 7 (.reg .a), [0x00]) := by rfl

theorem witness_DecoderRefusesOnlyShortLists :
    opLength 0xFA = 3 ∧ opLength 0x01 = 3 ∧ opLength 0x3E ≠ 3 ∧ opLength 0x00 ≠ 3 := by decide

theorem witness_LengthFixedByFirstByte : decode [0xC3, 0x00, 0x02, 0xD3] = .ok (.jp 0x0200, [0xD3]) := by rfl

theorem witness_FixedTableStepIsStep : State.reset.fault = none := by decide

theorem witness_DescriptorFaults_gate :
    conditionOperand { mnemonic := .jp, operands := [.n8, .a16], length := 3 } = some .n8 ∧
    ∀ cc, OperandForm.n8 ≠ .condition cc := ⟨by decide, fun cc => by cases cc <;> decide⟩

theorem witness_DescriptorFaults_combination :
    conditionOperand { mnemonic := .ld, operands := [.n8, .n8], length := 2 } = none ∧
    instrOf .ld [.n8, .n8] 0x12 0x00 = none ∧
    conditionOperand { mnemonic := .jp, operands := [.condition .z, .n8], length := 2 } = some (.condition .z) ∧
    instrOf .jp [.condition .z, .n8] 0x12 0x00 = none := by decide

theorem witness_StepRunsDecodedInstruction :
    (start 0xFFFD [0xFA, 0xFE, 0xFF] State.reset).Running ∧
    decode [0xFA, 0xFE, 0xFF] = .ok (.ldAMabs 0xFFFE, []) ∧
    BytesAt (start 0xFFFD [0xFA, 0xFE, 0xFF] State.reset) 0xFFFD [0xFA, 0xFE, 0xFF] :=
  ⟨by decide, rfl, by decide, by decide, by decide, by decide, by decide, by decide, trivial⟩

theorem witness_LatchedOrWaitingCoreDoesNothing :
    latched.fault = some (.illegalOpcode 0x0100 0xD3) ∧
    ({ State.reset with halted := true } : State).fault = none ∧
    ({ State.reset with stopped := true } : State).stopped = true := by decide

theorem witness_FetchFaultsInOrder_opcode :
    let s : State := { State.reset with pc := 0x8000, params := small .fault .doc }
    s.Running ∧ ¬ HasCell s s.pc.toNat := by decide

theorem witness_FetchFaultsInOrder_illegal :
    let s := start 0xFFFF [0xD3] State.reset
    s.Running ∧ HasCell s s.pc.toNat ∧ s.peek s.pc.toNat ∈ illegalBytes := by decide

theorem witness_FetchFaultsInOrder_second :
    let s := start 0xFFFF [0x3E] State.reset
    s.Running ∧ HasCell s s.pc.toNat ∧ opLength (s.peek s.pc.toNat) ≠ 1 ∧ ¬ HasCell s (s.pc.toNat + 1) := by decide

theorem witness_FetchFaultsInOrder_third :
    let s := start 0xFFFE [0xC3, 0x00] State.reset
    s.Running ∧ HasCell s s.pc.toNat ∧ opLength (s.peek s.pc.toNat) = 3 ∧ HasCell s (s.pc.toNat + 1) ∧
    ¬ HasCell s (s.pc.toNat + 2) := by decide

theorem witness_FaultIsAtomicAndSticky :
    (start 0x0100 [0xD3] State.reset).fault = none ∧
    executeOne (start 0x0100 [0xD3] State.reset) =
      ({ start 0x0100 [0xD3] State.reset with fault := some (.illegalOpcode 0x0100 0xD3) },
        .fault (.illegalOpcode 0x0100 0xD3)) := by decide

theorem witness_FaultIsAtomicAndSticky_host : ∃ u, hostAct .wake latched = .next u := ⟨_, rfl⟩

theorem witness_BytesConsumedIsTheLength :
    (executeOne (start 0x0100 [0xC3, 0x00, 0x02] State.reset)).2 = .ok 3 ∧
    (executeOne { State.reset with halted := true }).2 = .ok 0 ∧
    faultOf (start 0x0100 [0xD3] State.reset) = some (.illegalOpcode 0x0100 0xD3) := by decide

theorem witness_StepKeepsInvariant :
    (start 0x0100 [0x77] { atTop with af := 0x00F0 }).Inv ∧
    after (start 0x0100 [0x77] { atTop with af := 0x00F0 }) (fun t => t.pc) = some 0x0101 := by decide

theorem witness_LaunchTakesInitAndImage :
    ({ memSize := 1, addrPolicy := .wrap, stackMode := .sm83 } : Params).wf ∧ Params.default.wf ∧
    0xFFFF < Params.default.memSize ∧ 0 < 1 := by decide

/-- A cell with two entries, its last one not the image's last, and a cell with none. -/
theorem witness_LaunchTakesInitAndImage_image :
    let image : List Host.Cell := [(0xFFFF, 0x01), (0xFFFF, 0x02), (0x0000, 0x03)]
    image = [(0xFFFF, 0x01)] ++ (0xFFFF, 0x02) :: [(0x0000, 0x03)] ∧
    (∀ c ∈ [((0x0000, 0x03) : Host.Cell)], c.1 ≠ 0xFFFF) ∧ ∀ c ∈ image, c.1 ≠ 0x0001 := by decide

theorem witness_HostActionsKeepInvariant :
    Params.default.wf ∧ atTop.Inv ∧ (∃ t, hostAct (.writeCell 0xFFFF 0x00) atTop = .next t) ∧
    ∃ t, hostAct (.launch Params.default Init.dmg [(0xFFFF, 0x01)]) latched = .next t :=
  ⟨by decide, by decide, ⟨_, rfl⟩, ⟨_, rfl⟩⟩

theorem witness_FaultCasesUnderDefaults :
    let s := start 0xFFFD [0x08, 0xFF, 0xFF] State.reset
    s.params.memSize = 0x10000 ∧ s.params.addrPolicy = .fault ∧ s.Running := by decide

theorem witness_FaultCasesUnderDefaults_cases :
    faultOf (start 0xFFFD [0x08, 0xFF, 0xFF] State.reset) = some (.addressOutOfRange 0x10000 0xFFFD) ∧
    faultOf (start 0xFFFD [0x08, 0xFE, 0xFF] State.reset) = none ∧
    faultOf (start 0xFFFF [0xCB] State.reset) = some (.addressOutOfRange 0x10000 0xFFFF) ∧
    faultOf (start 0xFFFE [0xCB, 0x00] State.reset) = none := by decide

theorem witness_ExecCompletesOrFaultsAtFirstAccess :
    (accesses (.ldMabsSp 0xFFFF) State.reset).find? (fun a => !inStore State.reset.params a) = some 0x10000 ∧
    (accesses (.ldMabsSp 0xFFFE) State.reset).find? (fun a => !inStore State.reset.params a) = none := by decide

theorem witness_frames_load :
    after (start 0x0100 [0x2A] atTop) (fun t => (t.af, t.hl)) = some (0x8000, 0x0000) ∧
    Reg8.b ∉ writtenR8 .ldAMhlInc ∧ writesSp .ldAMhlInc atTop = false ∧ 0xFFFF ∉ storedCells .ldAMhlInc atTop := by
  decide

theorem witness_frames_store :
    after (start 0x0100 [0xE5] atTop) (fun t => (cell t 0x0000, cell t 0xFFFF, t.sp)) = some (0xFF, 0xFF, 0xFFFE) ∧
    storedCells (.push .hl) atTop = [0x0000, 0xFFFF] ∧ 0x0001 ∉ storedCells (.push .hl) atTop := by decide

theorem witness_LatchFrame :
    (∀ n, Instr.ei ≠ .stop n) ∧ Instr.ei ≠ .halt ∧ Instr.ei ≠ .reti ∧ (∃ t, exec .ei State.reset = .next t) :=
  ⟨fun _ => (by simp), by decide, by decide, ⟨_, rfl⟩⟩

theorem witness_FlagTableHolds : flagRow (.push .af) = noFlags ∧ ∃ t, exec (.push .af) atTop = .next t :=
  ⟨by decide, ⟨_, rfl⟩⟩

theorem witness_PcAdvancesPastInstruction :
    setsTarget (.callCond .z 0x4000) State.reset = false ∧
    after (start 0xFFFD [0xCC, 0x00, 0x40] State.reset) (fun t => t.pc) = some 0x0000 := by decide

theorem witness_DelayedEnable_pending :
    fetchInstr (start 0x0100 [0xF3] { State.reset with eiPending := true }) = .ok .di ∧
    fetchInstr (start 0x0100 [0xFB] { State.reset with eiPending := true }) = .ok .ei ∧
    after (start 0x0100 [0xFB] { State.reset with eiPending := true }) (fun t => (t.ime, t.eiPending)) =
      some (true, false) := ⟨rfl, rfl, by decide⟩

theorem witness_DelayedEnable_none :
    (start 0x0100 [0xD9] State.reset).Running ∧ fetchInstr (start 0x0100 [0xD9] State.reset) = .ok .reti ∧
    after (start 0x0100 [0xD9] State.reset) (fun t => t.ime) = some true := ⟨by decide, rfl, by decide⟩

theorem witness_LowFlagBitsStayZero :
    (start 0x0100 [0xF1] State.reset).flagsLow ∧
    after (start 0x0100 [0xF1] { State.reset with mem := [(1, 0xFF)] }) (fun t => t.f) = some 0xF0 ∧
    ∃ t, hostAct (.writeF 0xFF) State.reset = .next t := ⟨by decide, by decide, ⟨_, rfl⟩⟩

theorem witness_ConditionTestsOneBit :
    ({ State.reset with af := 0x0090 } : State).f = 0x90 ∧ ({ State.reset with af := 0x00A0 } : State).f = 0xA0 := by
  decide

theorem witness_ByteAccessChecksAndRoundTrips :
    HasCell State.reset 0xFFFF ∧ ¬ HasCell State.reset 0x10000 ∧
    HasCell { State.reset with params := wrapping } 0x10000 ∧
    ¬ HasCell { State.reset with params := small .wrap .doc } 0x8000 ∧
    HasCell { State.reset with params := small .wrap .doc } 0x7FFF := by decide

theorem witness_WordAccessIsLittleEndian :
    HasCell State.reset 0xFFFE ∧ HasCell State.reset 0xFFFF ∧ ¬ HasCell State.reset 0x10000 ∧
    HasCell { State.reset with params := wrapping } (0xFFFF + 1) := by decide

theorem witness_StackIsLastInFirstOut :
    (∃ t, pushAll { State.reset with sp := 1 } [0x11, 0x22, 0x33] = .ok t) ∧
    (∃ t, pushWord { State.reset with params := small .fault .sm83 } 0x1234 = .error t) ∧
    ∃ t, pushWord { State.reset with sp := 0x8000, params := small .fault .sm83 } 0x1234 = .ok t :=
  ⟨⟨_, rfl⟩, ⟨_, rfl⟩, ⟨_, rfl⟩⟩

/-- StackCellsByMode, PushAndPopResult, CallResult, ReturnResult and InterruptEntryResult. -/
theorem witness_stack_cells :
    (∀ a ∈ pushCells State.reset, HasCell State.reset a) ∧
    (∀ a ∈ popCells { State.reset with sp := 0xFFFE }, HasCell State.reset a) ∧
    (∀ a ∈ pushCells { State.reset with sp := 0x8000, params := small .fault .sm83 },
      HasCell { State.reset with params := small .fault .sm83 } a) ∧
    (∀ a ∈ popCells { State.reset with sp := 0x7FFE, params := small .fault .sm83 },
      HasCell { State.reset with params := small .fault .sm83 } a) := by decide

theorem witness_conditions :
    cond .nz State.reset = true ∧ cond .z State.reset = false ∧
    cond .c { State.reset with af := 0x0010 } = true ∧ cond .nc { State.reset with af := 0x0010 } = false := by decide

/-- MemoryLoadResult, MemoryStoreResult and AutoIndexResult, at the last address. -/
theorem witness_memory_operands :
    HasCell atTop atTop.hl.toNat ∧ HasCell atTop atTop.bc.toNat ∧ HasCell atTop atTop.de.toNat ∧
    HasCell atTop (0xFFFF : Word).toNat ∧ HasCell atTop (0xFF00 + (0xFF : Byte).toNat) ∧
    HasCell atTop (0xFF00 + (atTop.r8 .c).toNat) := by decide

theorem witness_StoreStackPointerResult :
    (HasCell State.reset (0xFFFE : Word).toNat ∧ HasCell State.reset ((0xFFFE : Word).toNat + 1)) ∧
    (HasCell { State.reset with params := wrapping } ((0xFFFF : Word).toNat + 1)) ∧
    HasCell State.reset 0xFFFF ∧ State.reset.params.addrPolicy = .fault := by decide

/-- A CALL at 0xFFFD whose return address is 0x0000, its target a RET. -/
theorem witness_CallThenReturn_call :
    let s := start 0xFFFD [0xCD, 0x00, 0x02] { State.reset with sp := 0xDFFE, mem := [(0x0200, 0xC9)] }
    s.Running ∧ fetchInstr s = .ok (.call 0x0200) ∧ ∃ t, step s = .next t ∧ fetchInstr t = .ok .ret :=
  ⟨by decide, rfl, _, rfl, rfl⟩

theorem witness_CallThenReturn_callCond :
    let s := start 0x0100 [0xC4, 0x00, 0x02]
      { State.reset with sp := 0x0000, mem := [(0x0200, 0xC9)], params := hardwareStack }
    s.Running ∧ fetchInstr s = .ok (.callCond .nz 0x0200) ∧ cond .nz s = true ∧
      ∃ t, step s = .next t ∧ fetchInstr t = .ok .ret :=
  ⟨by decide, rfl, by decide, _, rfl, rfl⟩

theorem witness_CallThenReturn_rst :
    let s := start 0x0234 [0xFF] { State.reset with sp := 0x0001, mem := [(0x0038, 0xC9)] }
    s.Running ∧ fetchInstr s = .ok (.rst 7) ∧ ∃ t, step s = .next t ∧ fetchInstr t = .ok .ret :=
  ⟨by decide, rfl, _, rfl, rfl⟩

/-- AdditionResult, SubtractionResult, LogicResult, ShiftResult and BitOperationResult. -/
theorem witness_sources :
    SrcReads .mhl atTop 0x80 ∧ SrcReads (.reg .c) atTop 0xFF ∧ SrcReads (.imm 0xFF) atTop 0xFF ∧
    RmReads .mhl atTop 0x80 ∧ RmReads (.reg .a) atTop 0x00 :=
  ⟨⟨by decide, by decide⟩, (by decide : (0xFF : Byte) = atTop.r8 .c), rfl, ⟨by decide, by decide⟩,
    (by decide : (0x00 : Byte) = atTop.r8 .a)⟩

theorem witness_IncrementDecrementResult : HasCell atTop atTop.hl.toNat := by decide

theorem witness_DecimalAddition :
    99 < 100 ∧ ({ State.reset with af := 0x9900 } : State).r8 .a = bcd 99 ∧ State.reset.r8 .a = bcd 0 := by decide

theorem witness_IllegalOpcodeFaults :
    let s := start 0xFFFF [0xFD] State.reset
    s.Running ∧ HasCell s s.pc.toNat ∧
      s.peek s.pc.toNat ∈ [0xD3, 0xDB, 0xDD, 0xE3, 0xE4, 0xEB, 0xEC, 0xED, 0xF4, 0xFC, (0xFD : Byte)] := by decide

theorem witness_InterruptEntryResult :
    let s : State := { State.reset with sp := 0x8001, ime := true, params := small .fault .doc }
    s.fault = none ∧ s.ime = true ∧
      (pushCells s).find? (fun x => !inStore s.params x) = some 0x8001 := by decide

/-- 95_test_vectors V-IN-7: the entry whose push faults. -/
theorem test_entry_push_faults :
    hostAct (.enterInterrupt .vblank)
      { State.reset with pc := 0x0234, sp := 0x8001, ime := true, params := small .fault .doc } =
      .fault (.addressOutOfRange 0x8001 0x0234) := by rfl

/-- 95_test_vectors V-IN-1. -/
theorem test_entry :
    (match hostAct (.enterInterrupt .vblank) { State.reset with pc := 0x0234, sp := 0xDFFE, ime := true } with
      | .next t => some (t.pc, t.sp, cell t 0xDFFE, cell t 0xDFFD, t.ime)
      | _ => none) = some (0x0040, 0xDFFC, 0x02, 0x34, false) := by decide

theorem witness_EntryThenReturn :
    ∃ t, hostAct (.enterInterrupt .joypad) { State.reset with ime := true, params := hardwareStack } = .next t :=
  ⟨_, rfl⟩

theorem witness_EntryConditionsAndWake :
    State.reset.fault = none ∧ State.reset.ime = false ∧ latched.fault = some (.illegalOpcode 0x0100 0xD3) := by decide

/-- 95_test_vectors V-RS-1: a launch with the informative DMG profile is clean. -/
theorem test_clean_launch : CleanLaunch (State.launch Params.default Init.dmg [(0x0100, 0x00)]) := by decide

/-! ### Runs (R286, R287) -/

/-- P4 of 95_test_vectors after its HALT step, with a handler that is RETI alone. -/
def afterHalt : State :=
  start 0x0040 [0xD9] { State.reset with sp := 0xFFFE, ime := true } |> fun s => { s with pc := 0x0105, halted := true }

/-- R287: a halted CORE at END_PC has not ended. -/
theorem test_halted_at_end_goes_on : runUntil 0x0105 [] afterHalt = .unfinished afterHalt ∧ Hung afterHalt := by decide

/-- R286: the run with an entry ends at the boundary after RETI, where PC = 0x0105 and halted = 0. -/
theorem test_run_with_entry_ends :
    (match runUntil 0x0105 [.host (.enterInterrupt .vblank), .step, .step] afterHalt with
      | .ended t => some (t.pc, t.sp, t.ime)
      | _ => none) = some (0x0105, 0xFFFE, true) := by decide +kernel

/-- R286: a run that reaches a fault has not ended. -/
theorem test_faulted_run :
    (match runToEnd 0x0101 3 (start 0x0100 [0xD3] State.reset) with
      | .faulted t f => some (t.pc, f)
      | _ => none) = some (0x0100, .illegalOpcode 0x0100 0xD3) := by decide

/-! ### A table as an input (R80, R108) -/

/-- A table whose every row is `d`. -/
def tableOf (d : Descriptor) : OpcodeTable := { base := fun _ => some d, cb := fun _ => d }

/-- R80: a length that is none of 1, 2 and 3 fetches the opcode byte alone, so no address fault at 0xFFFF. -/
theorem test_descriptor_length_four :
    (match stepWithTable (tableOf { mnemonic := .nop, operands := [], length := 4 }) (start 0xFFFF [0x00] State.reset) with
      | .fault f => some f
      | _ => none) = some (.invalidOperandCombination 0xFFFF [0x00]) := by decide

/-- R80: a 0xCB row has `len = 2`, which is not the length of NOP. -/
theorem test_descriptor_cb_length :
    (match stepWithTable (tableOf { mnemonic := .nop, operands := [], length := 1 })
        (start 0x0100 [0xCB, 0x12] State.reset) with
      | .fault f => some f
      | _ => none) = some (.invalidOperandCombination 0x0100 [0xCB, 0x12]) := by decide

end Sys2Proof.Tests
end

section
/-! The invariant `State.Inv` (canonical store within MEM_SIZE, F[3:0] = 0, legal parameters) is kept by each named
operation, so by every instruction and by the step. -/

namespace Sys2Proof.Machine

open Sys2Proof

theorem State.Inv.flagsLow {s : State} (h : s.Inv) : s.flagsLow := by
  obtain ⟨-, -, hlow, -⟩ := h
  exact hlow

/-- A change outside the store and the parameters keeps the invariant if it leaves F[3:0] = 0. -/
theorem State.Inv.of_same_mem {s t : State} (h : s.Inv) (hm : t.mem = s.mem) (hp : t.params = s.params)
    (hf : t.flagsLow) : t.Inv := by
  obtain ⟨hwf, hin, -, hpw⟩ := h
  refine ⟨hm ▸ hwf, ?_, hf, hp ▸ hpw⟩
  rw [hm, hp]
  exact hin

/-- A write to a cell that the store has keeps the invariant (R50, R53). -/
theorem State.Inv.poke {s : State} (h : s.Inv) {a : Nat} (ha : inStore s.params a = true) (v : Byte) :
    (s.poke a v).Inv := by
  obtain ⟨hwf, hin, hlow, hpw⟩ := h
  exact ⟨Memory.wf_set hwf _ v, Memory.within_set hin ((inStore_iff _ _).mp ha) v, hlow, hpw⟩

theorem State.flagsLow_setR8 {s : State} (h : s.flagsLow) (r : Reg8) (v : Byte) : (s.setR8 r v).flagsLow := by
  simpa [State.flagsLow] using h

theorem State.flagsLow_setFlags (s : State) (z n h c : Bool) : (s.setFlags z n h c).flagsLow := by
  simp [State.flagsLow]

/-- A write to AF clears F[3:0], and a write to another pair leaves F (R25). -/
theorem State.flagsLow_setR16 {s : State} (h : s.flagsLow) (rr : Pair) (v : Word) : (s.setR16 rr v).flagsLow := by
  cases rr with
  | af => exact s.f_setR16_af v
  | bc | de | hl | sp | pc => exact h

theorem keptByOps_inv (p : Params) : KeptByOps p State.Inv where
  setR8 u r v h := h.of_same_mem (u.setR8_mem r v) (u.setR8_params r v) (State.flagsLow_setR8 h.flagsLow r v)
  setR16 u rr v _ h := h.of_same_mem (u.setR16_mem rr v) (u.setR16_params rr v) (State.flagsLow_setR16 h.flagsLow rr v)
  setFlags u z n hc c h := h.of_same_mem rfl rfl (u.flagsLow_setFlags z n hc c)
  setSp _ _ h := h
  setHl _ _ h := h
  poke _ _ v hu ha h := h.poke (hu ▸ ha) v
  advance _ _ h := h
  jumpTo _ _ h := h

/-- No instruction breaks the invariant: it writes by the named operations, or a latch, which the invariant does not
read. -/
theorem exec_keeps_inv {i : Instr} {s t : State} (hs : s.Inv) (h : exec i s = .next t) : t.Inv :=
  exec_keeps (keptByOps_inv s.params) hs (reti := fun _ _ hu => hu) (di := fun _ => hs) (ei := fun _ => hs)
    (halt := fun _ => hs) (stop := fun _ _ => hs) h

/-- The delayed-enable step writes latches only (R31). -/
theorem State.Inv.enableDelayed {s : State} (h : s.Inv) (before : Bool) : (s.enableDelayed before).Inv := by
  unfold State.enableDelayed
  split <;> exact h

/-- Settles O14: a waiting step leaves the state, and a running one is an instruction and the delayed-enable step. -/
theorem stepKeepsInvariant : Obligations.StepKeepsInvariant := by
  intro s t hs h
  obtain ⟨-, -, rfl⟩ | ⟨-, -, -, i, u, -, hu, rfl⟩ := step_next h
  · exact hs
  · exact (exec_keeps_inv hs hu).enableDelayed s.eiPending

end Sys2Proof.Machine
end

section
/-! What the data and stack accesses of an instruction decide (R12, R53, R63): it faults at the first address without a
cell, and completes if there is none; then PC is `pc_next`, unless the instruction sets a target (R82). -/

namespace Sys2Proof.Machine

open Sys2Proof Sys2Proof.Claim

/-! ### What a list of accesses leads to -/

/-- `onFault` of the fault at the first of the addresses without a cell, or `done` if each has one. -/
def AccessesLead (s : State) (addrs : List Nat) (onFault : Fault → Prop) (done : Prop) : Prop :=
  match addrs.find? (fun a => !inStore s.params a) with
  | some a => onFault (addressFault s a)
  | none => done

/-- A computation that makes these accesses answers a value with `post`, or the fault of the first without a cell. -/
abbrev Answers {α : Type} (s : State) (addrs : List Nat) (post : α → Prop) (r : Except Fault α) : Prop :=
  AccessesLead s addrs (fun f => r = .error f) (∃ x, r = .ok x ∧ post x)

/-- An instruction that makes these accesses ends in a state with `post`, or in the fault of the first without a cell. -/
abbrev Ends (s : State) (addrs : List Nat) (post : State → Prop) (o : Host.Outcome State Fault Refusal) : Prop :=
  AccessesLead s addrs (fun f => o = .fault f) (∃ t, o = .next t ∧ post t)

section
variable {s : State} {addrs : List Nat} {F F' : Fault → Prop} {D D' : Prop}

theorem AccessesLead.imp (h : AccessesLead s addrs F D) (hf : ∀ f, F f → F' f) (hd : D → D') :
    AccessesLead s addrs F' D' := by
  unfold AccessesLead at h ⊢
  split at h
  · exact hf _ h
  · exact hd h

theorem AccessesLead.of_find_some {a : Nat} (h : AccessesLead s addrs F D)
    (ha : addrs.find? (fun a => !inStore s.params a) = some a) : F (addressFault s a) := by
  simpa [AccessesLead, ha] using h

theorem AccessesLead.of_find_none (h : AccessesLead s addrs F D)
    (ha : addrs.find? (fun a => !inStore s.params a) = none) : D := by
  simpa [AccessesLead, ha] using h

theorem AccessesLead.one {a : Nat} (bad : inStore s.params a = false → F (addressFault s a))
    (good : inStore s.params a = true → D) : AccessesLead s [a] F D := by
  cases h : inStore s.params a with
  | false => simpa [AccessesLead, h] using bad h
  | true => simpa [AccessesLead, h] using good h

theorem AccessesLead.two {a b : Nat} (bad : inStore s.params a = false → F (addressFault s a))
    (bad' : inStore s.params a = true → inStore s.params b = false → F (addressFault s b))
    (good : inStore s.params a = true → inStore s.params b = true → D) : AccessesLead s [a, b] F D := by
  cases h : inStore s.params a with
  | false => simpa [AccessesLead, h] using bad h
  | true => cases h' : inStore s.params b with
    | false => simpa [AccessesLead, h, h'] using bad' h h'
    | true => simpa [AccessesLead, h, h'] using good h h'

/-- More accesses after those of `addrs`. -/
theorem AccessesLead.append {more : List Nat} (h : AccessesLead s addrs F (AccessesLead s more F D)) :
    AccessesLead s (addrs ++ more) F D := by
  unfold AccessesLead at h ⊢
  rw [List.find?_append]
  cases hf : addrs.find? (fun a => !inStore s.params a) <;> simpa [hf] using h

end

section
variable {α β : Type} {s : State} {addrs : List Nat} {P : α → Prop} {Q : β → Prop} {r : Except Fault α}

theorem Answers.map {f : α → β} (h : Answers s addrs P r) (hf : ∀ x, P x → Q (f x)) : Answers s addrs Q (r.map f) := by
  refine AccessesLead.imp h (fun e he => by rw [he]; rfl) ?_
  rintro ⟨x, rfl, hx⟩
  exact ⟨f x, rfl, hf x hx⟩

theorem Answers.bind {more : List Nat} {f : α → Except Fault β} (h : Answers s addrs P r)
    (hf : ∀ x, P x → Answers s more Q (f x)) : Answers s (addrs ++ more) Q (r.bind f) := by
  refine AccessesLead.append (AccessesLead.imp h (fun e he => by rw [he]; rfl) ?_)
  rintro ⟨x, rfl, hx⟩
  exact hf x hx

end

/-- A next state is what the accesses lead to when they all have cells, since a fault is none. -/
theorem Ends.next {s t : State} {addrs : List Nat} {P : State → Prop} {o : Host.Outcome State Fault Refusal}
    (h : Ends s addrs P o) (ho : o = .next t) : P t := by
  subst ho
  unfold Ends AccessesLead at h
  split at h
  · cases h
  · obtain ⟨u, hu, hP⟩ := h
    exact Host.Outcome.next.inj hu ▸ hP

/-! ### The accesses of the named operations -/

/-- The access of a location (R91). -/
def Loc.accesses : Loc → List Nat
  | .reg8 _ => []
  | .imm _ => []
  | .mem a => [a]

theorem Loc.read_answers (l : Loc) (s : State) : Answers s l.accesses (fun _ => True) (l.read s) := by
  cases l with
  | reg8 r | imm v => exact ⟨_, rfl, trivial⟩
  | mem a => exact .one memRead_error fun ha => ⟨_, memRead_ok ha, trivial⟩

theorem Loc.write_answers (l : Loc) (s : State) (v : Byte) :
    Answers s l.accesses (fun u => u.pc = s.pc) (l.write s v) := by
  cases l with
  | reg8 r => exact ⟨_, rfl, s.setR8_pc r v⟩
  | imm w => exact ⟨_, rfl, rfl⟩
  | mem a => exact .one (memWrite_error · v) fun ha => ⟨_, memWrite_ok ha v, rfl⟩

@[simp] theorem ByteOperand.postModify_pc (o : ByteOperand) (s : State) : (o.postModify s).pc = s.pc := by
  cases o <;> rfl

theorem copyByte_eq_bind (dst src : ByteOperand) (s : State) : copyByte dst src s =
    ((src.resolve s).read s).bind fun v =>
      ((dst.resolve s).write s v).map fun u => dst.postModify (src.postModify u) := by
  unfold copyByte
  cases (src.resolve s).read s with
  | error f => rfl
  | ok v => cases h : (dst.resolve s).write s v <;> simp [Except.bind, Except.map, h]

theorem copyByte_answers (dst src : ByteOperand) (s : State) :
    Answers s ((src.resolve s).accesses ++ (dst.resolve s).accesses) (fun u => u.pc = s.pc) (copyByte dst src s) := by
  rw [copyByte_eq_bind]
  exact Answers.bind (Loc.read_answers _ s) fun v _ =>
    Answers.map (Loc.write_answers _ s v) fun u hu => by simpa using hu

/-- A read-modify-write of (HL) reads and writes the one cell, so its one check decides both (R65). -/
theorem updateRM_answers (x : RM8) {f : Byte → Byte} {g : Byte → State → State} (s : State)
    (hg : ∀ v u, (g v u).pc = u.pc) : Answers s (rmAccesses x s) (fun u => u.pc = s.pc) (updateRM x f g s) := by
  cases x with
  | reg r => exact ⟨_, updateRM_reg r f g s, by simp [hg]⟩
  | mhl =>
    refine .one (fun ha => ?_) fun ha => ⟨_, updateRM_mhl ha, by simp [hg]⟩
    have hr : ((rmOperand .mhl).resolve s).read s = .error (addressFault s s.hl.toNat) := memRead_error ha
    simp only [updateRM, hr]

theorem srcOperand_accesses (src : Src8) (s : State) : ((srcOperand src).resolve s).accesses = srcAccesses src s := by
  cases src <;> rfl

theorem rmOperand_accesses (x : RM8) (s : State) : ((rmOperand x).resolve s).accesses = rmAccesses x s := by
  cases x <;> rfl

theorem withSrc_eq_map (src : Src8) (s : State) (k : Byte → State) :
    withSrc src s k = (((srcOperand src).resolve s).read s).map k := by
  unfold withSrc
  cases ((srcOperand src).resolve s).read s <;> rfl

theorem withSrc_answers (src : Src8) (s : State) {k : Byte → State} (hk : ∀ v, (k v).pc = s.pc) :
    Answers s (srcAccesses src s) (fun u => u.pc = s.pc) (withSrc src s k) := by
  rw [withSrc_eq_map, ← srcOperand_accesses]
  exact Answers.map (Loc.read_answers _ s) fun v _ => hk v

theorem execBit_eq_complete (b : BitVec 3) (x : RM8) (s : State) : execBit b x s =
    complete 2 ((((rmOperand x).resolve s).read s).map fun v => s.setFlags (!v.getLsbD b.toNat) false true s.flagC) := by
  unfold execBit
  cases ((rmOperand x).resolve s).read s <;> rfl

theorem memWriteWord_answers (s : State) (a : Nat) (v : Word) :
    Answers s [a, a + 1] (fun u => u.pc = s.pc) (memWriteWord s a v) :=
  .two (fun h => by simp [memWriteWord, h]) (fun h h' => by simp [memWriteWord, h, h'])
    fun h h' => ⟨_, memWriteWord_ok h h' v, rfl⟩

/-! ### The accesses of the stack (R57 to R59) -/

theorem pushByte_error {s : State} (v : Byte) (h : inStore s.params (pushCell s.params.stackMode s.sp).toNat = false) :
    pushByte s v = .error (addressFault s (pushCell s.params.stackMode s.sp).toNat) := by
  unfold pushByte
  cases hm : s.params.stackMode <;> simp only [hm, pushCell] at h ⊢
  · rw [memWrite_error h]
  · exact memWrite_error (s := { s with sp := s.sp - 1 }) h v

theorem popByte_error {s : State} (h : inStore s.params (popCell s.params.stackMode s.sp).toNat = false) :
    popByte s = .error (addressFault s (popCell s.params.stackMode s.sp).toNat) := by
  unfold popByte
  cases hm : s.params.stackMode <;> simp only [hm, popCell] at h ⊢ <;> rw [memRead_error h]

theorem pushCells_eq (s : State) : pushCells s =
    [(pushCell s.params.stackMode s.sp).toNat, (pushCell s.params.stackMode (s.sp - 1)).toNat] := by
  unfold pushCells pushCell
  cases s.params.stackMode <;> simp [BitVec.sub_sub]

theorem popCells_eq (s : State) : popCells s =
    [(popCell s.params.stackMode s.sp).toNat, (popCell s.params.stackMode (s.sp + 1)).toNat] := by
  unfold popCells popCell
  cases s.params.stackMode <;> simp [BitVec.add_assoc]

theorem pushWord_answers (s : State) (v : Word) :
    Answers s (pushCells s) (fun u => u.pc = s.pc) (pushWord s v) := by
  rw [pushCells_eq]
  refine .two (fun h => ?_) (fun h h' => ?_) fun h h' => ⟨_, pushWord_ok v h h', rfl⟩
  · simp only [pushWord, pushByte_error _ h]
  · simp only [pushWord, pushByte_ok _ h]
    exact pushByte_error _ h'

theorem popWord_answers (s : State) : Answers s (popCells s) (fun p => p.2.pc = s.pc) (popWord s) := by
  rw [popCells_eq]
  refine .two (fun h => ?_) (fun h h' => ?_) fun h h' => ⟨_, popWord_ok h h', rfl⟩
  · simp only [popWord, popByte_error h]
  · have hb := popByte_error (s := { s with sp := s.sp + 1 }) h'
    simp only [popWord, popByte_ok h, hb]
    rfl

theorem callTo_eq_map (s : State) (len : Nat) (target : Word) :
    callTo s len target = (pushWord s (s.pc + BitVec.ofNat 16 len)).map (target, ·) := by
  unfold callTo
  cases pushWord s (s.pc + BitVec.ofNat 16 len) <;> rfl

theorem callTo_answers (s : State) (len : Nat) (target : Word) :
    Answers s (pushCells s) (fun _ => True) (callTo s len target) := by
  rw [callTo_eq_map]
  exact Answers.map (pushWord_answers s _) fun _ _ => trivial

theorem returnFromInterrupt_eq_map (s : State) :
    returnFromInterrupt s = (popWord s).map fun p => (p.1, { p.2 with ime := true }) := by
  unfold returnFromInterrupt
  cases popWord s <;> rfl

theorem execPop_eq_complete (rr : R16Stk) (s : State) :
    execPop rr s = complete 1 ((popWord s).map fun p => p.2.setR16 (stkPair rr) p.1) := by
  unfold execPop
  cases popWord s <;> rfl

/-! ### The end of every instruction -/

theorem State.setR16_pc (s : State) {rr : Pair} (h : rr ≠ .pc) (v : Word) : (s.setR16 rr v).pc = s.pc := by
  cases rr with
  | pc => exact absurd rfl h
  | af | bc | de | hl | sp => rfl

theorem r16Pair_ne_pc (rr : R16) : r16Pair rr ≠ .pc := by cases rr <;> decide

theorem stkPair_ne_pc (rr : R16Stk) : stkPair rr ≠ .pc := by cases rr <;> decide

/-- PC at the end of an instruction that sets no target (R82). -/
abbrev PcNext (i : Instr) (s t : State) : Prop := setsTarget i s = false → t.pc = s.pc + BitVec.ofNat 16 i.length

theorem Answers.ends_complete {i : Instr} {s : State} {addrs : List Nat} {r : Except Fault State}
    (h : Answers s addrs (fun u => u.pc = s.pc) r) : Ends s addrs (PcNext i s) (complete i.length r) := by
  refine AccessesLead.imp h (fun f hf => by rw [hf]; rfl) ?_
  rintro ⟨u, rfl, hu⟩
  exact ⟨u.advance i.length, rfl, fun _ => by rw [State.advance_pc, hu]⟩

theorem Answers.ends_transfer {i : Instr} {s : State} {addrs : List Nat} {r : Except Fault (Word × State)}
    {P : Word × State → Prop} (h : Answers s addrs P r) (hi : setsTarget i s = true) :
    Ends s addrs (PcNext i s) (transfer r) := by
  refine AccessesLead.imp h (fun f hf => by rw [hf]; rfl) ?_
  rintro ⟨⟨w, u⟩, rfl, -⟩
  exact ⟨u.jumpTo w, rfl, fun hn => absurd (hi.symm.trans hn) (by decide)⟩

/-- An instruction without accesses that leaves PC to become `pc_next`. -/
theorem ends_of_no_access {i : Instr} {s u : State} (h : u.pc = s.pc) :
    Ends s [] (PcNext i s) (complete i.length (.ok u)) :=
  Answers.ends_complete (addrs := []) ⟨u, rfl, h⟩

/-- An instruction without accesses that sets a target. -/
theorem ends_of_jump {i : Instr} {s : State} (w : Word) (hi : setsTarget i s = true) :
    Ends s [] (PcNext i s) (transfer (.ok (w, s))) :=
  Answers.ends_transfer (addrs := []) (P := fun _ => True) ⟨_, rfl, trivial⟩ hi

/-- A byte load: the access of the source, then that of the destination (R146). -/
theorem ends_of_copy {i : Instr} {dst src : ByteOperand} {s : State} {addrs : List Nat}
    (h : (src.resolve s).accesses ++ (dst.resolve s).accesses = addrs) :
    Ends s addrs (PcNext i s) (complete i.length (copyByte dst src s)) :=
  h ▸ (copyByte_answers dst src s).ends_complete

theorem ends_of_src {i : Instr} {src : Src8} {s : State} {k : Byte → State} (hk : ∀ v, (k v).pc = s.pc) :
    Ends s (srcAccesses src s) (PcNext i s) (complete i.length (withSrc src s k)) :=
  (withSrc_answers src s hk).ends_complete

theorem ends_of_update {i : Instr} {x : RM8} {f : Byte → Byte} {g : Byte → State → State} {s : State}
    (hg : ∀ v u, (g v u).pc = u.pc) :
    Ends s (rmAccesses x s) (PcNext i s) (complete i.length (updateRM x f g s)) :=
  (updateRM_answers x s hg).ends_complete

/-- A conditional call or return: it makes its accesses only if it is taken (R166, R168). -/
theorem ends_of_cond {i : Instr} {s : State} {cc : Cond} {addrs : List Nat} {r : Except Fault (Word × State)}
    {P : Word × State → Prop} (hi : setsTarget i s = cond cc s) (h : Answers s addrs P r) :
    Ends s (if cond cc s then addrs else []) (PcNext i s)
      (if cond cc s then transfer r else complete i.length (.ok s)) := by
  cases hc : cond cc s with
  | true => simpa using h.ends_transfer (hi.trans hc)
  | false => simpa using ends_of_no_access (i := i) (s := s) rfl

theorem ends_of_cond_jump {i : Instr} {s : State} {cc : Cond} (w : Word) (hi : setsTarget i s = cond cc s) :
    Ends s [] (PcNext i s) (if cond cc s then transfer (.ok (w, s)) else complete i.length (.ok s)) := by
  have h := ends_of_cond (addrs := []) (r := .ok (w, s)) (P := fun _ => True) hi ⟨_, rfl, trivial⟩
  rwa [ite_self] at h

/-- Every instruction but ILLEGAL completes if its accesses have cells, with PC at `pc_next` if it sets no target, and
otherwise faults at the first that has none. -/
theorem exec_ends {i : Instr} (s : State) (hi : ∀ op, i ≠ .illegal op) :
    Ends s (accesses i s) (PcNext i s) (exec i s) := by
  cases i with
  | illegal op => exact absurd rfl (hi op)
  | nop | halt | stop n | di | ei => exact ends_of_no_access rfl
  | rlca | rrca | rla | rra | daa | cpl | scf | ccf => exact ends_of_no_access rfl
  | ldSpHl | ldHlSpE8 e | addSpE8 e | addHl rr => exact ends_of_no_access rfl
  | ldPairImm rr n => exact ends_of_no_access (s.setR16_pc (r16Pair_ne_pc rr) n)
  | incPair rr | decPair rr => exact ends_of_no_access (s.setR16_pc (r16Pair_ne_pc rr) _)
  | jp a => exact ends_of_jump a rfl
  | jpHl => exact ends_of_jump s.hl rfl
  | jr e => exact ends_of_jump (relativeTarget s e) rfl
  | jpCond cc a => exact ends_of_cond_jump a rfl
  | jrCond cc e => exact ends_of_cond_jump (relativeTarget s e) rfl
  | call a => exact (callTo_answers s 3 a).ends_transfer rfl
  | rst y => exact (callTo_answers s 1 (restartTarget y)).ends_transfer rfl
  | callCond cc a => exact ends_of_cond rfl (callTo_answers s 3 a)
  | ret => exact (popWord_answers s).ends_transfer rfl
  | retCond cc => exact ends_of_cond rfl (popWord_answers s)
  | reti =>
    have h : Answers s (popCells s) (fun _ => True) (returnFromInterrupt s) := by
      rw [returnFromInterrupt_eq_map]
      exact (popWord_answers s).map fun _ _ => trivial
    exact h.ends_transfer rfl
  | push rr => exact (pushWord_answers s _).ends_complete
  | pop rr =>
    rw [exec, execPop_eq_complete]
    refine Answers.ends_complete (i := .pop rr) ((popWord_answers s).map fun p hp => ?_)
    exact (p.2.setR16_pc (stkPair_ne_pc rr) p.1).trans hp
  | ldMabsSp a => exact (memWriteWord_answers s a.toNat s.sp).ends_complete
  | add src | adc src | sub src | sbc src | and src | xor src | or src | cp src => exact ends_of_src fun _ => rfl
  | incReg r | decReg r => exact ends_of_no_access (s.setR8_pc r _)
  | incMhl | decMhl => exact ends_of_update (x := .mhl) fun _ _ => rfl
  | rlc x | rrc x | rl x | rr x | sla x | sra x | swap x | srl x => exact ends_of_update fun _ _ => rfl
  | res b x | set b x => exact ends_of_update fun _ _ => rfl
  | bit b x =>
    rw [exec, execBit_eq_complete, accesses, ← rmOperand_accesses]
    exact Answers.ends_complete (i := .bit b x) ((Loc.read_answers _ s).map fun _ _ => rfl)
  | ldRegReg dst src => exact ends_of_copy (dst := .reg dst) (src := .reg src) rfl
  | ldRegImm dst n => exact ends_of_copy (dst := .reg dst) (src := .imm n) rfl
  | ldRegMhl _ | ldMhlReg _ | ldMhlImm _ => exact ends_of_copy rfl
  | ldAMbc | ldAMde | ldMbcA | ldMdeA | ldAMhlInc | ldAMhlDec | ldMhlIncA | ldMhlDecA => exact ends_of_copy rfl
  | ldAMabs _ | ldMabsA _ | ldhAImm _ | ldhImmA _ | ldhAC | ldhCA => exact ends_of_copy rfl

/-- Settles O20: `exec_ends`, read at what the search through the accesses finds. -/
theorem execCompletesOrFaultsAtFirstAccess : Obligations.ExecCompletesOrFaultsAtFirstAccess := by
  intro i s hi
  have h := exec_ends s hi
  split
  · rename_i a ha
    exact h.of_find_some ha
  · rename_i ha
    obtain ⟨t, ht, -⟩ := h.of_find_none ha
    exact ⟨t, ht⟩

/-- Settles O25: ILLEGAL answers no next state, and `exec_ends` gives PC after any other instruction. -/
theorem pcAdvancesPastInstruction : Obligations.PcAdvancesPastInstruction := by
  intro i s t h hn
  have hi : ∀ op, i ≠ .illegal op := by
    rintro op rfl
    cases h
  have hpc : t.pc = s.pc + BitVec.ofNat 16 i.length := (exec_ends s hi).next h hn
  simp [hpc]

end Sys2Proof.Machine
end

section
/-! What an instruction keeps of the registers and the latches (10_state R23, R30, R31): the 8-bit registers and SP
outside its written ones, and each latch that it is not named to write. -/

namespace Sys2Proof.Machine

open Sys2Proof Sys2Proof.Claim

/-! ### The registers an operation writes (R23) -/

/-- From `s` to `t` every 8-bit register outside `written` keeps its value, and so does SP unless `sp` is set. -/
abbrev RegistersKeptBut (written : List Reg8) (sp : Bool) (s t : State) : Prop :=
  (∀ r, r ∉ written → t.r8 r = s.r8 r) ∧ (sp = false → t.sp = s.sp)

/-- The 8-bit halves of a 16-bit register, F apart (R21, R22). -/
def Pair.halves : Pair → List Reg8
  | .af => [.a]
  | .bc => [.b, .c]
  | .de => [.d, .e]
  | .hl => [.h, .l]
  | .sp | .pc => []

/-- The register that a byte operand names as a destination (R91). -/
def ByteOperand.destination : ByteOperand → List Reg8
  | .reg r => [r]
  | .imm _ | .indirect _ | .hlInc | .hlDec | .absolute _ | .highImm _ | .highC => []

/-- The registers that the marker of a byte operand writes (R93). -/
def ByteOperand.marked : ByteOperand → List Reg8
  | .hlInc | .hlDec => [.h, .l]
  | .reg _ | .imm _ | .indirect _ | .absolute _ | .highImm _ | .highC => []

section
variable {ws : List Reg8} {w : Bool} {s t u : State}

theorem RegistersKeptBut.refl (ws : List Reg8) (w : Bool) (s : State) : RegistersKeptBut ws w s s :=
  ⟨fun _ _ => rfl, fun _ => rfl⟩

/-- A further operation that writes none of these registers. -/
theorem RegistersKeptBut.of_same (h : RegistersKeptBut ws w s u) (hr : ∀ r, t.r8 r = u.r8 r) (hs : t.sp = u.sp) :
    RegistersKeptBut ws w s t :=
  ⟨fun r hn => (hr r).trans (h.1 r hn), fun hw => hs.trans (h.2 hw)⟩

/-- Two operations in a row write what either writes. -/
theorem RegistersKeptBut.trans {ws' : List Reg8} (h : RegistersKeptBut ws w s u) (h' : RegistersKeptBut ws' w u t) :
    RegistersKeptBut (ws ++ ws') w s t := by
  refine ⟨fun r hn => ?_, fun hw => (h'.2 hw).trans (h.2 hw)⟩
  obtain ⟨h1, h2⟩ := not_or.mp (mt List.mem_append.mpr hn)
  exact (h'.1 r h2).trans (h.1 r h1)

theorem RegistersKeptBut.setFlags (h : RegistersKeptBut ws w s u) (z n hc c : Bool) :
    RegistersKeptBut ws w s (u.setFlags z n hc c) :=
  h.of_same (u.r8_setFlags z n hc c) rfl

theorem RegistersKeptBut.advance (h : RegistersKeptBut ws w s u) (len : Nat) :
    RegistersKeptBut ws w s (u.advance len) :=
  h.of_same (u.r8_advance len) rfl

theorem RegistersKeptBut.jumpTo (h : RegistersKeptBut ws w s u) (target : Word) :
    RegistersKeptBut ws w s (u.jumpTo target) :=
  h.of_same (u.r8_jumpTo target) rfl

theorem setR8_keeps_registers (s : State) (r : Reg8) (w : Bool) (v : Byte) : RegistersKeptBut [r] w s (s.setR8 r v) :=
  ⟨fun _ hn => s.r8_setR8_other (mt List.mem_singleton.mpr hn) v, fun _ => s.setR8_sp r v⟩

theorem poke_keeps_registers (s : State) (ws : List Reg8) (w : Bool) (a : Nat) (v : Byte) :
    RegistersKeptBut ws w s (s.poke a v) :=
  (RegistersKeptBut.refl ws w s).of_same (s.r8_poke a v) rfl

theorem State.r8_setR16_other (s : State) {rr : Pair} {r : Reg8} (h : r ∉ Pair.halves rr) (v : Word) :
    (s.setR16 rr v).r8 r = s.r8 r := by
  cases rr <;> cases r <;> simp_all [Pair.halves, State.r8, State.setR16]

theorem r16Halves_eq (rr : R16) : r16Halves rr = Pair.halves (r16Pair rr) := by cases rr <;> rfl

theorem stkHalves_eq (rr : R16Stk) : stkHalves rr = Pair.halves (stkPair rr) := by cases rr <;> rfl

theorem setR16_keeps_registers (s : State) (rr : R16) (v : Word) :
    RegistersKeptBut (r16Halves rr) (decide (rr = .sp)) s (s.setR16 (r16Pair rr) v) := by
  refine ⟨fun r hn => s.r8_setR16_other (r16Halves_eq rr ▸ hn) v, fun hw => ?_⟩
  cases rr with
  | sp => cases hw
  | bc | de | hl => rfl

theorem Loc.write_keeps_registers {o : ByteOperand} {v : Byte} (h : (o.resolve s).write s v = .ok t) :
    RegistersKeptBut o.destination w s t := by
  cases o with
  | reg r => exact Except.ok.inj h ▸ setR8_keeps_registers s r w v
  | imm n => exact Except.ok.inj h ▸ .refl [] w s
  | indirect _ | hlInc | hlDec | absolute _ | highImm _ | highC =>
    obtain ⟨-, rfl⟩ := memWrite_inv h
    exact poke_keeps_registers s [] w _ v

theorem postModify_keeps_registers (o : ByteOperand) (s : State) (w : Bool) :
    RegistersKeptBut o.marked w s (o.postModify s) := by
  cases o with
  | hlInc => exact ⟨(setR16_keeps_registers s .hl (s.hl + 1)).1, fun _ => rfl⟩
  | hlDec => exact ⟨(setR16_keeps_registers s .hl (s.hl - 1)).1, fun _ => rfl⟩
  | reg _ | imm _ | indirect _ | absolute _ | highImm _ | highC => exact .refl [] w s

/-! ### The shared operations of the meanings -/

theorem complete_keeps_registers {len : Nat} {r : Except Fault State} (h : complete len r = .next t)
    (hr : ∀ u, r = .ok u → RegistersKeptBut ws w s u) : RegistersKeptBut ws w s t := by
  obtain ⟨u, hu, rfl⟩ := complete_next h
  exact (hr u hu).advance len

theorem transfer_keeps_registers {r : Except Fault (Word × State)} (h : transfer r = .next t)
    (hr : ∀ target u, r = .ok (target, u) → RegistersKeptBut ws w s u) : RegistersKeptBut ws w s t := by
  obtain ⟨target, u, hu, rfl⟩ := transfer_next h
  exact (hr target u hu).jumpTo target

theorem copyByte_keeps_registers {dst src : ByteOperand} (h : copyByte dst src s = .ok t) :
    RegistersKeptBut (dst.destination ++ src.marked ++ dst.marked) w s t := by
  obtain ⟨v, u, -, hu, rfl⟩ := copyByte_inv h
  exact ((Loc.write_keeps_registers hu).trans (postModify_keeps_registers src u w)).trans
    (postModify_keeps_registers dst _ w)

theorem updateRM_keeps_registers {x : RM8} {f : Byte → Byte} {g : Byte → State → State}
    (hg : ∀ v u, RegistersKeptBut (rmHalves x) w s u → RegistersKeptBut (rmHalves x) w s (g v u))
    (h : updateRM x f g s = .ok t) : RegistersKeptBut (rmHalves x) w s t := by
  obtain ⟨v, u, -, hu, rfl⟩ := updateRM_inv h
  have hx : (rmOperand x).destination = rmHalves x := by cases x <;> rfl
  exact hg v u (hx ▸ Loc.write_keeps_registers hu)

theorem pushWord_keeps_registers {v : Word} (h : pushWord s v = .ok t) : RegistersKeptBut [] true s t := by
  obtain ⟨-, -, rfl⟩ := pushWord_inv h
  exact ⟨fun r _ => by cases r <;> rfl, fun hw => by cases hw⟩

theorem popWord_keeps_registers {v : Word} (h : popWord s = .ok (v, t)) : RegistersKeptBut [] true s t := by
  obtain ⟨-, -, -, rfl⟩ := popWord_inv h
  exact ⟨fun r _ => by cases r <;> rfl, fun hw => by cases hw⟩

/-- A conditional transfer that writes SP only when it is taken (R166, R168). -/
theorem cond_keeps_registers {cc : Cond} {len : Nat} {r : Except Fault (Word × State)}
    (h : (if cond cc s then transfer r else complete len (.ok s)) = .next t)
    (hr : ∀ target u, r = .ok (target, u) → RegistersKeptBut [] true s u) : RegistersKeptBut [] (cond cc s) s t := by
  cases hc : cond cc s with
  | true => exact transfer_keeps_registers (by simpa [hc] using h) hr
  | false =>
    have h : complete len (.ok s) = .next t := by simpa [hc] using h
    exact complete_keeps_registers h fun u hu => Except.ok.inj hu ▸ .refl [] false s

end

/-! ### Every instruction -/

/-- An instruction writes its own 8-bit registers alone, and SP only if it writes SP. -/
theorem exec_keeps_registers {i : Instr} {s t : State} (h : exec i s = .next t) :
    RegistersKeptBut (writtenR8 i) (writesSp i s) s t := by
  have one : ∀ {ws w len u}, complete len (.ok u) = .next t → RegistersKeptBut ws w s u → RegistersKeptBut ws w s t :=
    fun h hu => complete_keeps_registers h fun _ hv => Except.ok.inj hv ▸ hu
  have jump : ∀ {ws w target}, transfer (.ok (target, s)) = .next t → RegistersKeptBut ws w s t := fun h =>
    transfer_keeps_registers h fun _ u hu => by
      cases hu
      exact .refl _ _ s
  have src : ∀ {ws w len x k}, complete len (withSrc x s k) = .next t → (∀ v, RegistersKeptBut ws w s (k v)) →
      RegistersKeptBut ws w s t := fun h hk => complete_keeps_registers h fun _ hu => by
    obtain ⟨v, -, rfl⟩ := withSrc_inv hu
    exact hk v
  cases i with
  | illegal op => cases h
  | nop => exact one h (.refl _ _ s)
  | halt | stop n | di | ei => exact one h ⟨fun r _ => by cases r <;> rfl, fun _ => rfl⟩
  | jp a | jpHl | jr e => exact jump h
  | jpCond cc a | jrCond cc e =>
    simp only [exec, execJpCond, execJrCond] at h
    split at h
    · exact jump h
    · exact one h (.refl _ _ s)
  | call a | rst y => exact transfer_keeps_registers h fun _ _ hu => pushWord_keeps_registers (callTo_inv hu).2
  | callCond cc a => exact cond_keeps_registers h fun _ _ hu => pushWord_keeps_registers (callTo_inv hu).2
  | ret => exact transfer_keeps_registers h fun _ _ hu => popWord_keeps_registers hu
  | retCond cc => exact cond_keeps_registers h fun _ _ hu => popWord_keeps_registers hu
  | reti =>
    refine transfer_keeps_registers h fun _ _ hu => ?_
    obtain ⟨u, hp, rfl⟩ := returnFromInterrupt_inv hu
    exact (popWord_keeps_registers hp).of_same (fun r => by cases r <;> rfl) rfl
  | push rr => exact complete_keeps_registers h fun _ hu => pushWord_keeps_registers hu
  | pop rr =>
    simp only [exec, execPop] at h
    split at h
    · rename_i v u hu
      refine one h ⟨fun r hr => ?_, fun hw => by cases hw⟩
      exact (u.r8_setR16_other (stkHalves_eq rr ▸ hr) v).trans ((popWord_keeps_registers hu).1 r List.not_mem_nil)
    · cases h
  | ldMabsSp a =>
    refine complete_keeps_registers h fun u hu => ?_
    obtain ⟨-, -, rfl⟩ := memWriteWord_inv hu
    exact (poke_keeps_registers s [] false _ _).trans (poke_keeps_registers _ [] false _ _)
  | ldPairImm rr n | incPair rr | decPair rr => exact one h (setR16_keeps_registers s rr _)
  | ldSpHl => exact one h (setR16_keeps_registers s .sp _)
  | addSpE8 e => exact one h ((setR16_keeps_registers s .sp _).setFlags _ _ _ _)
  | addHl rr | ldHlSpE8 e => exact one h ((setR16_keeps_registers s .hl _).setFlags _ _ _ _)
  | rlca | rrca | rla | rra | daa | cpl => exact one h ((setR8_keeps_registers s .a _ _).setFlags _ _ _ _)
  | scf | ccf => exact one h ((RegistersKeptBut.refl _ _ s).setFlags _ _ _ _)
  | add x | adc x | sub x | sbc x | and x | xor x | or x =>
    exact src h fun _ => (setR8_keeps_registers s .a _ _).setFlags _ _ _ _
  | cp x => exact src h fun _ => (RegistersKeptBut.refl _ _ s).setFlags _ _ _ _
  | incReg r | decReg r => exact one h ((setR8_keeps_registers s r _ _).setFlags _ _ _ _)
  | incMhl | decMhl =>
    exact complete_keeps_registers h fun _ hu =>
      updateRM_keeps_registers (x := .mhl) (fun _ _ hv => hv.setFlags _ _ _ _) hu
  | rlc x | rrc x | rl x | rr x | sla x | sra x | swap x | srl x =>
    exact complete_keeps_registers h fun _ hu => updateRM_keeps_registers (fun _ _ hv => hv.setFlags _ _ _ _) hu
  | res b x | set b x =>
    exact complete_keeps_registers h fun _ hu => updateRM_keeps_registers (fun _ _ hv => hv) hu
  | bit b x =>
    simp only [exec, execBit] at h
    split at h
    · exact one h ((RegistersKeptBut.refl _ _ s).setFlags _ _ _ _)
    · cases h
  | ldRegReg dst x =>
    exact complete_keeps_registers (len := 1) (r := copyByte (.reg dst) (.reg x) s) h
      fun _ hu => copyByte_keeps_registers hu
  | ldRegImm dst n =>
    exact complete_keeps_registers (len := 2) (r := copyByte (.reg dst) (.imm n) s) h
      fun _ hu => copyByte_keeps_registers hu
  | ldRegMhl _ | ldMhlReg _ | ldMhlImm _ => exact complete_keeps_registers h fun _ hu => copyByte_keeps_registers hu
  | ldAMbc | ldAMde | ldMbcA | ldMdeA | ldAMhlInc | ldAMhlDec | ldMhlIncA | ldMhlDecA =>
    exact complete_keeps_registers h fun _ hu => copyByte_keeps_registers hu
  | ldAMabs _ | ldMabsA _ | ldhAImm _ | ldhImmA _ | ldhAC | ldhCA =>
    exact complete_keeps_registers h fun _ hu => copyByte_keeps_registers hu

/-- Settles O21: `exec_keeps_registers` is the statement. -/
theorem registerFrame : Obligations.RegisterFrame := fun _ _ _ h => exec_keeps_registers h

/-! ### The latches (R30) -/

/-- What reads nothing but the latches and the parameters survives every named operation: none of them writes those. -/
theorem keptByOps_of_sameLatches (p : Params) {P : State → Prop} (hP : ∀ u v, SameLatches u v → P u → P v) :
    KeptByOps p P where
  setR8 u r v := hP u _ (by simp [SameLatches])
  setR16 u rr v _ := hP u _ (by simp [SameLatches])
  setFlags u z n h c := hP u _ (by simp [SameLatches])
  setSp u v := hP u _ (by simp [SameLatches])
  setHl u v := hP u _ (by simp [SameLatches])
  poke u a v _ _ := hP u _ (by simp [SameLatches])
  advance u len := hP u _ (by simp [SameLatches])
  jumpTo u target := hP u _ (by simp [SameLatches])

/-- The latches that `i` may not write, and the parameters, are the same. -/
abbrev LatchesKept (i : Instr) (s t : State) : Prop :=
  (i ≠ .halt → t.halted = s.halted) ∧ ((∀ n, i ≠ .stop n) → t.stopped = s.stopped) ∧
    (i ≠ .di → i ≠ .reti → t.ime = s.ime) ∧ (i ≠ .di → i ≠ .ei → t.eiPending = s.eiPending) ∧
    t.fault = s.fault ∧ t.params = s.params

theorem LatchesKept.of_sameLatches {i : Instr} {s u v : State} (h : SameLatches u v) (hu : LatchesKept i s u) :
    LatchesKept i s v := by
  obtain ⟨ime, ei, halted, stopped, fault, params⟩ := h
  simpa only [LatchesKept, ime, ei, halted, stopped, fault, params] using hu

/-- The named operations write no latch, and each of the five instructions that do is excused from its own. -/
theorem exec_keeps_latches {i : Instr} {s t : State} (h : exec i s = .next t) : LatchesKept i s t := by
  refine exec_keeps (keptByOps_of_sameLatches s.params fun u v => LatchesKept.of_sameLatches) (P := LatchesKept i s)
    (by simp [LatchesKept]) (reti := ?reti) (di := ?di) (ei := ?ei) (halt := ?halt) (stop := ?stop) h
  case reti =>
    rintro rfl u ⟨halted, stopped, -, ei, rest⟩
    exact ⟨halted, stopped, fun _ hn => absurd rfl hn, ei, rest⟩
  case di =>
    rintro rfl
    simp [LatchesKept]
  case ei =>
    rintro rfl
    simp [LatchesKept]
  case halt =>
    rintro rfl
    simp [LatchesKept]
  case stop =>
    rintro n rfl
    simp [LatchesKept]

/-- Settles O23: `exec_keeps_latches` is the statement. -/
theorem latchFrame : Obligations.LatchFrame := fun _ _ _ h => exec_keeps_latches h

/-! ### The delayed enable (R31) -/

theorem exec_di_next {s t : State} (h : exec .di s = .next t) : t.ime = false ∧ t.eiPending = false := by
  cases h
  exact ⟨rfl, rfl⟩

theorem exec_ei_next {s t : State} (h : exec .ei s = .next t) : t.eiPending = true := by
  cases h
  rfl

theorem exec_reti_next {s t : State} (h : exec .reti s = .next t) : t.ime = true := by
  obtain ⟨target, u, hu, rfl⟩ := transfer_next h
  obtain ⟨v, -, rfl⟩ := returnFromInterrupt_inv hu
  rfl

/-- After an instruction an enable is pending if it is EI, or if one was before and it is not DI (R31, R243, R244). -/
theorem exec_eiPending_iff {i : Instr} {s t : State} (h : exec i s = .next t) :
    t.eiPending = true ↔ i = .ei ∨ i ≠ .di ∧ s.eiPending = true := by
  by_cases hdi : i = .di
  · subst hdi
    simp [(exec_di_next h).2]
  · by_cases hei : i = .ei
    · subst hei
      simp [exec_ei_next h]
    · obtain ⟨-, -, -, kept, -⟩ := exec_keeps_latches h
      simp [hdi, hei, kept hdi hei]

/-- Settles O26: the delayed-enable step acts exactly if an enable was pending before the instruction and still is after
it, and only DI drops a pending one. -/
theorem delayedEnable : Obligations.DelayedEnable := by
  rintro s t i ⟨hf, hh, hs⟩ hi h
  rw [step_running hf hh hs hi] at h
  obtain ⟨u, hu, rfl⟩ := finishStep_next h
  have pending := exec_eiPending_iff hu
  refine ⟨fun hp => ⟨by simp [hp], fun hdi => ?_, fun hdi => ?_⟩, fun hp => ⟨?_, fun hdi => ?_, fun hr => ?_, ?_⟩⟩
  · subst hdi
    simp [exec_di_next hu]
  · simp [hp, pending.mpr (.inr ⟨hdi, hp⟩)]
  · simpa [hp] using pending
  · subst hdi
    simp [exec_di_next hu]
  · subst hr
    simp [exec_reti_next hu]
  · obtain ⟨-, -, ime, -⟩ := exec_keeps_latches hu
    simpa [hp] using ime

end Sys2Proof.Machine
end

section
/-! The views of the register file and F[3:0] (10_state R21, R22, R25, R41), the launch and what the host may do between
steps (70_reset_and_hazards R280 to R284). -/

namespace Sys2Proof.Machine

open Sys2Proof Sys2Proof.Claim

/-! ### Halves, pairs and the mask of F -/

/-- Settles O28: each half and its pair are read from one word; only a write of AF or F is masked. -/
theorem halvesAreViewsOfPairs : Obligations.HalvesAreViewsOfPairs := fun s v w =>
  ⟨fun r _ => ⟨s.r8_setR8_same r v, (s.r8_setR8_other · v), s.f_setR8 r v⟩,
    rfl, rfl, rfl, rfl, rfl, rfl, rfl, rfl, rfl, rfl, rfl, rfl, rfl, hiByte_maskAf w, loByte_maskAf w, rfl⟩

/-- No bit of F[3:0] passes the mask of R25. -/
theorem mask_flags_low (v : Byte) : v &&& 0xF0 &&& 0x0F = 0 := by
  rw [BitVec.and_assoc]
  exact BitVec.and_zero

/-- A write to F is the write to AF that leaves A. -/
theorem State.setF_eq_setR16 (s : State) (v : Byte) : s.setF v = s.setR16 .af (join (s.r8 .a) v) := by
  have h : maskAf (join (s.r8 .a) v) = join (s.r8 .a) (v &&& 0xF0) := by
    rw [← join_halves (maskAf (join (s.r8 .a) v))]
    simp
  simp only [State.setR16, h]
  rfl

theorem keptByOps_flagsLow (p : Params) : KeptByOps p State.flagsLow where
  setR8 _ r v h := State.flagsLow_setR8 h r v
  setR16 _ rr v _ h := State.flagsLow_setR16 h rr v
  setFlags u z n h c _ := u.flagsLow_setFlags z n h c
  setSp _ _ h := h
  setHl _ _ h := h
  poke _ _ _ _ _ h := h
  advance _ _ h := h
  jumpTo _ _ h := h

theorem exec_keeps_flagsLow {i : Instr} {s t : State} (hs : s.flagsLow) (h : exec i s = .next t) : t.flagsLow :=
  exec_keeps (keptByOps_flagsLow s.params) hs (reti := fun _ _ hu => hu) (di := fun _ => hs) (ei := fun _ => hs)
    (halt := fun _ => hs) (stop := fun _ _ => hs) h

theorem step_keeps_flagsLow {s t : State} (hs : s.flagsLow) (h : step s = .next t) : t.flagsLow := by
  obtain ⟨-, -, rfl⟩ | ⟨-, -, -, i, u, -, hu, rfl⟩ := step_next h
  · exact hs
  · have hf : (u.enableDelayed s.eiPending).f = u.f := by simp [State.f]
    simpa only [State.flagsLow, hf] using exec_keeps_flagsLow hs hu

/-- The word a pop answers is the one in the stack's cells (R58, R59). -/
theorem popWord_value {s t : State} {v : Word} (h : popWord s = .ok (v, t)) : v = popValue s := by
  obtain ⟨-, -, rfl, -⟩ := popWord_inv h
  unfold popValue
  cases s.params.stackMode with
  | doc =>
    simp only [popCell, State.peek, busAddress_word, BitVec.add_assoc]
    rfl
  | sm83 => simp only [popCell, State.peek, busAddress_word]

theorem exec_pop_next {rr : R16Stk} {s t : State} (h : exec (.pop rr) s = .next t) :
    t = ({ s with sp := s.sp + 1 + 1 }.setR16 (stkPair rr) (popValue s)).advance 1 := by
  rw [exec, execPop_eq_complete] at h
  obtain ⟨u, hu, rfl⟩ := complete_next h
  cases hp : popWord s with
  | error f => simp [hp, Except.map] at hu
  | ok p =>
    obtain ⟨v, w⟩ := p
    obtain ⟨-, -, -, rfl⟩ := popWord_inv hp
    rw [hp] at hu
    rw [← Except.ok.inj hu, popWord_value hp]

/-! ### The launch (R280 to R282) -/

section
variable (p : Params) (x : Init) (image : List Host.Cell)

theorem State.launch_f : (State.launch p x image).f = x.f &&& 0xF0 :=
  (loByte_maskAf _).trans (by rw [loByte_join])

theorem State.launch_flagsLow : (State.launch p x image).flagsLow := by
  rw [State.flagsLow, State.launch_f]
  exact mask_flags_low x.f

theorem State.launch_clean : CleanLaunch (State.launch p x image) :=
  ⟨rfl, rfl, rfl, rfl, State.launch_flagsLow p x image⟩

theorem State.launch_inv (hp : p.wf) : (State.launch p x image).Inv := by
  obtain ⟨hwf, hin⟩ := loadImage_wf_within p.memSize image
  exact ⟨hwf, hin, State.launch_flagsLow p x image, hp⟩

end

/-- The model's reset state is one launch among others: the zero registers, no image (log entries 1 and 2). -/
theorem reset_eq_launch : State.reset = State.launch Params.default Init.zero [] := rfl

/-- Settles O16: the halves of INIT's pairs are read back, and the cells are those of the image. -/
theorem launchTakesInitAndImage : Obligations.LaunchTakesInitAndImage := by
  intro p x image
  refine ⟨State.launch_clean p x image, State.launch_inv p x image, rfl, rfl, rfl, rfl, ?a, State.launch_f p x image,
    hiByte_join .., loByte_join .., hiByte_join .., loByte_join .., hiByte_join .., loByte_join .., ?last, ?unlisted⟩
  case a => exact (hiByte_maskAf _).trans (hiByte_join ..)
  case last =>
    rintro before later a v rfl hl hn ha
    exact loadImage_get_last hn ha before v hl
  case unlisted => exact fun a h => loadImage_get_unlisted p.memSize h

/-- Settles O15: the reset state is a launch with legal parameters. -/
theorem resetMeetsInvariant : Obligations.ResetMeetsInvariant := by
  refine ⟨?_, ?_, rfl, rfl⟩ <;> rw [reset_eq_launch]
  · exact State.launch_inv _ _ _ (by decide)
  · exact State.launch_clean _ _ _

/-! ### The host's actions between steps (R284) -/

theorem requestEntry_next {s t : State} {i : InterruptSource} (h : requestEntry i s = .next t) :
    s.fault = none ∧ s.ime = true ∧ enterInterrupt s i = .ok t := by
  unfold requestEntry at h
  split at h
  · cases h
  · rename_i hf
    split at h
    · rename_i hime
      split at h
      · rename_i u hu
        exact ⟨hf, hime, Host.Outcome.next.inj h ▸ hu⟩
      · cases h
    · cases h

theorem busAddress_of_le (p : Params) {a : Nat} (ha : a ≤ 0xFFFF) : busAddress p a = a := by
  unfold busAddress
  split
  · rfl
  · exact Nat.mod_eq_of_lt (by omega)

/-- A host write of a cell that the store has is the bus's write at its address (R53, R284). -/
theorem hostAct_writeCell_next {s t : State} {a : Nat} {v : Byte} (h : hostAct (.writeCell a v) s = .next t) :
    inStore s.params a = true ∧ t = s.poke a v := by
  simp only [hostAct] at h
  split at h
  · rename_i ha
    have hb := busAddress_of_le s.params ha.1
    exact ⟨(inStore_iff _ _).mpr (by omega), by rw [← Host.Outcome.next.inj h, State.poke, hb]⟩
  · cases h

/-- What the named operations keep, and a launch, the latch writes of an entry and a wake keep, every host action
keeps. -/
theorem hostAct_keeps {P : State → Prop} {h : HostAction} {s t : State} (k : KeptByOps s.params P) (hs : P s)
    (launch : ∀ p x image, h = .launch p x image → P (State.launch p x image))
    (entry : P { s with ime := false, eiPending := false, halted := false })
    (wake : P s.wake) (ht : hostAct h s = .next t) : P t := by
  cases h with
  | launch p x image => exact Host.Outcome.next.inj ht ▸ launch p x image rfl
  | writeR8 r v => exact Host.Outcome.next.inj ht ▸ k.setR8 s r v hs
  | writeF v =>
    rw [← Host.Outcome.next.inj ht, State.setF_eq_setR16]
    exact k.setR16 s .af _ (by decide) hs
  | writeR16 rr v =>
    rw [← Host.Outcome.next.inj ht]
    by_cases hpc : rr = .pc
    · subst hpc
      exact k.jumpTo s v hs
    · exact k.setR16 s rr v hpc hs
  | writeCell a v =>
    obtain ⟨hin, rfl⟩ := hostAct_writeCell_next ht
    exact k.poke s a v rfl hin hs
  | enterInterrupt i =>
    obtain ⟨-, -, he⟩ := requestEntry_next ht
    obtain ⟨u, hu, rfl⟩ := enterInterrupt_inv he
    exact k.jumpTo u _ (pushWord_keeps (s := { s with ime := false, eiPending := false, halted := false }) k entry hu)
  | wake => exact Host.Outcome.next.inj ht ▸ wake

theorem hostAct_keeps_flagsLow {h : HostAction} {s t : State} (hs : s.flagsLow) (ht : hostAct h s = .next t) :
    t.flagsLow :=
  hostAct_keeps (keptByOps_flagsLow s.params) hs (fun p x image _ => State.launch_flagsLow p x image) hs hs ht

/-- Settles O17: the host writes by the named operations, or launches, or writes a latch, which the invariant does not
read. -/
theorem hostActionsKeepInvariant : Obligations.HostActionsKeepInvariant := by
  intro h s t hp hs ht
  exact hostAct_keeps (keptByOps_inv s.params) hs (fun p x image hl => State.launch_inv p x image (hp p x image hl)) hs
    hs ht

/-- Settles O27: each write to F or AF is masked, and no other operation sets a bit of F[3:0]. -/
theorem lowFlagBitsStayZero : Obligations.LowFlagBitsStayZero := by
  refine ⟨fun s v => ⟨s.f_setF v, rfl⟩, fun _ _ => rfl, fun s t h => ?popAf, State.launch_f,
    fun s w => ⟨loByte_maskAf w, hiByte_maskAf w⟩, ?reset, State.launch_flagsLow, fun _ _ => step_keeps_flagsLow,
    fun _ _ _ => hostAct_keeps_flagsLow⟩
  case popAf =>
    rw [exec_pop_next h]
    exact loByte_maskAf _
  case reset =>
    rw [reset_eq_launch]
    exact State.launch_flagsLow _ _ _

end Sys2Proof.Machine
end

section
/-! Byte and word accesses (20_memory R52 to R55): the address check, what a write leaves to be read, the cells it
keeps, and the faults of the addresses without a cell. -/

namespace Sys2Proof.Machine

open Sys2Proof Sys2Proof.Claim

/-! ### The address on the bus (R53) -/

theorem busAddress_eq_ite (p : Params) (a : Nat) :
    busAddress p a = if p.addrPolicy = .wrap then a % 2 ^ 16 else a := by
  unfold busAddress
  cases p.addrPolicy <;> rfl

/-- Under either policy the two addresses of a word reach two cells. -/
theorem busAddress_succ_ne (p : Params) (a : Nat) : busAddress p (a + 1) ≠ busAddress p a := by
  unfold busAddress
  cases p.addrPolicy with
  | fault => exact Nat.succ_ne_self a
  | wrap =>
    change (a + 1) % 0x10000 ≠ a % 0x10000
    omega

/-- Without the reduction an address past 0xFFFF has no cell, whatever the size of the store. -/
theorem inStore_past_end {p : Params} {a : Nat} (hp : p.addrPolicy = .fault) (ha : 0xFFFF < a) :
    inStore p a = false := by
  simp [inStore, busAddress, hp, ha]

/-! ### The cells a write keeps -/

section
variable {cells : List Nat} {s t u : State}

theorem sameCellsBut_refl (cells : List Nat) (s : State) : SameCellsBut cells s s := fun _ _ => rfl

/-- A further operation that leaves the store. -/
theorem sameCellsBut_of_mem_eq (h : SameCellsBut cells s u) (hm : t.mem = u.mem) : SameCellsBut cells s t :=
  fun b hb => (congrArg (Memory.get · b) hm).trans (h b hb)

/-- A further write to one of the listed cells. -/
theorem sameCellsBut_poke (h : SameCellsBut cells s u) {a : Nat} (ha : busAddress u.params a ∈ cells) (v : Byte) :
    SameCellsBut cells s (u.poke a v) := fun b hb =>
  (Memory.get_set_other _ v (ne_of_mem_of_not_mem ha hb).symm).trans (h b hb)

end

/-- Settles O30: the check is `inStore_iff`, and a write changes the one cell that a read of the same address reaches. -/
theorem byteAccessChecksAndRoundTrips : Obligations.ByteAccessChecksAndRoundTrips := by
  intro s a v
  simp only [← busAddress_eq_ite]
  refine ⟨(inStore_iff s.params a).trans and_comm, fun h => ?noCell, fun h => ⟨s.poke a v, memWrite_ok h v, ?read, ?rest⟩⟩
  case noCell =>
    have h := Bool.eq_false_of_not_eq_true h
    exact ⟨memRead_error h, memWrite_error h v⟩
  case read =>
    have hr : memRead (s.poke a v) a = .ok ((s.poke a v).peek a) := memRead_ok h
    rwa [State.peek_poke_same] at hr
  case rest => exact fun b hb => Memory.get_set_other s.mem v hb

/-! ### Words (R54) -/

section
variable {s : State} {a : Nat}

theorem memReadWord_error_low (h : inStore s.params a = false) : memReadWord s a = .error (addressFault s a) := by
  simp [memReadWord, h]

theorem memReadWord_error_high (h : inStore s.params a = true) (h' : inStore s.params (a + 1) = false) :
    memReadWord s a = .error (addressFault s (a + 1)) := by
  simp [memReadWord, h, h']

theorem memWriteWord_error_low (h : inStore s.params a = false) (v : Word) :
    memWriteWord s a v = .error (addressFault s a) := by
  simp [memWriteWord, h]

theorem memWriteWord_error_high (h : inStore s.params a = true) (h' : inStore s.params (a + 1) = false) (v : Word) :
    memWriteWord s a v = .error (addressFault s (a + 1)) := by
  simp [memWriteWord, h, h']

end

/-- The state with the two bytes of a word in the cells that the bus reaches for `a` and `a + 1`. -/
def State.pokeWord (s : State) (a : Nat) (v : Word) : State := (s.poke a (loByte v)).poke (a + 1) (hiByte v)

theorem memWriteWord_ok_pokeWord {s : State} {a : Nat} (h : inStore s.params a = true)
    (h' : inStore s.params (a + 1) = true) (v : Word) : memWriteWord s a v = .ok (s.pokeWord a v) :=
  memWriteWord_ok h h' v

section
variable (s : State) (a : Nat) (v : Word)

@[simp] theorem State.peek_pokeWord_low : (s.pokeWord a v).peek a = loByte v :=
  ((s.poke a (loByte v)).peek_poke_other (busAddress_succ_ne s.params a).symm _).trans (s.peek_poke_same a _)

@[simp] theorem State.peek_pokeWord_high : (s.pokeWord a v).peek (a + 1) = hiByte v := State.peek_poke_same _ _ _

theorem State.pokeWord_sameCellsBut :
    SameCellsBut [busAddress s.params a, busAddress s.params (a + 1)] s (s.pokeWord a v) :=
  sameCellsBut_poke (sameCellsBut_poke (sameCellsBut_refl _ s) (by simp) _) (by simp) _

end

/-- Settles O31: the two addresses of a word reach two cells, so the second byte written leaves the first. -/
theorem wordAccessIsLittleEndian : Obligations.WordAccessIsLittleEndian := by
  intro s a v
  refine ⟨fun h h' => ⟨memReadWord_ok h h', s.pokeWord a v, memWriteWord_ok_pokeWord h h' v, ?low, ?high, ?word,
    s.pokeWord_sameCellsBut a v⟩, fun h => ?noLow, fun h h' => ?noHigh⟩
  case low => rw [memRead_ok (s := s.pokeWord a v) h, State.peek_pokeWord_low]
  case high => rw [memRead_ok (s := s.pokeWord a v) h', State.peek_pokeWord_high]
  case word =>
    rw [memReadWord_ok (s := s.pokeWord a v) h h', State.peek_pokeWord_low, State.peek_pokeWord_high, join_halves]
  case noLow =>
    have h := Bool.eq_false_of_not_eq_true h
    exact ⟨memWriteWord_error_low h v, memReadWord_error_low h⟩
  case noHigh =>
    have h' := Bool.eq_false_of_not_eq_true h'
    exact ⟨memWriteWord_error_high h h' v, memReadWord_error_high h h'⟩

/-- The fault of LD (a16),SP under the policy Fault: the high byte would go past 0xFFFF (R53, R139). -/
theorem exec_ldMabsSp_past_end {s : State} (h : HasCell s 0xFFFF) (hp : s.params.addrPolicy = .fault) :
    exec (.ldMabsSp 0xFFFF) s = .fault (.addressOutOfRange 0x10000 s.pc) := by
  have hw : memWriteWord s 0xFFFF s.sp = .error (addressFault s 0x10000) :=
    memWriteWord_error_high h (inStore_past_end hp (by decide)) s.sp
  have hb : busAddress s.params 0x10000 = 0x10000 := by simp [busAddress, hp]
  rw [addressFault, hb] at hw
  exact congrArg (complete 3) hw

/-- Settles O38: LD (a16),SP is a word write at a16. -/
theorem storeStackPointerResult : Obligations.StoreStackPointerResult := by
  intro s a
  refine ⟨fun h h' => ⟨(s.pokeWord a.toNat s.sp).advance 3, ?next, ?low, ?high, ?rest, rfl⟩, exec_ldMabsSp_past_end⟩
  case next => exact congrArg (complete 3) (memWriteWord_ok_pokeWord h h' s.sp)
  case low =>
    have hl := s.peek_pokeWord_low a.toNat s.sp
    rwa [State.peek, busAddress_word] at hl
  case high => exact s.peek_pokeWord_high a.toNat s.sp
  case rest =>
    have hk := s.pokeWord_sameCellsBut a.toNat s.sp
    rw [busAddress_word] at hk
    exact sameCellsBut_of_mem_eq hk rfl

end Sys2Proof.Machine
end

section
/-! The stack in both modes (20_memory R57 to R60): which cells a push writes and a pop reads, and that pops undo
pushes. -/

namespace Sys2Proof.Machine

open Sys2Proof Sys2Proof.Claim

/-! ### The stack cells of a word -/

theorem pushCell_pred (mode : StackMode) (sp : Word) : pushCell mode (sp - 1) = pushCell mode sp - 1 := by
  cases mode <;> rfl

/-- The second byte of a pushed word goes to another cell than the first. -/
theorem pushCell_pred_ne (mode : StackMode) (sp : Word) :
    (pushCell mode (sp - 1)).toNat ≠ (pushCell mode sp).toNat := by
  rw [pushCell_pred]
  bv_omega

/-- Both bytes of a word push are in its cells afterwards, and no other cell has changed. -/
theorem pushWord_cells {s t : State} {v : Word} (h : pushWord s v = .ok t) :
    Pushed s t v ∧ SameCellsBut (pushCells s) s t := by
  obtain ⟨-, -, rfl⟩ := pushWord_inv h
  rw [Pushed, pushCells_eq]
  refine ⟨⟨?cells, BitVec.sub_sub ..⟩, ?rest⟩
  case cells =>
    simp only [List.map_cons, List.map_nil, cell, State.poke_mem, State.poke_params, busAddress_word,
      Memory.get_set_same, Memory.get_set_other _ _ (pushCell_pred_ne s.params.stackMode s.sp).symm]
  case rest =>
    refine sameCellsBut_of_mem_eq (sameCellsBut_poke (sameCellsBut_poke (sameCellsBut_refl _ s) ?_ _) ?_ _) rfl <;> simp

/-- Settles O33: a push or pop answers when its two cells are in the store, and then by the cells of its mode. -/
theorem stackCellsByMode : Obligations.StackCellsByMode := by
  intro s v
  refine ⟨fun h => ?push, fun h => ?pop⟩
  case push =>
    simp only [pushCells_eq, List.forall_mem_cons] at h
    obtain ⟨h1, h2, -⟩ := h
    have ht := pushWord_ok v h1 h2
    exact ⟨_, ht, pushWord_cells ht⟩
  case pop =>
    simp only [popCells_eq, List.forall_mem_cons] at h
    obtain ⟨h1, h2, -⟩ := h
    have ht := popWord_ok h1 h2
    exact ⟨_, popWord_value ht ▸ ht, by rw [BitVec.add_assoc]; rfl⟩

/-! ### Pops undo pushes (R60) -/

theorem pushAll_cons_inv {s t : State} {v : Byte} {vs : List Byte} (h : pushAll s (v :: vs) = .ok t) :
    ∃ u, pushByte s v = .ok u ∧ pushAll u vs = .ok t := by
  unfold pushAll at h
  split at h
  · exact ⟨_, ‹_›, h⟩
  · cases h

theorem pushAll_params {s t : State} {vs : List Byte} (h : pushAll s vs = .ok t) : t.params = s.params := by
  induction vs generalizing s with
  | nil => exact Except.ok.inj h ▸ rfl
  | cons v vs ih =>
    obtain ⟨u, hu, hvs⟩ := pushAll_cons_inv h
    obtain ⟨-, rfl⟩ := pushByte_inv hu
    exact (ih hvs :)

/-- Pushes go down from the first cell, so they do not reach a cell that is at least as many places below it. -/
theorem pushAll_get_below {s t : State} {vs : List Byte} (h : pushAll s vs = .ok t) {c : Word}
    (hc : vs.length ≤ (pushCell s.params.stackMode s.sp - c).toNat) :
    Memory.get t.mem c.toNat = Memory.get s.mem c.toNat := by
  induction vs generalizing s with
  | nil => rw [Except.ok.inj h]
  | cons v vs ih =>
    obtain ⟨u, hu, hvs⟩ := pushAll_cons_inv h
    obtain ⟨-, rfl⟩ := pushByte_inv hu
    have hne : c.toNat ≠ (pushCell s.params.stackMode s.sp).toNat := by
      intro he
      simp [BitVec.eq_of_toNat_eq he] at hc
    refine (ih hvs ?_).trans ?_
    · simp only [State.poke_params, pushCell_pred, List.length_cons] at hc ⊢
      bv_omega
    · simpa using Memory.get_set_other s.mem v hne

/-- A pop just below `sp` reads the cell that a push at `sp` writes, and restores `sp`. -/
theorem popByte_below {t : State} {sp : Word} (h : inStore t.params (pushCell t.params.stackMode sp).toNat = true) :
    popByte { t with sp := sp - 1 } = .ok (t.peek (pushCell t.params.stackMode sp).toNat, { t with sp := sp }) := by
  have hpop := popByte_ok (s := { t with sp := sp - 1 })
  simp only [popCell_pushed, BitVec.sub_add_cancel] at hpop
  exact hpop h

/-- One more pop after `n` pops. -/
theorem popAll_succ_last {s u w : State} {n : Nat} {v : Byte} {vs : List Byte} (h : popAll s n = .ok (vs, u))
    (hv : popByte u = .ok (v, w)) : popAll s (n + 1) = .ok (vs ++ [v], w) := by
  induction n generalizing s vs with
  | zero =>
    cases h
    simp [popAll, hv]
  | succ n ih =>
    unfold popAll at h
    split at h
    · rename_i x t hx
      split at h
      · rename_i xs y hxs
        cases h
        rw [popAll, hx]
        simp only [ih hxs, List.cons_append]
      · cases h
    · cases h

/-- As many pops as pushes undo them: the byte pushed first stays in its cell, because at most 0xFFFF bytes follow it,
and is popped last. -/
theorem popAll_pushAll {s t : State} {vs : List Byte} (hn : vs.length ≤ 0x10000) (h : pushAll s vs = .ok t) :
    popAll t vs.length = .ok (vs.reverse, { t with sp := s.sp }) := by
  induction vs generalizing s with
  | nil =>
    cases h
    rfl
  | cons v vs ih =>
    rw [List.length_cons] at hn
    obtain ⟨u, hu, hvs⟩ := pushAll_cons_inv h
    obtain ⟨hin, rfl⟩ := pushByte_inv hu
    have hp : t.params = s.params := (pushAll_params hvs :)
    have hv : t.peek (pushCell t.params.stackMode s.sp).toNat = v := by
      rw [State.peek, busAddress_word, hp, pushAll_get_below hvs]
      · simp
      · simp only [State.poke_params, pushCell_pred]
        bv_omega
    have hlast : popByte { t with sp := s.sp - 1 } = .ok (v, { t with sp := s.sp }) :=
      hv ▸ popByte_below (hp ▸ hin)
    rw [List.length_cons, List.reverse_cons]
    exact popAll_succ_last (ih (by omega) hvs) hlast

theorem pushWord_eq_pushAll (s : State) (v : Word) : pushWord s v = pushAll s [hiByte v, loByte v] := by
  unfold pushWord
  simp only [pushAll]
  cases pushByte s (hiByte v) with
  | error f => rfl
  | ok t => cases h : pushByte t (loByte v) <;> simp [h]

theorem popWord_of_popAll {s u : State} {lo hi : Byte} (h : popAll s 2 = .ok ([lo, hi], u)) :
    popWord s = .ok (join hi lo, u) := by
  simp only [popAll] at h
  unfold popWord
  cases hlo : popByte s with
  | error f => simp [hlo] at h
  | ok p => cases hhi : popByte p.2 with
    | error f => simp [hlo, hhi] at h
    | ok q =>
      simp only [hlo, hhi] at h ⊢
      cases h
      rfl

/-- Settles O32: `popAll_pushAll`, and a word is its two bytes. -/
theorem stackIsLastInFirstOut : Obligations.StackIsLastInFirstOut := by
  refine ⟨fun s t vs hn h => ⟨_, popAll_pushAll hn h, rfl, rfl⟩, fun s t v h => ?_⟩
  rw [pushWord_eq_pushAll] at h
  have hpop := popWord_of_popAll (popAll_pushAll (by simp) h)
  rw [join_halves] at hpop
  exact ⟨_, hpop, rfl, rfl⟩

end Sys2Proof.Machine
end

section
/-! What an instruction keeps of the store (20_memory R64, R65): every cell but those it stores to. -/

namespace Sys2Proof.Machine

open Sys2Proof Sys2Proof.Claim

/-! ### The cells a named operation writes -/

theorem toNat_word_le (w : Word) : w.toNat ≤ 0xFFFF := Nat.le_of_lt_succ w.isLt

/-- Every address a byte operand resolves to fits the bus, the high page's too (R91, R94). -/
theorem ByteOperand.resolve_accesses_le (o : ByteOperand) (s : State) : ∀ a ∈ (o.resolve s).accesses, a ≤ 0xFFFF := by
  have word (w : Word) : ∀ a ∈ [w.toNat], a ≤ 0xFFFF := by simpa using toNat_word_le w
  have high (n : Byte) : ∀ a ∈ [0xFF00 + n.toNat], a ≤ 0xFFFF := by
    have hn := n.isLt
    simp only [List.forall_mem_singleton]
    omega
  cases o with
  | reg r | imm n => exact fun _ ha => absurd ha List.not_mem_nil
  | indirect rr => exact word (s.r16 rr)
  | hlInc | hlDec => exact word s.hl
  | absolute a => exact word a
  | highImm n => exact high n
  | highC => exact high (s.r8 .c)

section
variable {cells : List Nat} {s t u : State}

theorem Loc.write_keeps_cells {o : ByteOperand} {v : Byte} (h : (o.resolve s).write s v = .ok t) :
    SameCellsBut (o.resolve s).accesses s t := by
  have hle := o.resolve_accesses_le s
  obtain ⟨r, hl, rfl⟩ | ⟨w, hl, rfl⟩ | ⟨a, hl, -, rfl⟩ := Loc.write_inv h
  · exact sameCellsBut_of_mem_eq (sameCellsBut_refl _ s) (s.setR8_mem r v)
  · exact sameCellsBut_refl _ _
  · rw [hl] at hle ⊢
    refine sameCellsBut_poke (sameCellsBut_refl _ s) ?_ v
    rw [busAddress_of_le s.params (hle a (List.mem_singleton_self a))]
    exact List.mem_singleton_self a

@[simp] theorem ByteOperand.postModify_mem (o : ByteOperand) (s : State) : (o.postModify s).mem = s.mem := by
  cases o <;> rfl

theorem copyByte_keeps_cells {dst src : ByteOperand} (h : copyByte dst src s = .ok t) :
    SameCellsBut (dst.resolve s).accesses s t := by
  obtain ⟨v, u, -, hu, rfl⟩ := copyByte_inv h
  exact sameCellsBut_of_mem_eq (Loc.write_keeps_cells hu) (by simp)

theorem updateRM_keeps_cells {x : RM8} {f : Byte → Byte} {g : Byte → State → State} (h : updateRM x f g s = .ok t)
    (hg : ∀ v w, (g v w).mem = w.mem) : SameCellsBut (rmAccesses x s) s t := by
  obtain ⟨v, w, -, hw, rfl⟩ := updateRM_inv h
  exact rmOperand_accesses x s ▸ sameCellsBut_of_mem_eq (Loc.write_keeps_cells hw) (hg v w)

theorem popWord_keeps_mem {v : Word} (h : popWord s = .ok (v, t)) : t.mem = s.mem := by
  obtain ⟨-, -, -, rfl⟩ := popWord_inv h
  rfl

/-! ### The shared ends of the meanings -/

theorem complete_keeps_cells {len : Nat} {r : Except Fault State} (h : complete len r = .next t)
    (hr : ∀ u, r = .ok u → SameCellsBut cells s u) : SameCellsBut cells s t := by
  obtain ⟨u, hu, rfl⟩ := complete_next h
  exact sameCellsBut_of_mem_eq (hr u hu) rfl

theorem transfer_keeps_cells {r : Except Fault (Word × State)} (h : transfer r = .next t)
    (hr : ∀ w u, r = .ok (w, u) → SameCellsBut cells s u) : SameCellsBut cells s t := by
  obtain ⟨w, u, hu, rfl⟩ := transfer_next h
  exact sameCellsBut_of_mem_eq (hr w u hu) rfl

/-- An instruction that sets no target and leaves the store. -/
theorem complete_ok_keeps_cells {len : Nat} (h : complete len (.ok u) = .next t) (hm : u.mem = s.mem) :
    SameCellsBut cells s t :=
  complete_keeps_cells h fun _ hv => Except.ok.inj hv ▸ sameCellsBut_of_mem_eq (sameCellsBut_refl _ s) hm

/-- An instruction that sets a target and leaves the store. -/
theorem transfer_same_mem_keeps_cells {r : Except Fault (Word × State)} (h : transfer r = .next t)
    (hr : ∀ w u, r = .ok (w, u) → u.mem = s.mem) : SameCellsBut cells s t :=
  transfer_keeps_cells h fun w u hu => sameCellsBut_of_mem_eq (sameCellsBut_refl _ s) (hr w u hu)

theorem callTo_keeps_cells {len : Nat} {target : Word} (h : transfer (callTo s len target) = .next t) :
    SameCellsBut (pushCells s) s t :=
  transfer_keeps_cells h fun _ _ hu => (pushWord_cells (callTo_inv hu).2).2

theorem withSrc_keeps_cells {len : Nat} {x : Src8} {k : Byte → State} (h : complete len (withSrc x s k) = .next t)
    (hk : ∀ v, (k v).mem = s.mem) : SameCellsBut cells s t := complete_keeps_cells h fun _ hu => by
  obtain ⟨v, -, rfl⟩ := withSrc_inv hu
  exact sameCellsBut_of_mem_eq (sameCellsBut_refl _ s) (hk v)

end

/-! ### Every instruction -/

theorem exec_keeps_cells {i : Instr} {s t : State} (h : exec i s = .next t) : SameCellsBut (storedCells i s) s t := by
  have jump : ∀ {cells w}, transfer (.ok (w, s)) = .next t → SameCellsBut cells s t := fun h =>
    transfer_same_mem_keeps_cells h fun _ _ hu => by cases hu; rfl
  cases i with
  | illegal op => cases h
  | nop | halt | stop n | di | ei | ldSpHl => exact complete_ok_keeps_cells h rfl
  | scf | ccf | addSpE8 e | addHl rr | ldHlSpE8 e => exact complete_ok_keeps_cells h rfl
  | rlca | rrca | rla | rra | daa | cpl => exact complete_ok_keeps_cells h rfl
  | incReg r | decReg r => exact complete_ok_keeps_cells h (s.setR8_mem r _)
  | ldPairImm rr n | incPair rr | decPair rr => exact complete_ok_keeps_cells h (s.setR16_mem (r16Pair rr) _)
  | add x | adc x | sub x | sbc x | and x | xor x | or x | cp x => exact withSrc_keeps_cells h fun _ => rfl
  | jp a | jpHl | jr e => exact jump h
  | jpCond cc a | jrCond cc e =>
    simp only [exec, execJpCond, execJrCond] at h
    split at h
    · exact jump h
    · exact complete_ok_keeps_cells h rfl
  | call a | rst y => exact callTo_keeps_cells h
  | callCond cc a =>
    simp only [exec, execCallCond] at h
    split at h
    · rw [storedCells, if_pos ‹_›]
      exact callTo_keeps_cells h
    · exact complete_ok_keeps_cells h rfl
  | ret => exact transfer_same_mem_keeps_cells h fun _ _ hu => popWord_keeps_mem hu
  | retCond cc =>
    simp only [exec, execRetCond] at h
    split at h
    · exact transfer_same_mem_keeps_cells h fun _ _ hu => popWord_keeps_mem hu
    · exact complete_ok_keeps_cells h rfl
  | reti =>
    refine transfer_same_mem_keeps_cells h fun _ _ hu => ?_
    obtain ⟨u, hp, rfl⟩ := returnFromInterrupt_inv hu
    exact (popWord_keeps_mem hp :)
  | push rr => exact complete_keeps_cells h fun _ hu => (pushWord_cells hu).2
  | pop rr =>
    simp only [exec, execPop] at h
    split at h
    · exact complete_ok_keeps_cells h ((State.setR16_mem ..).trans (popWord_keeps_mem ‹_›))
    · cases h
  | ldMabsSp a =>
    refine complete_keeps_cells h fun u hu => ?_
    obtain ⟨-, -, rfl⟩ := memWriteWord_inv hu
    have hk := s.pokeWord_sameCellsBut a.toNat s.sp
    rwa [busAddress_word] at hk
  | incMhl | decMhl =>
    exact complete_keeps_cells h fun _ hu => updateRM_keeps_cells (x := .mhl) hu fun _ _ => rfl
  | rlc x | rrc x | rl x | rr x | sla x | sra x | swap x | srl x =>
    exact complete_keeps_cells h fun _ hu => updateRM_keeps_cells hu fun _ _ => rfl
  | res b x | set b x => exact complete_keeps_cells h fun _ hu => updateRM_keeps_cells hu fun _ _ => rfl
  | bit b x =>
    simp only [exec, execBit] at h
    split at h
    · exact complete_ok_keeps_cells h rfl
    · cases h
  | ldRegReg dst x =>
    exact complete_keeps_cells (len := 1) (r := copyByte (.reg dst) (.reg x) s) h fun _ hu => copyByte_keeps_cells hu
  | ldRegImm dst n =>
    exact complete_keeps_cells (len := 2) (r := copyByte (.reg dst) (.imm n) s) h fun _ hu => copyByte_keeps_cells hu
  | ldRegMhl _ | ldMhlReg _ | ldMhlImm _ => exact complete_keeps_cells h fun _ hu => copyByte_keeps_cells hu
  | ldAMbc | ldAMde | ldMbcA | ldMdeA | ldAMhlInc | ldAMhlDec | ldMhlIncA | ldMhlDecA =>
    exact complete_keeps_cells h fun _ hu => copyByte_keeps_cells hu
  | ldAMabs _ | ldMabsA _ | ldhAImm _ | ldhImmA _ | ldhAC | ldhCA =>
    exact complete_keeps_cells h fun _ hu => copyByte_keeps_cells hu

/-- Settles O22: `exec_keeps_cells` is the statement. -/
theorem memoryFrame : Obligations.MemoryFrame := fun _ _ _ h => exec_keeps_cells h

end Sys2Proof.Machine
end

section
/-! The faults of a step (20_memory R53, R63, 60_exceptions R253, R256): the fetch checks the bytes of the instruction in
ascending order, and what its accesses decide comes after. -/

namespace Sys2Proof.Machine

open Sys2Proof Sys2Proof.Claim

/-! ### Which opcode bytes decode to ILLEGAL and to LD (a16),SP -/

/-- The instruction is an ILLEGAL row (R103). -/
def isIllegal : Instr → Bool
  | .illegal _ => true
  | _ => false

/-- The instruction is the one whose memory operand is a word (R139). -/
def isStoreSp : Instr → Bool
  | .ldMabsSp _ => true
  | _ => false

/-- The bytes after the opcode only ride along as operands, so going through the opcode bytes settles the base map. -/
theorem decodeBase_kind (n1 n2 : Byte) : ∀ op : Byte, op ≠ 0xCB →
    isIllegal (decodeBase op n1 n2) = decide (op ∈ illegalBytes) ∧
      isStoreSp (decodeBase op n1 n2) = decide (op = 0x08) :=
  of_decide_eq_true rfl

theorem decodeCb_kind : ∀ op2 : Byte, isIllegal (decodeCb op2) = false ∧ isStoreSp (decodeCb op2) = false := by
  decide

theorem decodeOp_kind (op n1 n2 : Byte) : isIllegal (decodeOp op n1 n2) = decide (op ∈ illegalBytes) ∧
    isStoreSp (decodeOp op n1 n2) = decide (op = 0x08) := by
  by_cases hop : op = 0xCB
  · subst hop
    exact decodeCb_kind n1
  · rw [decodeOp, if_neg hop]
    exact decodeBase_kind n1 n2 op hop

theorem decodeOp_of_illegal {op : Byte} (h : op ∈ illegalBytes) (n1 n2 : Byte) : decodeOp op n1 n2 = .illegal op := by
  simp only [illegalBytes, List.mem_cons, List.not_mem_nil, or_false] at h
  rcases h with rfl | rfl | rfl | rfl | rfl | rfl | rfl | rfl | rfl | rfl | rfl <;> rfl

theorem decodeOp_eq_illegal_iff {op n1 n2 x : Byte} :
    decodeOp op n1 n2 = .illegal x ↔ op ∈ illegalBytes ∧ x = op := by
  constructor
  · intro h
    have hk := (decodeOp_kind op n1 n2).1
    rw [h] at hk
    have hop : op ∈ illegalBytes := of_decide_eq_true hk.symm
    rw [decodeOp_of_illegal hop] at h
    exact ⟨hop, (Instr.illegal.inj h).symm⟩
  · rintro ⟨hop, rfl⟩
    exact decodeOp_of_illegal hop n1 n2

theorem decodeOp_eq_ldMabsSp_iff {op n1 n2 : Byte} {a : Word} :
    decodeOp op n1 n2 = .ldMabsSp a ↔ op = 0x08 ∧ a = join n2 n1 := by
  constructor
  · intro h
    have hk := (decodeOp_kind op n1 n2).2
    rw [h] at hk
    have hop : op = 0x08 := of_decide_eq_true hk.symm
    subst hop
    exact ⟨rfl, (Instr.ldMabsSp.inj h).symm⟩
  · rintro ⟨rfl, rfl⟩
    rfl

theorem opLength_cases : ∀ op : Byte, opLength op = 1 ∨ opLength op = 2 ∨ opLength op = 3 := by decide

theorem opLength_of_illegal : ∀ op ∈ illegalBytes, opLength op = 1 := by decide

/-! ### The fetch (R63, R80) -/

/-- The addresses that a fetch reads, of which the opcode byte at PC tells the number. -/
def fetchAddrs (s : State) : List Nat := List.range' s.pc.toNat (opLength (s.peek s.pc.toNat))

theorem fetchAddrs_cases (s : State) :
    (opLength (s.peek s.pc.toNat) = 1 ∧ fetchAddrs s = [s.pc.toNat]) ∨
    (opLength (s.peek s.pc.toNat) = 2 ∧ fetchAddrs s = [s.pc.toNat, s.pc.toNat + 1]) ∨
    (opLength (s.peek s.pc.toNat) = 3 ∧ fetchAddrs s = [s.pc.toNat, s.pc.toNat + 1, s.pc.toNat + 2]) := by
  unfold fetchAddrs
  obtain hl | hl | hl := opLength_cases (s.peek s.pc.toNat) <;> rw [hl]
  · exact .inl ⟨rfl, rfl⟩
  · exact .inr (.inl ⟨rfl, rfl⟩)
  · exact .inr (.inr ⟨rfl, rfl⟩)

/-- The byte `k` after PC if it belongs to the instruction, and else 0. -/
def State.immediate (s : State) (k : Nat) : Byte :=
  if k < opLength (s.peek s.pc.toNat) then s.peek (s.pc.toNat + k) else 0

/-- The instruction in the cells from PC on. -/
def State.fetched (s : State) : Instr := decodeOp (s.peek s.pc.toNat) (s.immediate 1) (s.immediate 2)

theorem memRead_answers (s : State) (a : Nat) : Answers s [a] (· = s.peek a) (memRead s a) :=
  .one memRead_error fun h => ⟨_, memRead_ok h, rfl⟩

theorem memReadWord_answers (s : State) (a : Nat) :
    Answers s [a, a + 1] (· = join (s.peek (a + 1)) (s.peek a)) (memReadWord s a) :=
  .two memReadWord_error_low memReadWord_error_high fun h h' => ⟨_, memReadWord_ok h h', rfl⟩

section
variable {s : State}

theorem fetchInstr_one (hl : opLength (s.peek s.pc.toNat) = 1) :
    fetchInstr s = (memRead s s.pc.toNat).map (decodeOp · 0 0) := by
  unfold fetchInstr
  obtain ⟨-, hr⟩ | ⟨-, hr⟩ := memRead_cases s s.pc.toNat <;> simp [hr, hl, Except.map]

theorem fetchInstr_two (hl : opLength (s.peek s.pc.toNat) = 2) :
    fetchInstr s = (memRead s s.pc.toNat).bind fun op =>
      (memRead s (s.pc.toNat + 1)).map (decodeOp op · 0) := by
  unfold fetchInstr
  obtain ⟨-, hr⟩ | ⟨-, hr⟩ := memRead_cases s s.pc.toNat
  · cases memRead s (s.pc.toNat + 1) <;> simp [hr, hl, Except.bind, Except.map]
  · simp [hr, Except.bind]

theorem fetchInstr_three (hl : opLength (s.peek s.pc.toNat) = 3) :
    fetchInstr s = (memRead s s.pc.toNat).bind fun op =>
      (memReadWord s (s.pc.toNat + 1)).map fun n => decodeOp op (loByte n) (hiByte n) := by
  unfold fetchInstr
  obtain ⟨-, hr⟩ | ⟨-, hr⟩ := memRead_cases s s.pc.toNat
  · cases memReadWord s (s.pc.toNat + 1) <;> simp [hr, hl, Except.bind, Except.map]
  · simp [hr, Except.bind]

end

/-- The fetch answers the instruction if each of its bytes has a cell, and otherwise the fault of the first without. -/
theorem fetchInstr_answers (s : State) : Answers s (fetchAddrs s) (· = s.fetched) (fetchInstr s) := by
  obtain hl | hl | hl := opLength_cases (s.peek s.pc.toNat) <;> simp only [fetchAddrs, State.fetched, State.immediate, hl]
  · rw [fetchInstr_one hl]
    exact Answers.map (memRead_answers s _) fun op hop => by simp [hop]
  · rw [fetchInstr_two hl]
    exact Answers.bind (memRead_answers s _) fun op hop =>
      Answers.map (memRead_answers s _) fun n1 hn => by simp [hop, hn]
  · rw [fetchInstr_three hl]
    exact Answers.bind (memRead_answers s _) fun op hop =>
      Answers.map (memReadWord_answers s _) fun n hn => by simp [hop, hn]

/-! ### The step after its fetch -/

/-- The step of a running CORE whose fetch faults (R256). -/
theorem step_fetch_fault {s : State} {f : Fault} (hr : s.Running) (hf : fetchInstr s = .error f) :
    step s = .fault f := by
  obtain ⟨hfault, hh, hs⟩ := hr
  simp [step, hfault, hh, hs, hf]

/-- A running step faults at the first byte of its instruction without a cell, and else executes the instruction. -/
theorem step_ends_fetch {s : State} (hr : s.Running) : AccessesLead s (fetchAddrs s) (fun f => step s = .fault f)
    (step s = finishStep s.eiPending (exec s.fetched s)) := by
  refine AccessesLead.imp (fetchInstr_answers s) (fun f => step_fetch_fault hr) ?_
  rintro ⟨i, hi, rfl⟩
  obtain ⟨hfault, hh, hs⟩ := hr
  exact step_running hfault hh hs hi

theorem fetched_of_illegal {s : State} (h : s.peek s.pc.toNat ∈ illegalBytes) :
    s.fetched = .illegal (s.peek s.pc.toNat) := decodeOp_of_illegal h _ _

theorem fetchAddrs_of_illegal {s : State} (h : s.peek s.pc.toNat ∈ illegalBytes) : fetchAddrs s = [s.pc.toNat] := by
  rw [fetchAddrs, opLength_of_illegal _ h]
  rfl

/-- Settles O11: `step_ends_fetch`, read at the first byte without a cell; an illegal byte is fetched alone. -/
theorem fetchFaultsInOrder : Obligations.FetchFaultsInOrder := by
  intro s hr
  have lead := step_ends_fetch hr
  refine ⟨fun h => ?opcode, fun h hop => ?illegal, fun h hl h1 => ?second, fun h hl h1 h2 => ?third⟩
  case opcode =>
    have h := Bool.eq_false_of_not_eq_true h
    have hf := lead.of_find_some (a := s.pc.toNat) (by
      obtain ⟨-, ha⟩ | ⟨-, ha⟩ | ⟨-, ha⟩ := fetchAddrs_cases s <;> simp [ha, h])
    rwa [addressFault, busAddress_word] at hf
  case illegal =>
    have hs := lead.of_find_none (by simp [fetchAddrs_of_illegal hop, h])
    rwa [fetched_of_illegal hop] at hs
  case second =>
    have h1 := Bool.eq_false_of_not_eq_true h1
    refine lead.of_find_some (a := s.pc.toNat + 1) ?_
    obtain ⟨hl', -⟩ | ⟨-, ha⟩ | ⟨-, ha⟩ := fetchAddrs_cases s
    · exact absurd hl' hl
    · simp [ha, h, h1]
    · simp [ha, h, h1]
  case third =>
    refine lead.of_find_some (a := s.pc.toNat + 2) ?_
    rw [fetchAddrs, hl]
    simp [List.range', h, h1, h2]

/-! ### The default store and policy (R253) -/

theorem pushCells_le (s : State) : ∀ a ∈ pushCells s, a ≤ 0xFFFF := by
  simp [pushCells_eq, toNat_word_le]

theorem popCells_le (s : State) : ∀ a ∈ popCells s, a ≤ 0xFFFF := by
  simp [popCells_eq, toNat_word_le]

/-- The one data or stack access past 0xFFFF is the second byte of LD (a16),SP (R139, R253). -/
theorem accesses_le {i : Instr} {s : State} (hi : i ≠ .ldMabsSp 0xFFFF) : ∀ a ∈ accesses i s, a ≤ 0xFFFF := by
  have byte (o : ByteOperand) : ∀ a ∈ (o.resolve s).accesses, a ≤ 0xFFFF := o.resolve_accesses_le s
  have source (x : Src8) : ∀ a ∈ srcAccesses x s, a ≤ 0xFFFF := srcOperand_accesses x s ▸ byte (srcOperand x)
  have operand (x : RM8) : ∀ a ∈ rmAccesses x s, a ≤ 0xFFFF := rmOperand_accesses x s ▸ byte (rmOperand x)
  have nil : ∀ a ∈ ([] : List Nat), a ≤ 0xFFFF := List.forall_mem_nil _
  cases i with
  | ldMabsSp a =>
    have hne : a.toNat ≠ 0xFFFF := fun h => hi (congrArg _ (BitVec.eq_of_toNat_eq h))
    have hle := toNat_word_le a
    simp only [accesses, List.forall_mem_cons]
    exact ⟨hle, by omega, nil⟩
  | ldRegMhl _ | ldMhlReg _ | ldMhlImm _ | incMhl | decMhl => exact byte (.indirect .hl)
  | ldAMhlInc | ldAMhlDec | ldMhlIncA | ldMhlDecA => exact byte (.indirect .hl)
  | ldAMbc | ldMbcA => exact byte (.indirect .bc)
  | ldAMde | ldMdeA => exact byte (.indirect .de)
  | ldAMabs a | ldMabsA a => exact byte (.absolute a)
  | ldhAImm n | ldhImmA n => exact byte (.highImm n)
  | ldhAC | ldhCA => exact byte .highC
  | push _ | call _ | rst _ => exact pushCells_le s
  | pop _ | ret | reti => exact popCells_le s
  | callCond cc _ =>
    rw [accesses]
    split
    · exact pushCells_le s
    · exact nil
  | retCond cc =>
    rw [accesses]
    split
    · exact popCells_le s
    · exact nil
  | add x | adc x | sub x | sbc x | and x | xor x | or x | cp x => exact source x
  | rlc x | rrc x | rl x | rr x | sla x | sra x | swap x | srl x => exact operand x
  | bit _ x | res _ x | set _ x => exact operand x
  | ldRegReg _ _ | ldRegImm _ _ | ldPairImm _ _ | ldSpHl | ldHlSpE8 _ => exact nil
  | jp _ | jpCond _ _ | jpHl | jr _ | jrCond _ _ => exact nil
  | incReg _ | decReg _ | rlca | rrca | rla | rra | daa | cpl | scf | ccf => exact nil
  | addHl _ | incPair _ | decPair _ | addSpE8 _ => exact nil
  | nop | halt | stop _ | di | ei | illegal _ => exact nil

/-- R253's cases of an address past 0xFFFF: the instruction's bytes, or the second byte of LD (0xFFFF),SP. -/
abbrev RunsPastEnd (s : State) : Prop :=
  (opLength (s.peek s.pc.toNat) = 2 ∧ s.pc = 0xFFFF) ∨
  (opLength (s.peek s.pc.toNat) = 3 ∧ (s.pc = 0xFFFE ∨ s.pc = 0xFFFF)) ∨
  (s.peek s.pc.toNat = 0x08 ∧ s.pc.toNat + 2 ≤ 0xFFFF ∧ s.peek (s.pc.toNat + 1) = 0xFF ∧
    s.peek (s.pc.toNat + 2) = 0xFF)

theorem not_runsPastEnd_of_illegal {s : State} (h : s.peek s.pc.toNat ∈ illegalBytes) : ¬ RunsPastEnd s := by
  have hl := opLength_of_illegal _ h
  rintro (⟨h2, -⟩ | ⟨h3, -⟩ | ⟨h8, -⟩)
  · exact absurd (hl.symm.trans h2) (by decide)
  · exact absurd (hl.symm.trans h3) (by decide)
  · rw [h8] at h
    exact absurd h (by decide)

/-- An instruction that does not run past the end has all its bytes at 16-bit addresses. -/
theorem fetchAddrs_le {s : State} (h : ¬ RunsPastEnd s) : ∀ a ∈ fetchAddrs s, a ≤ 0xFFFF := by
  have hle := toNat_word_le s.pc
  obtain ⟨-, ha⟩ | ⟨hl, ha⟩ | ⟨hl, ha⟩ := fetchAddrs_cases s <;> rw [ha]
  · exact List.forall_mem_singleton.mpr hle
  · have hpc : s.pc ≠ 0xFFFF := fun e => h (.inl ⟨hl, e⟩)
    have hle1 : s.pc.toNat + 1 ≤ 0xFFFF := by bv_omega
    simp [hle, hle1]
  · have hpc : s.pc ≠ 0xFFFE := fun e => h (.inr (.inl ⟨hl, .inl e⟩))
    have hpc' : s.pc ≠ 0xFFFF := fun e => h (.inr (.inl ⟨hl, .inr e⟩))
    have hle2 : s.pc.toNat + 2 ≤ 0xFFFF := by bv_omega
    simp only [List.forall_mem_cons]
    exact ⟨hle, by omega, hle2, List.forall_mem_nil _⟩

theorem fetched_eq_ldMabsSp_end_iff {s : State} : s.fetched = .ldMabsSp 0xFFFF ↔
    s.peek s.pc.toNat = 0x08 ∧ s.peek (s.pc.toNat + 1) = 0xFF ∧ s.peek (s.pc.toNat + 2) = 0xFF := by
  rw [State.fetched, decodeOp_eq_ldMabsSp_iff]
  refine and_congr_right fun hop => ?_
  have hl : opLength (s.peek s.pc.toNat) = 3 := by
    rw [hop]
    rfl
  simp only [State.immediate, hl, show 1 < 3 by decide, show 2 < 3 by decide, if_true]
  constructor
  · intro h
    obtain ⟨h2, h1⟩ := join_inj (hi := 0xFF) (lo := 0xFF) h
    exact ⟨h1.symm, h2.symm⟩
  · rintro ⟨h1, h2⟩
    rw [h1, h2]
    rfl

section
variable {s : State} (hm : s.params.memSize = 0x10000) (hp : s.params.addrPolicy = .fault)
include hm hp

/-- With the defaults the cells are the 16-bit addresses. -/
theorem inStore_defaults_iff (a : Nat) : inStore s.params a = true ↔ a ≤ 0xFFFF := by
  rw [inStore_iff, busAddress_eq_ite, hm, hp, if_neg (by decide)]
  omega

theorem find_no_cell_defaults {addrs : List Nat} (h : ∀ a ∈ addrs, a ≤ 0xFFFF) :
    addrs.find? (fun a => !inStore s.params a) = none := by
  rw [List.find?_eq_none]
  intro a ha
  simp [(inStore_defaults_iff hm hp a).mpr (h a ha)]

/-- A running step whose instruction bytes are at 16-bit addresses executes the instruction. -/
theorem step_fetched_defaults (hr : s.Running) (h : ∀ a ∈ fetchAddrs s, a ≤ 0xFFFF) :
    step s = finishStep s.eiPending (exec s.fetched s) :=
  (step_ends_fetch hr).of_find_none (find_no_cell_defaults hm hp h)

theorem step_runsPastEnd (hr : s.Running) (h : RunsPastEnd s) : step s = .fault (.addressOutOfRange 0x10000 s.pc) := by
  obtain ⟨-, -, second, third⟩ := fetchFaultsInOrder s hr
  have cell (a : Nat) (ha : a ≤ 0xFFFF) : HasCell s a := (inStore_defaults_iff hm hp a).mpr ha
  have noCell : ¬ HasCell s 0x10000 := mt (inStore_defaults_iff hm hp 0x10000).mp (by decide)
  have bus : busAddress s.params 0x10000 = 0x10000 := by rw [busAddress_eq_ite, hp, if_neg (by decide)]
  have atLast (hl : opLength (s.peek s.pc.toNat) ≠ 1) (hpc : s.pc = 0xFFFF) :
      step s = .fault (.addressOutOfRange 0x10000 s.pc) := by
    have hnext : s.pc.toNat + 1 = 0x10000 := by rw [hpc]; rfl
    rw [hnext, bus] at second
    exact second (cell _ (by omega)) hl noCell
  obtain ⟨hl, hpc⟩ | ⟨hl, hpc | hpc⟩ | ⟨hop, hpc, h1, h2⟩ := h
  · exact atLast (by rw [hl]; decide) hpc
  · have hnext : s.pc.toNat + 2 = 0x10000 := by rw [hpc]; rfl
    rw [hnext, bus] at third
    exact third (cell _ (by omega)) hl (cell _ (by omega)) noCell
  · exact atLast (by rw [hl]; decide) hpc
  · have hstep := step_fetched_defaults hm hp hr fun a ha => by
      rw [fetchAddrs, hop] at ha
      obtain ⟨k, hk, rfl⟩ := List.mem_range'.mp ha
      have hk : k < 3 := hk
      omega
    rw [hstep, fetched_eq_ldMabsSp_end_iff.mpr ⟨hop, h1, h2⟩, exec_ldMabsSp_past_end (cell _ (by decide)) hp]
    rfl

theorem step_completes (hr : s.Running) (hop : s.peek s.pc.toNat ∉ illegalBytes) (h : ¬ RunsPastEnd s) :
    ∃ t, step s = .next t := by
  have hi : ∀ op, s.fetched ≠ .illegal op := fun op he => hop (decodeOp_eq_illegal_iff.mp he).1
  have hsp : s.fetched ≠ .ldMabsSp 0xFFFF := by
    intro he
    obtain ⟨h8, h1, h2⟩ := fetched_eq_ldMabsSp_end_iff.mp he
    refine h (.inr (.inr ⟨h8, fetchAddrs_le h _ ?_, h1, h2⟩))
    rw [fetchAddrs, h8]
    exact List.mem_range'.mpr ⟨2, by decide, rfl⟩
  obtain ⟨t, ht, -⟩ := (exec_ends s hi).of_find_none (find_no_cell_defaults hm hp (accesses_le hsp))
  exact ⟨t.enableDelayed s.eiPending, by rw [step_fetched_defaults hm hp hr (fetchAddrs_le h), ht]; rfl⟩

end

/-- Settles O19: a running step answers one of three ways, by an illegal byte, else by whether it runs past the end. -/
theorem faultCasesUnderDefaults : Obligations.FaultCasesUnderDefaults := by
  intro s f hm hp hr op
  change step s = .fault f ↔ (op ∈ illegalBytes ∧ f = .illegalOpcode s.pc op) ∨
    (f = .addressOutOfRange 0x10000 s.pc ∧ RunsPastEnd s)
  by_cases hop : op ∈ illegalBytes
  · have hs : step s = .fault (.illegalOpcode s.pc op) := by
      obtain ⟨-, illegal, -⟩ := fetchFaultsInOrder s hr
      exact illegal ((inStore_defaults_iff hm hp _).mpr (toNat_word_le s.pc)) hop
    simp [hs, hop, not_runsPastEnd_of_illegal hop, eq_comm]
  · by_cases hend : RunsPastEnd s
    · simp [step_runsPastEnd hm hp hr hend, hop, hend, eq_comm]
    · obtain ⟨t, ht⟩ := step_completes hm hp hr hop hend
      simp [ht, hop, hend]

end Sys2Proof.Machine
end

section
/-! The decoder and the encoder (30_encoding R81, R84 to R105): what a byte list decodes to by the length of its first
byte, that each of the two undoes the other, and which bytes an immediate operand is read from. -/

namespace Sys2Proof

open Sys2Proof.Machine

/-! ### Decoding by the length of the first byte (R81, R84) -/

section
variable {op : Byte}

theorem decode_one (h : opLength op = 1) (rest : List Byte) : decode (op :: rest) = .ok (decodeOp op 0 0, rest) := by
  simp [decode, h]

theorem decode_two (h : opLength op = 2) (n1 : Byte) (rest : List Byte) :
    decode (op :: n1 :: rest) = .ok (decodeOp op n1 0, rest) := by
  simp [decode, h]

theorem decode_three (h : opLength op = 3) (n1 n2 : Byte) (rest : List Byte) :
    decode (op :: n1 :: n2 :: rest) = .ok (decodeOp op n1 n2, rest) := by
  simp [decode, h]

theorem decode_no_second (h : opLength op ≠ 1) : decode [op] = .error (.noSecondByte op) := by
  obtain hl | hl | hl := opLength_cases op
  · exact absurd hl h
  · simp [decode, hl]
  · simp [decode, hl]

theorem decode_no_third (h : opLength op = 3) (n1 : Byte) : decode [op, n1] = .error (.noThirdByte op) := by
  simp [decode, h]

end

/-- Settles O3: `opLength_cases`, with the equation of `decode` for each length. -/
theorem decoderRefusesOnlyShortLists : Obligations.DecoderRefusesOnlyShortLists := by
  intro op n1 n2 rest
  obtain hl | hl | hl := opLength_cases op
  · exact ⟨rfl, by rw [decode_one hl, if_pos hl], by simp [hl], fun _ => ⟨_, _, decode_one hl _⟩, _, _, decode_one hl _⟩
  · have hne : opLength op ≠ 1 := by simp [hl]
    exact ⟨rfl, by rw [decode_no_second hne, if_neg hne], by simp [hl], fun _ => ⟨_, _, decode_two hl _ _⟩, _, _,
      decode_two hl _ _⟩
  · have hne : opLength op ≠ 1 := by simp [hl]
    exact ⟨rfl, by rw [decode_no_second hne, if_neg hne], fun _ => decode_no_third hl n1, fun h => absurd hl h, _, _,
      decode_three hl _ _ _⟩

/-- A list that decodes: the opcode byte and as many bytes after it as its length counts. -/
theorem decode_inv {bytes rest : List Byte} {i : Instr} (h : decode bytes = .ok (i, rest)) : ∃ op,
    (opLength op = 1 ∧ bytes = op :: rest ∧ i = decodeOp op 0 0) ∨
    (opLength op = 2 ∧ ∃ n1, bytes = op :: n1 :: rest ∧ i = decodeOp op n1 0) ∨
    (opLength op = 3 ∧ ∃ n1 n2, bytes = op :: n1 :: n2 :: rest ∧ i = decodeOp op n1 n2) := by
  obtain _ | ⟨op, more⟩ := bytes
  · cases h
  refine ⟨op, ?_⟩
  obtain hl | hl | hl := opLength_cases op
  · rw [decode_one hl] at h
    cases h
    exact .inl ⟨hl, rfl, rfl⟩
  · obtain _ | ⟨n1, more⟩ := more
    · rw [decode_no_second (by simp [hl])] at h
      cases h
    rw [decode_two hl] at h
    cases h
    exact .inr (.inl ⟨hl, n1, rfl, rfl⟩)
  · obtain _ | ⟨n1, _ | ⟨n2, more⟩⟩ := more
    · rw [decode_no_second (by simp [hl])] at h
      cases h
    · rw [decode_no_third hl] at h
      cases h
    rw [decode_three hl] at h
    cases h
    exact .inr (.inr ⟨hl, n1, n2, rfl, rfl⟩)

/-- The bytes that are taken of `op`, `n1`, `n2` (R84). -/
def takenBytes (op n1 n2 : Byte) : List Byte := op :: [n1, n2].take (opLength op - 1)

theorem length_takenBytes (op n1 n2 : Byte) : (takenBytes op n1 n2).length = opLength op := by
  obtain hl | hl | hl := opLength_cases op <;> simp [takenBytes, hl]

theorem decode_takenBytes {bytes rest : List Byte} {i : Instr} (h : decode bytes = .ok (i, rest)) :
    ∃ op n1 n2, bytes = takenBytes op n1 n2 ++ rest ∧ i = decodeOp op n1 n2 := by
  obtain ⟨op, ⟨hl, rfl, rfl⟩ | ⟨hl, n1, rfl, rfl⟩ | ⟨hl, n1, n2, rfl, rfl⟩⟩ := decode_inv h
  · exact ⟨op, 0, 0, by simp [takenBytes, hl], rfl⟩
  · exact ⟨op, n1, 0, by simp [takenBytes, hl], rfl⟩
  · exact ⟨op, n1, n2, by simp [takenBytes, hl], rfl⟩

/-! ### Immediate operands (R92) -/

/-- An ALU source with its immediate, if it has one, read from `n`. -/
def Src8.withImmediate (src : Src8) (n : Byte) : Src8 :=
  match src with
  | .imm _ => .imm n
  | src => src

/-- The instruction with its immediate operand, if it has one, read from the bytes `n1` and `n2` after the opcode. -/
def Instr.withImmediates (i : Instr) (n1 n2 : Byte) : Instr :=
  match i with
  | .ldRegImm dst _ => .ldRegImm dst n1
  | .ldMhlImm _ => .ldMhlImm n1
  | .ldAMabs _ => .ldAMabs (join n2 n1)
  | .ldMabsA _ => .ldMabsA (join n2 n1)
  | .ldhAImm _ => .ldhAImm n1
  | .ldhImmA _ => .ldhImmA n1
  | .ldMabsSp _ => .ldMabsSp (join n2 n1)
  | .ldPairImm dst _ => .ldPairImm dst (join n2 n1)
  | .ldHlSpE8 _ => .ldHlSpE8 n1
  | .jp _ => .jp (join n2 n1)
  | .jpCond cc _ => .jpCond cc (join n2 n1)
  | .jr _ => .jr n1
  | .jrCond cc _ => .jrCond cc n1
  | .call _ => .call (join n2 n1)
  | .callCond cc _ => .callCond cc (join n2 n1)
  | .add src => .add (src.withImmediate n1)
  | .adc src => .adc (src.withImmediate n1)
  | .sub src => .sub (src.withImmediate n1)
  | .sbc src => .sbc (src.withImmediate n1)
  | .and src => .and (src.withImmediate n1)
  | .xor src => .xor (src.withImmediate n1)
  | .or src => .or (src.withImmediate n1)
  | .cp src => .cp (src.withImmediate n1)
  | .addSpE8 _ => .addSpE8 n1
  | .stop _ => .stop n1
  | i => i

section
variable (op n1 n2 : Byte)

theorem aluOf_withImmediates (code : Nat) (src : Src8) :
    (aluOf code src).withImmediates n1 n2 = aluOf code (src.withImmediate n1) := by
  unfold aluOf
  split <;> rfl

theorem RM8.toSrc_withImmediate (t : RM8) : t.toSrc.withImmediate n1 = t.toSrc := by cases t <;> rfl

theorem decodeX0_withImmediates (m1 m2 : Byte) : (decodeX0 op m1 m2).withImmediates n1 n2 = decodeX0 op n1 n2 := by
  unfold decodeX0
  split
  · unfold decodeX0Z0; split <;> rfl
  · unfold decodeX0Z1; split <;> rfl
  · unfold decodeX0Z2; split <;> rfl
  · unfold decodeX0Z3; split <;> rfl
  · split <;> rfl
  · split <;> rfl
  · split <;> rfl
  · unfold decodeX0Z7; split <;> rfl

theorem decodeX1_withImmediates : (decodeX1 op).withImmediates n1 n2 = decodeX1 op := by
  unfold decodeX1
  split <;> rfl

theorem decodeX3_withImmediates (m1 m2 : Byte) : (decodeX3 op m1 m2).withImmediates n1 n2 = decodeX3 op n1 n2 := by
  unfold decodeX3
  split
  · unfold decodeX3Z0; split <;> rfl
  · unfold decodeX3Z1; split <;> rfl
  · unfold decodeX3Z2; split <;> rfl
  · unfold decodeX3Z3; split <;> rfl
  · unfold decodeX3Z4; split <;> rfl
  · unfold decodeX3Z5; split <;> rfl
  · exact aluOf_withImmediates n1 n2 _ _
  · rfl

/-- The bytes after the opcode give the immediate operand and nothing else. -/
theorem decodeBase_withImmediates (m1 m2 : Byte) :
    (decodeBase op m1 m2).withImmediates n1 n2 = decodeBase op n1 n2 := by
  unfold decodeBase
  split
  · exact decodeX0_withImmediates op n1 n2 m1 m2
  · exact decodeX1_withImmediates op n1 n2
  · rw [aluOf_withImmediates, RM8.toSrc_withImmediate]
  · exact decodeX3_withImmediates op n1 n2 m1 m2

theorem Instr.length_withImmediates (i : Instr) : (i.withImmediates n1 n2).length = i.length := by
  cases i with
  | add src | adc src | sub src | sbc src | and src | xor src | or src | cp src => cases src <;> rfl
  | _ => rfl

/-- Outside the 0xCB map the bytes after the opcode are those of the immediate operand. -/
theorem encode_withImmediates {i : Instr} {op : Byte} {rest : List Byte} (h : encode i = op :: rest) (hop : op ≠ 0xCB) :
    encode (i.withImmediates n1 n2) = op :: [n1, n2].take (i.length - 1) := by
  cases i with
  | rlc t | rrc t | rl t | rr t | sla t | sra t | swap t | srl t | bit b t | res b t | set b t =>
    cases h
    exact absurd rfl hop
  | ldAMabs a | ldMabsA a | ldMabsSp a | ldPairImm rr a | jp a | jpCond cc a | call a | callCond cc a =>
    cases h
    simp [Instr.withImmediates, encode, withImm16, Instr.length]
  | add src | adc src | sub src | sbc src | and src | xor src | or src | cp src =>
    cases src <;> cases h <;> rfl
  | _ =>
    cases h
    rfl

end

/-! ### The bytes of a decoded instruction -/

/-- With the operand bytes at 0 the base map is closed data. -/
theorem decodeBase_zero : ∀ op : Byte, op ≠ 0xCB →
    (decodeBase op 0 0).length = opLength op ∧ (encode (decodeBase op 0 0)).head? = some op := by
  decide

theorem encode_decodeCb : ∀ op2 : Byte, encode (decodeCb op2) = [0xCB, op2] := by decide

theorem length_decodeCb : ∀ op2 : Byte, (decodeCb op2).length = 2 := by decide

theorem length_decodeBase {op : Byte} (hop : op ≠ 0xCB) (n1 n2 : Byte) : (decodeBase op n1 n2).length = opLength op := by
  rw [← decodeBase_withImmediates op n1 n2 0 0, Instr.length_withImmediates]
  exact (decodeBase_zero op hop).1

theorem length_decodeOp (op n1 n2 : Byte) : (decodeOp op n1 n2).length = opLength op := by
  by_cases hop : op = 0xCB
  · subst hop
    exact length_decodeCb n1
  · rw [decodeOp, if_neg hop, length_decodeBase hop]

theorem encode_decodeOp (op n1 n2 : Byte) : encode (decodeOp op n1 n2) = takenBytes op n1 n2 := by
  by_cases hop : op = 0xCB
  · subst hop
    exact encode_decodeCb n1
  · obtain ⟨hl, hhead⟩ := decodeBase_zero op hop
    obtain ⟨rest, hrest⟩ := List.head?_eq_some_iff.mp hhead
    rw [decodeOp, if_neg hop, ← decodeBase_withImmediates op n1 n2 0 0, encode_withImmediates n1 n2 hrest hop, hl, takenBytes]

theorem wellFormed_decodeOp (op n1 n2 : Byte) : WellFormed (decodeOp op n1 n2) := by
  cases h : decodeOp op n1 n2 with
  | illegal x =>
    obtain ⟨hop, rfl⟩ := decodeOp_eq_illegal_iff.mp h
    exact List.contains_iff_mem.mpr hop
  | _ => rfl

/-- Settles O2: a decoded instruction is `decodeOp` of the bytes taken, and its encoding is those bytes. -/
theorem encodeOfDecodeIsIdentity : Obligations.EncodeOfDecodeIsIdentity := by
  intro bytes rest i h
  obtain ⟨op, n1, n2, rfl, rfl⟩ := decode_takenBytes h
  exact ⟨wellFormed_decodeOp op n1 n2, by rw [encode_decodeOp]⟩

/-- Settles O4: `decodeOp_eq_illegal_iff`, with the list of R103 written out. -/
theorem illegalBytesAreTheEleven : Obligations.IllegalBytesAreTheEleven := fun _ _ _ _ =>
  decodeOp_eq_illegal_iff.trans and_comm

/-- Settles O5: the first byte of a list that decodes is that of the bytes taken, which it counts. -/
theorem lengthFixedByFirstByte : Obligations.LengthFixedByFirstByte := by
  refine ⟨rfl, fun op more rest i h => ?_⟩
  obtain ⟨op', n1, n2, hbytes, rfl⟩ := decode_takenBytes h
  obtain rfl : op = op' := (List.cons.inj hbytes).1
  rw [length_decodeOp, hbytes, List.length_append, length_takenBytes]
  have hcases := opLength_cases op
  omega

/-- Settles O6: the decoder run on each word. -/
theorem specWordsDecode : Obligations.SpecWordsDecode :=
  ⟨rfl, rfl, rfl, rfl, rfl, rfl, rfl, rfl, rfl, rfl, rfl, rfl, rfl, rfl, rfl⟩

/-! ### The decoder on the encoder's bytes -/

section
variable (x : BitVec 2) (y z : BitVec 3)

@[simp] theorem fieldX_opcode : fieldX (opcode x y z) = x.toNat := by revert x y z; decide

@[simp] theorem bitsY_opcode : bitsY (opcode x y z) = y := by revert x y z; decide

@[simp] theorem fieldY_opcode : fieldY (opcode x y z) = y.toNat := congrArg BitVec.toNat (bitsY_opcode x y z)

@[simp] theorem fieldZ_opcode : fieldZ (opcode x y z) = z.toNat := by revert x y z; decide

theorem opcode_ne_cb {x : BitVec 2} {z : BitVec 3} (h : x ≠ 3 ∨ z ≠ 3) : opcode x y z ≠ 0xCB := by
  revert x y z
  decide

end

@[simp] theorem rm8Of_code (t : RM8) : rm8Of t.code.toNat = t := by
  rcases t with r | _
  · cases r <;> rfl
  · rfl

theorem decode_withImm16 {op : Byte} {k : Word → Instr} (hl : opLength op = 3)
    (hk : ∀ n1 n2, decodeOp op n1 n2 = k (join n2 n1)) (n : Word) (rest : List Byte) :
    decode (withImm16 op n ++ rest) = .ok (k n, rest) := by
  rw [withImm16, List.cons_append, List.cons_append, List.cons_append, decode_three hl, hk, join_halves, List.nil_append]

theorem decode_encodeCb (x : BitVec 2) (y : BitVec 3) (t : RM8) (rest : List Byte) :
    decode (encodeCb x y t ++ rest) = .ok (decodeCb (opcode x y t.code), rest) := rfl

theorem decode_alu_rm (y : BitVec 3) (t : RM8) (rest : List Byte) :
    decode (encodeAlu y t.toSrc ++ rest) = .ok (aluOf y.toNat t.toSrc, rest) := by
  have hb : encodeAlu y t.toSrc = [opcode 2 y t.code] := by cases t <;> rfl
  have hl : opLength (opcode 2 y t.code) = 1 := by simp [opLength]
  rw [hb, List.cons_append, decode_one hl, decodeOp, if_neg (opcode_ne_cb y (.inl (by decide)))]
  simp [decodeBase]

theorem decode_alu_imm (y : BitVec 3) (n : Byte) (rest : List Byte) :
    decode (encodeAlu y (.imm n) ++ rest) = .ok (aluOf y.toNat (.imm n), rest) := by
  have hl : opLength (opcode 3 y 6) = 2 := by simp [opLength]
  rw [encodeAlu, List.cons_append, List.cons_append, decode_two hl, decodeOp,
    if_neg (opcode_ne_cb y (.inr (by decide)))]
  simp [decodeBase, decodeX3]

theorem decode_encodeAlu (y : BitVec 3) (src : Src8) (rest : List Byte) :
    decode (encodeAlu y src ++ rest) = .ok (aluOf y.toNat src, rest) := by
  cases src with
  | reg r => exact decode_alu_rm y (.reg r) rest
  | mhl => exact decode_alu_rm y .mhl rest
  | imm n => exact decode_alu_imm y n rest

theorem decode_rst (y : BitVec 3) (rest : List Byte) : decode (encode (.rst y) ++ rest) = .ok (.rst y, rest) := by
  have hl : opLength (opcode 3 y 7) = 1 := by simp [opLength]
  rw [encode, List.cons_append, decode_one hl, decodeOp, if_neg (opcode_ne_cb y (.inr (by decide)))]
  simp [decodeBase, decodeX3]

/-- Settles O1: the fields of an encoding give the operands back; the bytes of an immediate ride along. -/
theorem decodeOfEncodeIsIdentity : Obligations.DecodeOfEncodeIsIdentity := by
  intro i rest hwf
  cases i with
  | ldRegReg dst src => cases dst <;> cases src <;> rfl
  | ldRegImm r _ | ldRegMhl r | ldMhlReg r | incReg r | decReg r => cases r <;> rfl
  | push r | pop r | addHl r | incPair r | decPair r => cases r <;> rfl
  | jrCond cc _ | retCond cc => cases cc <;> rfl
  | ldAMabs a | ldMabsA a | ldMabsSp a | jp a | call a => exact decode_withImm16 rfl (fun _ _ => rfl) a rest
  | ldPairImm r a => cases r <;> exact decode_withImm16 rfl (fun _ _ => rfl) a rest
  | jpCond cc a | callCond cc a => cases cc <;> exact decode_withImm16 rfl (fun _ _ => rfl) a rest
  | rst y => exact decode_rst y rest
  | add src | adc src | sub src | sbc src | and src | xor src | or src | cp src => exact decode_encodeAlu _ src rest
  | rlc t | rrc t | rl t | rr t | sla t | sra t | swap t | srl t => simp [encode, decode_encodeCb, decodeCb, shiftOf]
  | bit b t | res b t | set b t => simp [encode, decode_encodeCb, decodeCb]
  | illegal op =>
    have hop : op ∈ illegalBytes := List.contains_iff_mem.mp hwf
    rw [encode, List.cons_append, decode_one (opLength_of_illegal op hop), decodeOp_of_illegal hop, List.nil_append]
  | _ => rfl

end Sys2Proof
end

section
/-! What `executeOne` answers (30_encoding R80 to R83, 60_exceptions R250): a latched fault, the unchanged state while the
CORE waits, and otherwise the end of the instruction that the bytes at PC decode to, with its length. -/

namespace Sys2Proof.Machine

open Sys2Proof Sys2Proof.Claim

/-! ### The three kinds of state (R80) -/

/-- A fault is latched, or the CORE waits, or it is running. -/
theorem State.latched_or_hung_or_running (s : State) : (∃ f, s.fault = some f) ∨ Hung s ∨ s.Running := by
  cases hf : s.fault with
  | some f => exact .inl ⟨f, rfl⟩
  | none =>
    cases hh : s.halted with
    | true => exact .inr (.inl ⟨hf, .inl hh⟩)
    | false => cases hs : s.stopped with
      | true => exact .inr (.inl ⟨hf, .inr hs⟩)
      | false => exact .inr (.inr ⟨hf, hh, hs⟩)

section
variable {s t : State} {f : Fault}

theorem step_latched (h : s.fault = some f) : step s = .fault f := by
  simp [step, h]

theorem step_hung (h : Hung s) : step s = .next s := by
  obtain ⟨hf, hw⟩ := h
  simp [step, hf, hw]

theorem executeOne_next (h : step s = .next t) : executeOne s = (t, .ok (bytesConsumed s)) := by
  simp [executeOne, h]

theorem executeOne_fault (h : step s = .fault f) : executeOne s = (s.latchFault f, .fault f) := by
  simp [executeOne, h]

theorem State.latchFault_latched (h : s.fault = some f) : s.latchFault f = s := by
  rw [State.latchFault, ← h]

theorem bytesConsumed_hung (h : Hung s) : bytesConsumed s = 0 := by
  obtain ⟨-, hw⟩ := h
  simp [bytesConsumed, hw]

theorem bytesConsumed_running {i : Instr} (h : s.Running) (hi : fetchInstr s = .ok i) : bytesConsumed s = i.length := by
  obtain ⟨-, hh, hs⟩ := h
  simp [bytesConsumed, hh, hs, hi]

end

/-- Settles O10: the fault is latched already, and a waiting CORE consumes no byte. -/
theorem latchedOrWaitingCoreDoesNothing : Obligations.LatchedOrWaitingCoreDoesNothing := by
  refine ⟨fun s f hf => ⟨step_latched hf, ?_⟩, fun s hf hw => ⟨step_hung ⟨hf, hw⟩, ?_⟩⟩
  · rw [executeOne_fault (step_latched hf), State.latchFault_latched hf]
  · rw [executeOne_next (step_hung ⟨hf, hw⟩), bytesConsumed_hung ⟨hf, hw⟩]

/-! ### What an instruction and a step answer (R12, R254) -/

/-- An instruction faults as ILLEGAL does or at an address, or it answers a next state: it is never refused. -/
theorem exec_answers (i : Instr) (s : State) :
    (∃ op, exec i s = .fault (.illegalOpcode s.pc op)) ∨ (∃ a, exec i s = .fault (addressFault s a)) ∨
      ∃ t, exec i s = .next t := by
  by_cases hi : ∃ op, i = .illegal op
  · obtain ⟨op, rfl⟩ := hi
    exact .inl ⟨op, rfl⟩
  · have h := exec_ends s (not_exists.mp hi)
    cases ha : (accesses i s).find? (fun a => !inStore s.params a) with
    | some a => exact .inr (.inl ⟨a, h.of_find_some ha⟩)
    | none =>
      obtain ⟨t, ht, -⟩ := h.of_find_none ha
      exact .inr (.inr ⟨t, ht⟩)

/-- A fetch faults at an address only (R256). -/
theorem fetchInstr_error {s : State} {f : Fault} (h : fetchInstr s = .error f) : ∃ a, f = addressFault s a := by
  have hf := fetchInstr_answers s
  cases ha : (fetchAddrs s).find? (fun a => !inStore s.params a) with
  | some a => exact ⟨a, Except.error.inj (h.symm.trans (hf.of_find_some ha))⟩
  | none =>
    obtain ⟨i, hi, -⟩ := hf.of_find_none ha
    cases h.symm.trans hi

/-- The faults that a step can raise itself: none of the two of a descriptor (R252, R253). -/
theorem step_fault_unlatched {s : State} {f : Fault} (hs : s.fault = none) (h : step s = .fault f) :
    (∃ op, f = .illegalOpcode s.pc op) ∨ ∃ a, f = addressFault s a := by
  obtain hl | ⟨-, -, -, hf | ⟨i, -, hx⟩⟩ := step_fault h
  · cases hs.symm.trans hl
  · exact .inr (fetchInstr_error hf)
  · obtain ⟨op, ho⟩ | ⟨a, ha⟩ | ⟨t, ht⟩ := exec_answers i s
    · exact .inl ⟨op, Host.Outcome.fault.inj (hx.symm.trans ho)⟩
    · exact .inr ⟨a, Host.Outcome.fault.inj (hx.symm.trans ha)⟩
    · cases hx.symm.trans ht

/-- Settles O18: a running step ends in the fault of its fetch, or as its instruction does, which keeps the latch. -/
theorem stepAnswersNextOrFault : Obligations.StepAnswersNextOrFault := by
  intro s
  obtain ⟨f, hf⟩ | hw | hr := s.latched_or_hung_or_running
  · exact .inl ⟨f, step_latched hf⟩
  · exact .inr ⟨s, step_hung hw, hw.1, rfl⟩
  cases hi : fetchInstr s with
  | error f => exact .inl ⟨f, step_fetch_fault hr hi⟩
  | ok i =>
    obtain ⟨hfault, hh, hs⟩ := hr
    rw [step_running hfault hh hs hi]
    obtain ⟨op, ho⟩ | ⟨a, ha⟩ | ⟨u, hu⟩ := exec_answers i s
    · exact .inl ⟨_, by rw [ho]; rfl⟩
    · exact .inl ⟨_, by rw [ha]; rfl⟩
    · obtain ⟨-, -, -, -, fault, params⟩ := exec_keeps_latches hu
      exact .inr ⟨u.enableDelayed s.eiPending, by rw [hu]; rfl, by simp [fault, hfault], by simp [params]⟩

/-! ### The fetched instruction and its length (R80, R83) -/

theorem fetchInstr_length {s : State} {i : Instr} (h : fetchInstr s = .ok i) : i.length ∈ [1, 2, 3] := by
  obtain ⟨-, n1, n2, rfl⟩ := fetchInstr_inv h
  rw [length_decodeOp]
  simpa using opLength_cases (s.peek s.pc.toNat)

/-- Settles O13: `Ok` comes with a next state, of a waiting CORE or after the instruction whose length is counted. -/
theorem bytesConsumedIsTheLength : Obligations.BytesConsumedIsTheLength := by
  refine fun s => ⟨fun t n h => ?_, fun f hf n => by simp [executeOne_fault hf]⟩
  have hstep : step s = .next t ∧ n = bytesConsumed s := by
    cases hs : step s with
    | next u =>
      rw [executeOne_next hs] at h
      cases h
      exact ⟨rfl, rfl⟩
    | fault f =>
      rw [executeOne_fault hs] at h
      cases h
    | refused r =>
      rw [executeOne, hs] at h
      cases h
  obtain ⟨ht, rfl⟩ := hstep
  refine ⟨ht, ?_⟩
  obtain ⟨hf, hw, -⟩ | ⟨hf, hh, hs, i, u, hi, -⟩ := step_next ht
  · exact .inl ⟨hw, bytesConsumed_hung ⟨hf, hw⟩⟩
  · have hn := bytesConsumed_running ⟨hf, hh, hs⟩ hi
    exact .inr ⟨⟨hf, hh, hs⟩, hn ▸ fetchInstr_length hi, i, hi, hn⟩

/-- The fetch reads what the decoder takes: the opcode byte, and as many bytes after it as its length counts. -/
theorem fetchInstr_of_decode {s : State} {i : Instr} {bytes : List Byte} (hd : decode bytes = .ok (i, []))
    (hb : BytesAt s s.pc.toNat bytes) : fetchInstr s = .ok i := by
  obtain ⟨op, ⟨hl, rfl, rfl⟩ | ⟨hl, n1, rfl, rfl⟩ | ⟨hl, n1, n2, rfl, rfl⟩⟩ := decode_inv hd
  · obtain ⟨h0, rfl, -⟩ := hb
    rw [fetchInstr_one hl, memRead_ok h0]
    rfl
  · obtain ⟨h0, rfl, h1, rfl, -⟩ := hb
    rw [fetchInstr_two hl, memRead_ok h0, memRead_ok h1]
    rfl
  · obtain ⟨h0, rfl, h1, rfl, h2, rfl, -⟩ := hb
    rw [fetchInstr_three hl, memRead_ok h0, memReadWord_ok h1 h2]
    simp [Except.bind, Except.map]

theorem State.enableDelayed_eq_ite (s : State) (before : Bool) : s.enableDelayed before =
    if before = true ∧ s.eiPending = true then { s with ime := true, eiPending := false } else s := by
  simp [State.enableDelayed]

/-- Settles O9: the fetch answers the decoded instruction, and the end of the step is the delayed-enable step. -/
theorem stepRunsDecodedInstruction : Obligations.StepRunsDecodedInstruction := by
  rintro s i bytes ⟨hf, hh, hs⟩ hd hb
  rw [step_running hf hh hs (fetchInstr_of_decode hd hb)]
  cases exec i s with
  | next t => exact congrArg _ (t.enableDelayed_eq_ite s.eiPending)
  | fault f | refused r => rfl

/-- Settles O57: the step's fault is that of `fetchFaultsInOrder`, and `executeOne` latches it. -/
theorem illegalOpcodeFaults : Obligations.IllegalOpcodeFaults := by
  refine ⟨fun s op => rfl, fun s hr hc hop => ?_⟩
  obtain ⟨-, illegal, -⟩ := fetchFaultsInOrder s hr
  exact executeOne_fault (illegal hc hop)

end Sys2Proof.Machine
end

section
/-! Descriptors (30_encoding R81, R96, R108): the two faults of a fetched descriptor, and that neither arises over the
fixed table, whose every row stands for the instruction it was made from. -/

namespace Sys2Proof.Machine

open Sys2Proof Sys2Proof.Claim

/-! ### The faults of a descriptor (R96, R108) -/

section
variable {d : Descriptor} {bytes : List Byte} {n1 n2 : Byte} {s : State}

theorem conditionWellFormed_iff :
    conditionWellFormed d s = true ↔ ∀ o, conditionOperand d = some o → ∃ cc, o = .condition cc := by
  unfold conditionWellFormed
  cases conditionOperand d with
  | none => simp
  | some o => cases o <;> simp [evaluateCondition]

theorem execDescriptor_malformed (h : ¬ conditionWellFormed d s = true) :
    execDescriptor d bytes n1 n2 s = .fault (.malformedCondition s.pc bytes) := by
  rw [execDescriptor, if_neg h, raise]

theorem execDescriptor_invalid (h : conditionWellFormed d s = true) (hi : descriptorInstr d n1 n2 = none) :
    execDescriptor d bytes n1 n2 s = .fault (.invalidOperandCombination s.pc bytes) := by
  simp [execDescriptor, h, hi, raise]

theorem execDescriptor_ok {i : Instr} (h : conditionWellFormed d s = true) (hi : descriptorInstr d n1 n2 = some i) :
    execDescriptor d bytes n1 n2 s = exec i s := by
  simp [execDescriptor, h, hi]

end

/-- Settles O8: the gate is evaluated first (log entry 15), then the operands are matched. -/
theorem descriptorFaults : Obligations.DescriptorFaults := by
  intro s d bytes n1 n2
  constructor
  · rintro ⟨o, ho, hne⟩
    refine execDescriptor_malformed fun h => ?_
    obtain ⟨cc, hcc⟩ := conditionWellFormed_iff.mp h o ho
    exact hne cc hcc
  · intro hgate hnone
    exact execDescriptor_invalid (conditionWellFormed_iff.mpr hgate) (by simp [descriptorInstr, hnone])

/-! ### The descriptor of an instruction stands for it (R81) -/

section
variable {i : Instr} {d : Descriptor}

/-- The operand forms match the rule they were made from, with the immediate read from the bytes after the opcode. -/
theorem instrOf_instrOperation {m : Mnemonic} {ops : List OperandForm} (h : instrOperation i = some (m, ops))
    (n1 n2 : Byte) : instrOf m ops n1 n2 = some (i.withImmediates n1 n2) := by
  cases i with
  | illegal op => cases h
  | ldRegReg dst src => cases h; cases dst <;> cases src <;> rfl
  | ldRegImm r _ | ldRegMhl r | ldMhlReg r | incReg r | decReg r => cases h; cases r <;> rfl
  | ldPairImm r _ | push r | pop r | addHl r | incPair r | decPair r => cases h; cases r <;> rfl
  | add src | adc src | sub src | sbc src | and src | xor src | or src | cp src => cases h; cases src <;> rfl
  | rlc t | rrc t | rl t | rr t | sla t | sra t | swap t | srl t => cases h; cases t <;> rfl
  | bit b t | res b t | set b t => cases h; cases t <;> rfl
  | _ => cases h; rfl

theorem instrDescriptor_inv (h : instrDescriptor i = some d) :
    instrOperation i = some (d.mnemonic, d.operands) ∧ d.length = i.length := by
  unfold instrDescriptor at h
  split at h
  · rename_i hi
    cases h
    exact ⟨hi, rfl⟩
  · cases h

theorem instrDescriptor_none (h : instrDescriptor i = none) : ∃ op, i = .illegal op := by
  cases i with
  | illegal op => exact ⟨op, rfl⟩
  | _ => cases h

theorem instrDescriptor_gate (h : instrDescriptor i = some d) (s : State) : conditionWellFormed d s = true := by
  cases i with
  | illegal op => cases h
  | _ => cases h; rfl

theorem execDescriptor_instrDescriptor (h : instrDescriptor i = some d) (bytes : List Byte) (n1 n2 : Byte) (s : State) :
    execDescriptor d bytes n1 n2 s = exec (i.withImmediates n1 n2) s := by
  obtain ⟨hi, hl⟩ := instrDescriptor_inv h
  refine execDescriptor_ok (instrDescriptor_gate h s) ?_
  simp [descriptorInstr, instrOf_instrOperation hi, Instr.length_withImmediates, hl]

end

/-! ### A running step over a table (R80) -/

section
variable {table : OpcodeTable} {s : State} (hr : s.Running) (hc : inStore s.params s.pc.toNat = true)
include hr hc

theorem stepWithTable_illegal_row (hop : s.peek s.pc.toNat ≠ 0xCB) (ht : table.base (s.peek s.pc.toNat) = none) :
    stepWithTable table s = .fault (.illegalOpcode s.pc (s.peek s.pc.toNat)) := by
  obtain ⟨hf, hh, hs⟩ := hr
  rw [stepWithTable, hf, hh, hs, memRead_ok hc]
  simp only [Bool.or_self, Bool.false_eq_true, if_false, if_neg hop, ht, raise]

theorem stepWithTable_base_row {d : Descriptor} (hop : s.peek s.pc.toNat ≠ 0xCB)
    (ht : table.base (s.peek s.pc.toNat) = some d) :
    stepWithTable table s = finishStep s.eiPending (runDescriptor d (s.peek s.pc.toNat) s) := by
  obtain ⟨hf, hh, hs⟩ := hr
  rw [stepWithTable, hf, hh, hs, memRead_ok hc]
  simp only [Bool.or_self, Bool.false_eq_true, if_false, if_neg hop, ht]

theorem stepWithTable_cb_row {op2 : Byte} (hop : s.peek s.pc.toNat = 0xCB)
    (hn : memRead s (s.pc.toNat + 1) = .ok op2) : stepWithTable table s =
      finishStep s.eiPending (execDescriptor (table.cb op2).withCbLength [0xCB, op2] op2 0 s) := by
  obtain ⟨hf, hh, hs⟩ := hr
  rw [stepWithTable, hf, hh, hs, memRead_ok hc, hop, hn]
  rfl

theorem stepWithTable_cb_fault {f : Fault} (hop : s.peek s.pc.toNat = 0xCB)
    (hn : memRead s (s.pc.toNat + 1) = .error f) : stepWithTable table s = .fault f := by
  obtain ⟨hf, hh, hs⟩ := hr
  rw [stepWithTable, hf, hh, hs, memRead_ok hc, hop, hn]
  rfl

end

/-! ### The fixed table (R81, R102) -/

theorem decodeCb_ne_illegal (op2 op : Byte) : decodeCb op2 ≠ .illegal op := by
  intro h
  have hk := (decodeCb_kind op2).1
  rw [h] at hk
  cases hk

theorem shiftOf_withImmediates (code : Nat) (t : RM8) (n1 n2 : Byte) :
    (shiftOf code t).withImmediates n1 n2 = shiftOf code t := by
  unfold shiftOf
  split <;> rfl

theorem decodeCb_withImmediates (op2 n1 n2 : Byte) : (decodeCb op2).withImmediates n1 n2 = decodeCb op2 := by
  unfold decodeCb
  split
  · exact shiftOf_withImmediates _ _ n1 n2
  · rfl
  · rfl
  · rfl

/-- The 0xCB rows have length 2 and no immediate operand. -/
theorem execDescriptor_cbDescriptor (op2 : Byte) (bytes : List Byte) (s : State) :
    execDescriptor (cbDescriptor op2).withCbLength bytes op2 0 s = exec (decodeCb op2) s := by
  cases hd : instrDescriptor (decodeCb op2) with
  | none =>
    obtain ⟨op, hop⟩ := instrDescriptor_none hd
    exact absurd hop (decodeCb_ne_illegal op2 op)
  | some d =>
    have hlen : d.withCbLength = d := by
      rw [Descriptor.withCbLength, ← length_decodeCb op2, ← (instrDescriptor_inv hd).2]
    simp only [cbDescriptor, hd]
    rw [hlen, execDescriptor_instrDescriptor hd, decodeCb_withImmediates]

section
variable {s : State} (hr : s.Running) (hc : inStore s.params s.pc.toNat = true)
include hr hc

/-- Over the fixed table a running step whose opcode is not 0xCB runs the row's descriptor. -/
theorem step_eq_runDescriptor {d : Descriptor} (hop : s.peek s.pc.toNat ≠ 0xCB)
    (hd : instrDescriptor (decodeBase (s.peek s.pc.toNat) 0 0) = some d) :
    finishStep s.eiPending (runDescriptor d (s.peek s.pc.toNat) s) = step s := by
  have hlen : d.length = opLength (s.peek s.pc.toNat) := by
    rw [(instrDescriptor_inv hd).2, length_decodeBase hop]
  have run (bytes : List Byte) (n1 n2 : Byte) :
      execDescriptor d bytes n1 n2 s = exec (decodeOp (s.peek s.pc.toNat) n1 n2) s := by
    rw [execDescriptor_instrDescriptor hd, decodeBase_withImmediates, decodeOp, if_neg hop]
  have ⟨hf, hh, hs⟩ := hr
  obtain hl | hl | hl := opLength_cases (s.peek s.pc.toNat)
  · have hi := fetchInstr_one hl
    rw [memRead_ok hc] at hi
    rw [step_running hf hh hs hi]
    simp [runDescriptor, hlen, hl, run]
  · have hi := fetchInstr_two hl
    rw [memRead_ok hc] at hi
    cases hn : memRead s (s.pc.toNat + 1) with
    | error f =>
      rw [hn] at hi
      rw [step_fetch_fault hr hi]
      simp [runDescriptor, hlen, hl, hn, raise, finishStep]
    | ok n1 =>
      rw [hn] at hi
      rw [step_running hf hh hs hi]
      simp [runDescriptor, hlen, hl, hn, run]
  · have hi := fetchInstr_three hl
    rw [memRead_ok hc] at hi
    cases hn : memReadWord s (s.pc.toNat + 1) with
    | error f =>
      rw [hn] at hi
      rw [step_fetch_fault hr hi]
      simp [runDescriptor, hlen, hl, hn, raise, finishStep]
    | ok n =>
      rw [hn] at hi
      rw [step_running hf hh hs hi]
      simp [runDescriptor, hlen, hl, hn, run]

/-- Over the fixed table a running step whose opcode is 0xCB runs the row of the second byte. -/
theorem stepWithTable_fixedTable_cb (hop : s.peek s.pc.toNat = 0xCB) : stepWithTable fixedTable s = step s := by
  have ⟨hf, hh, hs⟩ := hr
  have hi := fetchInstr_two (s := s) (by rw [hop]; rfl)
  rw [memRead_ok hc, hop] at hi
  cases hn : memRead s (s.pc.toNat + 1) with
  | error f =>
    rw [hn] at hi
    rw [step_fetch_fault hr hi, stepWithTable_cb_fault hr hc hop hn]
  | ok op2 =>
    rw [hn] at hi
    rw [step_running hf hh hs hi, stepWithTable_cb_row hr hc hop hn]
    exact congrArg _ (execDescriptor_cbDescriptor op2 _ s)

/-- Over the fixed table a running step whose opcode is not 0xCB runs the row of the opcode, or faults if it has none. -/
theorem stepWithTable_fixedTable_base (hop : s.peek s.pc.toNat ≠ 0xCB) : stepWithTable fixedTable s = step s := by
  cases hd : instrDescriptor (decodeBase (s.peek s.pc.toNat) 0 0) with
  | none =>
    obtain ⟨x, hx⟩ := instrDescriptor_none hd
    have hdec : decodeOp (s.peek s.pc.toNat) 0 0 = .illegal x := by rw [decodeOp, if_neg hop, hx]
    obtain ⟨hill, -⟩ := decodeOp_eq_illegal_iff.mp hdec
    obtain ⟨-, illegal, -⟩ := fetchFaultsInOrder s hr
    rw [illegal hc hill, stepWithTable_illegal_row hr hc hop hd]
  | some d => rw [stepWithTable_base_row hr hc hop hd, step_eq_runDescriptor hr hc hop hd]

end

theorem stepWithTable_fixedTable (s : State) : stepWithTable fixedTable s = step s := by
  obtain ⟨f, hf⟩ | hw | hr := s.latched_or_hung_or_running
  · rw [step_latched hf, stepWithTable, hf]
  · obtain ⟨hf, hwait⟩ := id hw
    rw [step_hung hw]
    simp [stepWithTable, hf, hwait]
  obtain ⟨hc, -⟩ | ⟨-, hm⟩ := memRead_cases s s.pc.toNat
  · by_cases hop : s.peek s.pc.toNat = 0xCB
    · exact stepWithTable_fixedTable_cb hr hc hop
    · exact stepWithTable_fixedTable_base hr hc hop
  · have ⟨hf, hh, hs⟩ := hr
    have hi : fetchInstr s = .error (addressFault s s.pc.toNat) := by simp [fetchInstr, hm]
    rw [step_fetch_fault hr hi]
    simp [stepWithTable, hf, hh, hs, hm]

/-- Settles O7: row by row, and a step's own faults are those of an illegal byte and of an address. -/
theorem fixedTableStepIsStep : Obligations.FixedTableStepIsStep := by
  refine ⟨stepWithTable_fixedTable, fun s pc0 bytes hs => ⟨fun h => ?_, fun h => ?_⟩⟩
  · obtain ⟨_, ⟨⟩⟩ | ⟨_, ⟨⟩⟩ := step_fault_unlatched hs h
  · obtain ⟨_, ⟨⟩⟩ | ⟨_, ⟨⟩⟩ := step_fault_unlatched hs h

end Sys2Proof.Machine
end

section
/-! The condition evaluator (30_encoding R95) and the auto-index operand forms (R93). -/

namespace Sys2Proof.Machine

open Sys2Proof Sys2Proof.Claim

/-! ### Conditions -/

theorem getLsbD_iff_div_mod (v : Byte) (k : Nat) : v.getLsbD k = true ↔ v.toNat / 2 ^ k % 2 = 1 := by
  rw [BitVec.getLsbD, Nat.testBit_eq_decide_div_mod_eq, decide_eq_true_iff]

theorem not_getLsbD_iff_div_mod (v : Byte) (k : Nat) : (!v.getLsbD k) = true ↔ v.toNat / 2 ^ k % 2 = 0 := by
  rw [Bool.not_eq_true', ← Bool.not_eq_true, getLsbD_iff_div_mod]
  omega

/-- Settles O29: Z is bit 7 of F and C is bit 4. -/
theorem conditionTestsOneBit : Obligations.ConditionTestsOneBit := by
  refine ⟨fun s => ⟨?_, ?_, ?_, ?_⟩, fun s hf => ?_, fun s hf => ?_⟩
  · exact not_getLsbD_iff_div_mod s.f 7
  · exact getLsbD_iff_div_mod s.f 7
  · exact not_getLsbD_iff_div_mod s.f 4
  · exact getLsbD_iff_div_mod s.f 4
  · simp [cond, State.flagZ, State.flagC, hf]
  · simp [cond, State.flagZ, State.flagC, hf]

/-! ### The auto-index forms -/

section
variable {s : State} (h : HasCell s s.hl.toNat)
include h

/-- LD A,(HL+) and LD A,(HL-): A takes the byte at HL, then HL moves. -/
theorem copyByte_to_a {src : ByteOperand} (hsrc : src.resolve s = .mem s.hl.toNat) :
    copyByte (.reg .a) src s = .ok (src.postModify (s.setR8 .a (cell s s.hl.toNat))) := by
  refine copyByte_ok (dst := .reg .a) (v := cell s s.hl.toNat) ?_ rfl
  rw [hsrc, Loc.read, memRead_ok h, State.peek, busAddress_word]

/-- LD (HL+),A and LD (HL-),A: the byte at HL takes A, then HL moves. -/
theorem copyByte_from_a {dst : ByteOperand} (hdst : dst.resolve s = .mem s.hl.toNat) :
    copyByte dst (.reg .a) s = .ok (dst.postModify (s.poke s.hl.toNat (s.r8 .a))) := by
  refine copyByte_ok (src := .reg .a) (v := s.r8 .a) rfl ?_
  rw [hdst]
  exact memWrite_ok h _

theorem exec_ldAMhlInc : exec .ldAMhlInc s =
    .next (({ s.setR8 .a (cell s s.hl.toNat) with hl := s.hl + 1 } : State).advance 1) := by
  rw [exec, execLdAMhlInc, copyByte_to_a h rfl]
  rfl

theorem exec_ldAMhlDec : exec .ldAMhlDec s =
    .next (({ s.setR8 .a (cell s s.hl.toNat) with hl := s.hl - 1 } : State).advance 1) := by
  rw [exec, execLdAMhlDec, copyByte_to_a h rfl]
  rfl

theorem exec_ldMhlIncA : exec .ldMhlIncA s =
    .next (({ s.poke s.hl.toNat (s.r8 .a) with hl := s.hl + 1 } : State).advance 1) := by
  rw [exec, execLdMhlIncA, copyByte_from_a h rfl]
  rfl

theorem exec_ldMhlDecA : exec .ldMhlDecA s =
    .next (({ s.poke s.hl.toNat (s.r8 .a) with hl := s.hl - 1 } : State).advance 1) := by
  rw [exec, execLdMhlDecA, copyByte_from_a h rfl]
  rfl

end

theorem toNat_pred_succ (w : Word) : ((w - 1).toNat + 1) % 2 ^ 16 = w.toNat := by
  have h : (w - 1 + 1).toNat = ((w - 1).toNat + 1) % 2 ^ 16 := BitVec.toNat_add (w - 1) 1
  rw [← h, BitVec.sub_add_cancel]

theorem cell_poke_word (s : State) (w : Word) (v : Byte) : cell (s.poke w.toNat v) w.toNat = v := by
  simp [cell]

/-- Settles O37: the next state of each form, and the cells that `exec_keeps_cells` leaves. -/
theorem autoIndexResult : Obligations.AutoIndexResult := by
  intro s h
  refine ⟨⟨_, exec_ldAMhlInc h, ?_, BitVec.toNat_add s.hl 1, ?_⟩, ⟨_, exec_ldAMhlDec h, ?_, toNat_pred_succ s.hl, ?_⟩,
    ⟨_, exec_ldMhlIncA h, ?_, BitVec.toNat_add s.hl 1, exec_keeps_cells (exec_ldMhlIncA h)⟩,
    ⟨_, exec_ldMhlDecA h, ?_, toNat_pred_succ s.hl, exec_keeps_cells (exec_ldMhlDecA h)⟩⟩
  · exact State.r8_setR8_same s .a _
  · rfl
  · exact State.r8_setR8_same s .a _
  · rfl
  · exact cell_poke_word s s.hl _
  · exact cell_poke_word s s.hl _

end Sys2Proof.Machine
end

section
/-! The load family (40_load.md): a byte load copies between a register and the one cell its memory operand names (R91,
R146), a pair load writes the pair, SP-relative sums take their flags from the unsigned low byte (R213), and PUSH and
POP move a pair through the stack's cells (R58). -/

namespace Sys2Proof.Machine

open Sys2Proof Sys2Proof.Claim

/-! ### Byte loads from and to memory -/

section
variable {s : State} {o : ByteOperand} {a len : Nat}

theorem ByteOperand.busAddress_of_resolve (ho : o.resolve s = .mem a) (p : Params) : busAddress p a = a :=
  busAddress_of_le p (o.resolve_accesses_le s a (by simp [ho, Loc.accesses]))

/-- A load from memory reads the cell that the source names in the state before (R91, R146). -/
theorem load_reads_cell {r : Reg8} (ho : o.resolve s = .mem a) (hr : r ∉ o.marked) (h : HasCell s a) :
    ∃ t, complete len (copyByte (.reg r) o s) = .next t ∧ t.r8 r = cell s a := by
  have hread : (o.resolve s).read s = .ok (cell s a) := by
    rw [ho, Loc.read, memRead_ok h, State.peek, ByteOperand.busAddress_of_resolve ho]
  have hcopy := copyByte_ok (dst := .reg r) hread rfl
  obtain ⟨hkept, -⟩ := postModify_keeps_registers o (s.setR8 r (cell s a)) true
  refine ⟨_, congrArg (complete len) hcopy, ?_⟩
  calc
    _ = (o.postModify (s.setR8 r (cell s a))).r8 r := State.r8_advance ..
    _ = (s.setR8 r (cell s a)).r8 r := hkept r hr
    _ = cell s a := s.r8_setR8_same r _

/-- A store writes the cell that the destination names in the state before, and no other (R91, R146). -/
theorem store_writes_cell {src : ByteOperand} {v : Byte} (hsrc : (src.resolve s).read s = .ok v)
    (ho : o.resolve s = .mem a) (h : HasCell s a) :
    ∃ t, complete len (copyByte o src s) = .next t ∧ cell t a = v ∧ SameCellsBut [a] s t := by
  have hwrite : (o.resolve s).write s v = .ok (s.poke a v) := by rw [ho, Loc.write, memWrite_ok h]
  have hcopy := copyByte_ok hsrc hwrite
  have hkept := copyByte_keeps_cells hcopy
  rw [ho, Loc.accesses] at hkept
  refine ⟨_, congrArg (complete len) hcopy, ?_, sameCellsBut_of_mem_eq hkept rfl⟩
  simp [cell, ByteOperand.busAddress_of_resolve ho]

end

/-- Settles O36: each form is a store whose destination has the stated address. -/
theorem memoryStoreResult : Obligations.MemoryStoreResult := fun _ r w n =>
  ⟨fun h => ⟨store_writes_cell (src := .reg r) rfl rfl h, store_writes_cell (src := .imm n) rfl rfl h⟩,
    store_writes_cell (src := .reg .a) (o := .indirect .bc) rfl rfl,
    store_writes_cell (src := .reg .a) (o := .indirect .de) rfl rfl,
    store_writes_cell (src := .reg .a) (o := .absolute w) rfl rfl,
    store_writes_cell (src := .reg .a) (o := .highImm n) rfl rfl,
    store_writes_cell (src := .reg .a) (o := .highC) rfl rfl⟩

/-- Settles O35: each form is a load whose source has the stated address, and none of these sources carries a marker. -/
theorem memoryLoadResult : Obligations.MemoryLoadResult := fun _ dst w n =>
  ⟨load_reads_cell (r := dst) (o := .indirect .hl) rfl List.not_mem_nil,
    load_reads_cell (o := .indirect .bc) rfl List.not_mem_nil,
    load_reads_cell (o := .indirect .de) rfl List.not_mem_nil,
    load_reads_cell (o := .absolute w) rfl List.not_mem_nil,
    load_reads_cell (o := .highImm n) rfl List.not_mem_nil,
    load_reads_cell (o := .highC) rfl List.not_mem_nil⟩

/-! ### SP plus a displacement (R142, R213, R214) -/

/-- The integer sum, narrowed last, is the sum of SP and the sign-extended displacement (R9, R213). -/
theorem addSpDisp_res (sp : Word) (e : Byte) : (addSpDisp sp e).res = sp + sext16 e := by
  simp [addSpDisp, sext16, BitVec.signExtend, BitVec.ofInt_add]

theorem State.flagsAre_setFlags (s : State) (z n h c : Bool) : FlagsAre (s.setFlags z n h c) z n h c :=
  ⟨s.flagZ_setFlags z n h c, s.flagN_setFlags z n h c, s.flagH_setFlags z n h c, s.flagC_setFlags z n h c⟩

/-- Settles O39: both write `addSpDisp`, whose H and C are the stated ones, to HL or SP and set the flags after. -/
theorem stackPointerDisplacementResult : Obligations.StackPointerDisplacementResult := fun s e =>
  ⟨⟨_, rfl, addSpDisp_res s.sp e, rfl, State.flagsAre_setFlags ..⟩,
    ⟨_, rfl, addSpDisp_res s.sp e, rfl, State.flagsAre_setFlags ..⟩⟩

/-! ### PUSH and POP (R143 to R145) -/

theorem pushWord_sameRegisters {s t : State} {v : Word} (h : pushWord s v = .ok t) : SameRegisters s t := by
  obtain ⟨-, -, rfl⟩ := pushWord_inv h
  exact ⟨rfl, rfl, rfl, rfl⟩

theorem exec_pop {rr : R16Stk} {s : State} (h : ∀ a ∈ popCells s, HasCell s a) :
    exec (.pop rr) s = .next (({ s with sp := s.sp + 2 }.setR16 (stkPair rr) (popValue s)).advance 1) := by
  obtain ⟨-, pop⟩ := stackCellsByMode s 0
  obtain ⟨t, hpop, rfl⟩ := pop h
  rw [exec, execPop_eq_complete, hpop]
  rfl

/-- A write to a pair of PUSH and POP is read back, through the mask if it is AF (R25). -/
theorem State.r16_setR16_stkPair (s : State) (rr : R16Stk) (v : Word) :
    (s.setR16 (stkPair rr) v).r16 (stkPair rr) = if rr = .af then v &&& 0xFFF0 else v := by
  cases rr <;> rfl

theorem State.r16_advance (s : State) {rr : Pair} (h : rr ≠ .pc) (len : Nat) : (s.advance len).r16 rr = s.r16 rr := by
  cases rr with
  | pc => exact absurd rfl h
  | af | bc | de | hl | sp => rfl

theorem State.setR16_stkPair_sp (s : State) (rr : R16Stk) (v : Word) : (s.setR16 (stkPair rr) v).sp = s.sp := by
  cases rr <;> rfl

/-- Settles O40: the stack's cells by `stackCellsByMode`; the pair a pop writes is no part of the stack. -/
theorem pushAndPopResult : Obligations.PushAndPopResult := by
  intro s rr
  refine ⟨fun h => ?push, fun h => ⟨_, exec_pop h, ?pair, ?sp, ?mem⟩⟩
  case push =>
    obtain ⟨push, -⟩ := stackCellsByMode s (s.r16 (stkPair rr))
    obtain ⟨t, ht, hpushed, hcells⟩ := push h
    exact ⟨t.advance 1, congrArg (complete 1) ht, hpushed, (pushWord_sameRegisters ht :), hcells⟩
  case pair => rw [State.r16_advance _ (stkPair_ne_pc rr), State.r16_setR16_stkPair]
  case sp => exact State.setR16_stkPair_sp ..
  case mem => exact State.setR16_mem ..

/-! ### Register and pair loads (R120, R121, R140, R141) -/

/-- What a load into a register and the end of its instruction leave: the register holds the byte, PC is past the
instruction, and all else is kept. -/
theorem State.setR8_advance_frame (s : State) (r : Reg8) (v : Byte) (len : Nat) :
    ((s.setR8 r v).advance len).r8 r = v ∧ (∀ x, x ≠ r → ((s.setR8 r v).advance len).r8 x = s.r8 x) ∧
      ((s.setR8 r v).advance len).f = s.f ∧ ((s.setR8 r v).advance len).pc = s.pc + BitVec.ofNat 16 len ∧
      ((s.setR8 r v).advance len).sp = s.sp ∧ ((s.setR8 r v).advance len).mem = s.mem ∧
      SameLatches s ((s.setR8 r v).advance len) := by
  have hother : ∀ x, x ≠ r → (s.setR8 r v).r8 x = s.r8 x := fun x hx => s.r8_setR8_other hx v
  simpa [SameLatches] using hother

/-- Settles O34: the byte loads are one register write, and the pair loads leave the PC that `complete` advances. -/
theorem registerLoadResult : Obligations.RegisterLoadResult := by
  intro s dst src n rr w
  refine ⟨⟨_, rfl, s.setR8_advance_frame dst (s.r8 src) 1⟩, ⟨_, rfl, s.setR8_advance_frame dst n 2⟩, ?pair, rfl⟩
  case pair =>
    change Host.Outcome.next ((s.setR16 (r16Pair rr) w).advance 3) = _
    rw [State.advance, s.setR16_pc (r16Pair_ne_pc rr)]
    rfl

end Sys2Proof.Machine
end

section
/-! The control-transfer family (41_control R160 to R172): jumps, calls and returns, and that a return undoes a call or
an interrupt entry (R171, R265) because a pop undoes a push. -/

namespace Sys2Proof.Machine

open Sys2Proof Sys2Proof.Claim

/-! ### Jumps (R160 to R164) -/

/-- The 16-bit sum is the integer sum narrowed last (R163). -/
theorem toNat_relativeTarget (s : State) (e : Byte) :
    ((relativeTarget s e).toNat : Int) = (s.pc.toNat + 2 + e.toInt) % 2 ^ 16 := by
  have h : relativeTarget s e = BitVec.ofInt 16 (s.pc.toNat + 2 + e.toInt) := by
    simp [relativeTarget, sext16, BitVec.signExtend, BitVec.ofInt_add]
  rw [h, BitVec.toNat_ofInt]
  exact Int.toNat_of_nonneg (Int.emod_nonneg _ (by decide))

theorem exec_jpCond (cc : Cond) (a : Word) (s : State) :
    exec (.jpCond cc a) s = .next { s with pc := if cond cc s then a else s.pc + 3 } := by
  rw [exec, execJpCond]
  split <;> rfl

/-- A relative jump that is not taken is one with displacement 0 (R164). -/
theorem exec_jrCond (cc : Cond) (e : Byte) (s : State) :
    exec (.jrCond cc e) s = .next { s with pc := relativeTarget s (if cond cc s then e else 0) } := by
  rw [exec, execJrCond]
  split
  · rfl
  · simp [State.advance, relativeTarget, sext16]

/-- Settles O41: each form sets PC alone, the relative ones by `toNat_relativeTarget`. -/
theorem jumpResult : Obligations.JumpResult := by
  intro s cc a e
  refine ⟨rfl, exec_jpCond cc a s, rfl, ⟨_, rfl, rfl, toNat_relativeTarget s e⟩, ⟨_, exec_jrCond cc e s, rfl, ?_⟩⟩
  rw [toNat_relativeTarget, apply_ite BitVec.toInt]
  rfl

/-! ### Calls (R165, R166, R170) -/

section
variable {s : State} {cc : Cond}

theorem exec_callCond_taken (h : cond cc s = true) (a : Word) : exec (.callCond cc a) s = exec (.call a) s :=
  if_pos h

theorem exec_callCond_not_taken (h : cond cc s = false) (a : Word) :
    exec (.callCond cc a) s = .next { s with pc := s.pc + 3 } :=
  if_neg (Bool.not_eq_true _ ▸ h)

end

/-- A call whose push has its cells: the return address is in them, PC is at the target, and all else is kept. -/
theorem transfer_callTo_pushes {s : State} (h : ∀ x ∈ pushCells s, HasCell s x) (len : Nat) (target : Word) :
    ∃ t, transfer (callTo s len target) = .next t ∧ t.pc = target ∧ Pushed s t (s.pc + BitVec.ofNat 16 len) ∧
      SameRegisters s t ∧ SameCellsBut (pushCells s) s t := by
  obtain ⟨push, -⟩ := stackCellsByMode s (s.pc + BitVec.ofNat 16 len)
  obtain ⟨t, ht, hpushed, hcells⟩ := push h
  exact ⟨t.jumpTo target, congrArg transfer (callTo_ok target ht), rfl, hpushed, (pushWord_sameRegisters ht :), hcells⟩

theorem toNat_restartTarget (y : BitVec 3) : (restartTarget y).toNat = 8 * y.toNat := by
  have h := y.isLt
  rw [restartTarget, BitVec.toNat_ofNat]
  omega

/-- Settles O42: CALL, a taken CALL cc and RST are one call each, of length 3, 3 and 1. -/
theorem callResult : Obligations.CallResult := by
  intro s cc a y
  refine ⟨fun h => ⟨transfer_callTo_pushes h 3 a, fun hc => ?taken, ?rst⟩, fun hc => exec_callCond_not_taken hc a⟩
  case taken =>
    rw [exec_callCond_taken hc]
    exact transfer_callTo_pushes h 3 a
  case rst =>
    obtain ⟨t, ht, hpc, hrest⟩ := transfer_callTo_pushes h 1 (restartTarget y)
    exact ⟨t, ht, hpc ▸ toNat_restartTarget y, hrest⟩

/-! ### Returns (R167 to R169) -/

section
variable {s t : State} {cc : Cond} {v : Word}

theorem exec_ret (h : popWord s = .ok (v, t)) : exec .ret s = .next (t.jumpTo v) :=
  congrArg transfer h

theorem exec_reti (h : popWord s = .ok (v, t)) : exec .reti s = .next (({ t with ime := true } : State).jumpTo v) :=
  congrArg transfer (returnFromInterrupt_ok h)

theorem exec_retCond_taken (h : cond cc s = true) : exec (.retCond cc) s = exec .ret s :=
  if_pos h

theorem exec_retCond_not_taken (h : cond cc s = false) : exec (.retCond cc) s = .next { s with pc := s.pc + 1 } :=
  if_neg (Bool.not_eq_true _ ▸ h)

end

/-- Settles O43: one pop, by `stackCellsByMode`, is behind all three. -/
theorem returnResult : Obligations.ReturnResult := by
  intro s cc
  refine ⟨fun h => ?_, exec_retCond_not_taken⟩
  obtain ⟨-, pop⟩ := stackCellsByMode s 0
  obtain ⟨t, ht, rfl⟩ := pop h
  exact ⟨exec_ret ht, fun hc => (exec_retCond_taken hc).trans (exec_ret ht), exec_reti ht⟩

/-! ### A return undoes a call or an entry (R171, R265) -/

/-- A word pop answers the word pushed and restores SP, if what came between left SP, the store and the parameters. -/
theorem popWord_after_pushWord {s u t : State} {v : Word} (h : pushWord s v = .ok u) (sp : t.sp = u.sp)
    (mem : t.mem = u.mem) (params : t.params = u.params) : popWord t = .ok (v, { t with sp := s.sp }) := by
  obtain ⟨-, lifo⟩ := stackIsLastInFirstOut
  obtain ⟨w, hw, hsp, -⟩ := lifo s u v h
  obtain ⟨h1, h2, rfl, rfl⟩ := popWord_inv hw
  rw [← params, ← sp] at h1 h2
  rw [popWord_ok h1 h2, ← hsp]
  simp only [State.peek, sp, mem, params]

theorem pushWord_sameLatches {s t : State} {v : Word} (h : pushWord s v = .ok t) : SameLatches s t := by
  obtain ⟨-, -, rfl⟩ := pushWord_inv h
  exact ⟨rfl, rfl, rfl, rfl, rfl, rfl⟩

theorem transfer_callTo_next {s t : State} {len : Nat} {target : Word} (h : transfer (callTo s len target) = .next t) :
    ∃ u, pushWord s (s.pc + BitVec.ofNat 16 len) = .ok u ∧ t = u.jumpTo target := by
  obtain ⟨w, u, hu, rfl⟩ := transfer_next h
  obtain ⟨rfl, hpush⟩ := callTo_inv hu
  exact ⟨u, hpush, rfl⟩

/-- A taken CALL, CALL cc or RST pushes the address past its own bytes and sets some target. -/
theorem exec_takenCall {i : Instr} {s : State}
    (hi : (∃ a, i = .call a) ∨ (∃ cc a, i = .callCond cc a ∧ cond cc s = true) ∨ (∃ y, i = .rst y)) :
    ∃ target, exec i s = transfer (callTo s i.length target) := by
  obtain ⟨a, rfl⟩ | ⟨cc, a, rfl, hc⟩ | ⟨y, rfl⟩ := hi
  · exact ⟨a, rfl⟩
  · exact ⟨a, exec_callCond_taken hc a⟩
  · exact ⟨restartTarget y, rfl⟩

/-- Settles O44: between the push and the pop there are a jump and a delayed enable, which leave the stack alone. -/
theorem callThenReturn : Obligations.CallThenReturn := by
  rintro s t i ⟨hf, hh, hs⟩ hi hcall hstep hret
  obtain ⟨target, hexec⟩ := exec_takenCall hcall
  rw [step_running hf hh hs hi, hexec] at hstep
  obtain ⟨_, hnext, ht⟩ := finishStep_next hstep
  obtain ⟨u, hpush, rfl⟩ := transfer_callTo_next hnext
  have hpop := popWord_after_pushWord (t := t) hpush (by simp [ht]) (by simp [ht]) (by simp [ht])
  obtain ⟨-, -, halted, stopped, fault, -⟩ := pushWord_sameLatches hpush
  obtain ⟨hf', hh', hs'⟩ : t.fault = none ∧ t.halted = false ∧ t.stopped = false := by
    simp [ht, halted, stopped, fault, hf, hh, hs]
  rw [step_running hf' hh' hs' hret, exec_ret hpop]
  exact ⟨_, rfl, by simp, by simp⟩

/-- Settles O59: an entry is admitted with IME = 1 only, and it pushes the PC of before. -/
theorem entryThenReturn : Obligations.EntryThenReturn := by
  intro s t i h
  obtain ⟨-, -, hentry⟩ := requestEntry_next h
  obtain ⟨u, hpush, rfl⟩ := enterInterrupt_inv hentry
  have hpop := popWord_after_pushWord (t := u.jumpTo i.vector) hpush rfl rfl rfl
  exact ⟨_, exec_reti hpop, rfl, rfl, rfl, (pushWord_sameRegisters hpush :), rfl⟩

end Sys2Proof.Machine
end

section
/-! The flag cross-table (42_alu8 R180): an instruction that writes flags ends with one `setFlags`, whose arguments are
its row; every other but POP AF keeps all of F. -/

namespace Sys2Proof.Machine

open Sys2Proof Sys2Proof.Claim

/-- From `s` to `t` the flags change as the row says (R180). -/
abbrev FlagsFollow (row : FlagEffect × FlagEffect × FlagEffect × FlagEffect) (s t : State) : Prop :=
  row.1.Holds s.flagZ t.flagZ ∧ row.2.1.Holds s.flagN t.flagN ∧ row.2.2.1.Holds s.flagH t.flagH ∧
    row.2.2.2.Holds s.flagC t.flagC ∧ (row = noFlags → t.f = s.f)

/-! ### The operations that leave F -/

theorem State.f_setR16 (s : State) {rr : Pair} (h : rr ≠ .af) (v : Word) : (s.setR16 rr v).f = s.f := by
  cases rr with
  | af => exact absurd rfl h
  | bc | de | hl | sp | pc => rfl

theorem r16Pair_ne_af (rr : R16) : r16Pair rr ≠ .af := by cases rr <;> decide

theorem State.flagC_of_f_eq {s t : State} (h : t.f = s.f) : t.flagC = s.flagC := congrArg (BitVec.getLsbD · 4) h

@[simp] theorem ByteOperand.postModify_f (o : ByteOperand) (s : State) : (o.postModify s).f = s.f := by
  cases o <;> rfl

section
variable {row : FlagEffect × FlagEffect × FlagEffect × FlagEffect} {s t u : State}

theorem Loc.write_keeps_f {l : Loc} {v : Byte} (h : l.write s v = .ok t) : t.f = s.f := by
  obtain ⟨r, -, rfl⟩ | ⟨w, -, rfl⟩ | ⟨a, -, -, rfl⟩ := Loc.write_inv h
  · exact s.f_setR8 r v
  · rfl
  · rfl

theorem copyByte_keeps_f {dst src : ByteOperand} (h : copyByte dst src s = .ok t) : t.f = s.f := by
  obtain ⟨v, u, -, hu, rfl⟩ := copyByte_inv h
  simpa using Loc.write_keeps_f hu

theorem pushWord_keeps_f {v : Word} (h : pushWord s v = .ok t) : t.f = s.f := by
  obtain ⟨haf, -⟩ := pushWord_sameRegisters h
  exact congrArg loByte haf

theorem popWord_keeps_f {v : Word} (h : popWord s = .ok (v, t)) : t.f = s.f := by
  obtain ⟨-, -, -, rfl⟩ := popWord_inv h
  rfl

/-! ### What follows a row -/

theorem flagsFollow_noFlags (h : t.f = s.f) : FlagsFollow noFlags s t :=
  ⟨congrArg (BitVec.getLsbD · 7) h, congrArg (BitVec.getLsbD · 6) h, congrArg (BitVec.getLsbD · 5) h,
    congrArg (BitVec.getLsbD · 4) h, fun _ => h⟩

/-- The arguments of `setFlags` are a row that writes a flag. -/
theorem flagsFollow_setFlags {ez en eh ec : FlagEffect} {z n hc c : Bool} (hz : ez.Holds s.flagZ z)
    (hn : en.Holds s.flagN n) (hh : eh.Holds s.flagH hc) (hcy : ec.Holds s.flagC c)
    (hrow : (ez, en, eh, ec) ≠ noFlags) : FlagsFollow (ez, en, eh, ec) s (u.setFlags z n hc c) := by
  simp only [FlagsFollow, State.flagZ_setFlags, State.flagN_setFlags, State.flagH_setFlags, State.flagC_setFlags]
  exact ⟨hz, hn, hh, hcy, fun h => absurd h hrow⟩

theorem complete_flagsFollow {len : Nat} {r : Except Fault State} (h : complete len r = .next t)
    (hr : ∀ u, r = .ok u → FlagsFollow row s u) : FlagsFollow row s t := by
  obtain ⟨u, hu, rfl⟩ := complete_next h
  exact hr u hu

theorem complete_keeps_f {len : Nat} {r : Except Fault State} (h : complete len r = .next t)
    (hr : ∀ u, r = .ok u → u.f = s.f) : FlagsFollow noFlags s t :=
  complete_flagsFollow h fun u hu => flagsFollow_noFlags (hr u hu)

theorem transfer_keeps_f {r : Except Fault (Word × State)} (h : transfer r = .next t)
    (hr : ∀ target u, r = .ok (target, u) → u.f = s.f) : FlagsFollow noFlags s t := by
  obtain ⟨target, u, hu, rfl⟩ := transfer_next h
  exact flagsFollow_noFlags (hr target u hu)

/-- A conditional transfer writes no flag, taken or not (R161, R164, R166, R168). -/
theorem cond_keeps_f {cc : Cond} {len : Nat} {r : Except Fault (Word × State)}
    (h : (if cond cc s then transfer r else complete len (.ok s)) = .next t)
    (hr : ∀ target u, r = .ok (target, u) → u.f = s.f) : FlagsFollow noFlags s t := by
  split at h
  · exact transfer_keeps_f h hr
  · exact complete_keeps_f h fun _ hu => Except.ok.inj hu ▸ rfl

/-- The update of INC, DEC and the shifts writes its operand, which leaves F, and then the flags. -/
theorem updateRM_flagsFollow {x : RM8} {f : Byte → Byte} {g : Byte → State → State} (h : updateRM x f g s = .ok t)
    (hg : ∀ v w, w.f = s.f → FlagsFollow row s (g v w)) : FlagsFollow row s t := by
  obtain ⟨v, w, -, hw, rfl⟩ := updateRM_inv h
  exact hg v w (Loc.write_keeps_f hw)

end

/-! ### Every instruction -/

theorem exec_flagsFollow {i : Instr} {s t : State} (h : exec i s = .next t) : FlagsFollow (flagRow i) s t := by
  have one : ∀ {row len u}, complete len (.ok u) = .next t → FlagsFollow row s u → FlagsFollow row s t :=
    fun h hu => complete_flagsFollow h fun _ hv => Except.ok.inj hv ▸ hu
  have quiet : ∀ {len u}, complete len (.ok u) = .next t → u.f = s.f → FlagsFollow noFlags s t :=
    fun h hu => one h (flagsFollow_noFlags hu)
  have jump : ∀ {w : Word} target u, (Except.ok (w, s) : Except Fault (Word × State)) = .ok (target, u) →
      u.f = s.f := fun _ _ hu => by
    cases hu
    rfl
  have src : ∀ {row len x k}, complete len (withSrc x s k) = .next t → (∀ v, FlagsFollow row s (k v)) →
      FlagsFollow row s t := fun h hk => complete_flagsFollow h fun _ hu => by
    obtain ⟨v, -, rfl⟩ := withSrc_inv hu
    exact hk v
  have update : ∀ {row len x f g}, complete len (updateRM x f g s) = .next t →
      (∀ v w, w.f = s.f → FlagsFollow row s (g v w)) → FlagsFollow row s t :=
    fun h hg => complete_flagsFollow h fun _ hu => updateRM_flagsFollow hu hg
  cases i with
  | illegal op => cases h
  | add x | adc x | sub x | sbc x | cp x =>
    exact src h fun _ => flagsFollow_setFlags trivial rfl trivial trivial (by decide)
  | and x | xor x | or x => exact src h fun _ => flagsFollow_setFlags trivial rfl rfl rfl (by decide)
  | incReg r | decReg r =>
    exact one h (flagsFollow_setFlags trivial rfl trivial (State.flagC_of_f_eq (s.f_setR8 r _)) (by decide))
  | incMhl | decMhl =>
    exact update (x := .mhl) h fun _ _ hw =>
      flagsFollow_setFlags trivial rfl trivial (State.flagC_of_f_eq hw) (by decide)
  | rlca | rrca | rla | rra => exact one h (flagsFollow_setFlags rfl rfl rfl trivial (by decide))
  | daa => exact one h (flagsFollow_setFlags trivial rfl rfl trivial (by decide))
  | cpl | scf => exact one h (flagsFollow_setFlags rfl rfl rfl rfl (by decide))
  | ccf => exact one h (flagsFollow_setFlags rfl rfl rfl trivial (by decide))
  | addHl rr | addSpE8 e | ldHlSpE8 e => exact one h (flagsFollow_setFlags rfl rfl trivial trivial (by decide))
  | rlc x | rrc x | rl x | rr x | sla x | sra x | srl x =>
    exact update h fun _ _ _ => flagsFollow_setFlags trivial rfl rfl trivial (by decide)
  | swap x => exact update h fun _ _ _ => flagsFollow_setFlags trivial rfl rfl rfl (by decide)
  | bit b x =>
    simp only [exec, execBit] at h
    split at h
    · exact one h (flagsFollow_setFlags trivial rfl rfl rfl (by decide))
    · cases h
  | pop rr =>
    obtain rfl := exec_pop_next h
    cases rr with
    | af => exact ⟨trivial, trivial, trivial, trivial, nofun⟩
    | bc | de | hl => exact flagsFollow_noFlags rfl
  | nop | halt | stop n | di | ei | ldSpHl => exact quiet h rfl
  | ldPairImm rr n | incPair rr | decPair rr => exact quiet h (s.f_setR16 (r16Pair_ne_af rr) _)
  | jp a | jpHl | jr e => exact transfer_keeps_f (r := .ok (_, s)) h jump
  | jpCond cc a | jrCond cc e => exact cond_keeps_f h jump
  | call a | rst y => exact transfer_keeps_f h fun _ _ hu => pushWord_keeps_f (callTo_inv hu).2
  | callCond cc a => exact cond_keeps_f h fun _ _ hu => pushWord_keeps_f (callTo_inv hu).2
  | ret => exact transfer_keeps_f h fun _ _ hu => popWord_keeps_f hu
  | retCond cc => exact cond_keeps_f h fun _ _ hu => popWord_keeps_f hu
  | reti =>
    refine transfer_keeps_f h fun _ _ hu => ?_
    obtain ⟨u, hp, rfl⟩ := returnFromInterrupt_inv hu
    exact (popWord_keeps_f hp :)
  | push rr => exact complete_keeps_f h fun _ hu => pushWord_keeps_f hu
  | ldMabsSp a =>
    refine complete_keeps_f h fun u hu => ?_
    obtain ⟨-, -, rfl⟩ := memWriteWord_inv hu
    rfl
  | res b x | set b x => exact update h fun _ _ hw => flagsFollow_noFlags hw
  | ldRegReg dst x =>
    exact complete_keeps_f (len := 1) (r := copyByte (.reg dst) (.reg x) s) h fun _ hu => copyByte_keeps_f hu
  | ldRegImm dst n =>
    exact complete_keeps_f (len := 2) (r := copyByte (.reg dst) (.imm n) s) h fun _ hu => copyByte_keeps_f hu
  | ldRegMhl _ | ldMhlReg _ | ldMhlImm _ => exact complete_keeps_f h fun _ hu => copyByte_keeps_f hu
  | ldAMbc | ldAMde | ldMbcA | ldMdeA | ldAMhlInc | ldAMhlDec | ldMhlIncA | ldMhlDecA =>
    exact complete_keeps_f h fun _ hu => copyByte_keeps_f hu
  | ldAMabs _ | ldMabsA _ | ldhAImm _ | ldhImmA _ | ldhAC | ldhCA =>
    exact complete_keeps_f h fun _ hu => copyByte_keeps_f hu

/-- Settles O24: `exec_flagsFollow` is the statement. -/
theorem flagTableHolds : Obligations.FlagTableHolds := fun _ _ _ h => exec_flagsFollow h

end Sys2Proof.Machine
end

section
/-! 8-bit arithmetic and logic (42_alu8 R181 to R201): what each byte computation gives as a number or bit by bit, and
that A, the operand and the flags take it. -/

namespace Sys2Proof.Machine

open Sys2Proof Sys2Proof.Claim

/-! ### Readable operands (R181, R220) -/

section
variable {s : State} {v : Byte}

theorem srcReads_read {src : Src8} (h : SrcReads src s v) : ((srcOperand src).resolve s).read s = .ok v := by
  cases src with
  | reg r => exact congrArg _ h.symm
  | mhl =>
    obtain ⟨hc, rfl⟩ := h
    exact (memRead_ok hc).trans (by rw [State.peek, busAddress_word])
  | imm n => exact congrArg _ h.symm

/-- An operation on a readable source that writes A and takes Z from the result (R182 to R188). -/
theorem withSrc_result {src : Src8} {k : Byte → State} {r : Byte} {n h c : Bool} (hsrc : SrcReads src s v)
    (hk : k v = (s.setR8 .a r).setFlags (r == 0) n h c) (len : Nat) :
    ∃ t, complete len (withSrc src s k) = .next t ∧ t.r8 .a = r ∧ FlagsAre t (t.r8 .a == 0) n h c := by
  have ha : ((k v).advance len).r8 .a = r := by simp [hk]
  refine ⟨(k v).advance len, by rw [withSrc_ok k (srcReads_read hsrc), complete_ok], ha, ?_⟩
  rw [ha, hk]
  exact State.flagsAre_setFlags ..

/-- An update of a readable operand leaves the result in it, before the flags are written. -/
theorem updateRM_result {x : RM8} {f : Byte → Byte} {g : Byte → State → State} (hx : RmReads x s v) :
    ∃ u, updateRM x f g s = .ok (g v u) ∧ RmHolds x s u (f v) ∧ u.f = s.f := by
  cases x with
  | reg r =>
    obtain rfl : v = s.r8 r := hx
    exact ⟨_, updateRM_reg r f g s, s.r8_setR8_same r _, s.f_setR8 r _⟩
  | mhl =>
    obtain ⟨hc, rfl⟩ := hx
    have hu := updateRM_mhl (f := f) (g := g) hc
    rw [State.peek, busAddress_word] at hu
    exact ⟨_, hu, cell_poke_word s s.hl _, rfl⟩

/-- An update that then writes the four flags (R190 to R193, R221 to R228). -/
theorem updateRM_flags_result {x : RM8} {f : Byte → Byte} {g : Byte → State → State} {z n h c : Bool}
    (hx : RmReads x s v) (hg : ∀ u, u.f = s.f → g v u = u.setFlags z n h c) (len : Nat) :
    ∃ t, complete len (updateRM x f g s) = .next t ∧ RmHolds x s t (f v) ∧ FlagsAre t z n h c := by
  obtain ⟨u, hu, hr, hf⟩ := updateRM_result (f := f) (g := g) hx
  rw [hg u hf] at hu
  refine ⟨_, congrArg (complete len) hu, ?_, State.flagsAre_setFlags ..⟩
  cases x with
  | reg r => simpa [RmHolds] using hr
  | mhl => exact hr

end

/-! ### The zero test (R181) -/

theorem byte_beq_zero_eq {r : Byte} {p : Prop} [Decidable p] (h : r.toNat = 0 ↔ p) : (r == 0) = decide p := by
  have hr : r = 0 ↔ p := BitVec.toNat_inj.symm.trans h
  simp [← hr, beq_eq_decide]

/-! ### Addition (R181 to R183) -/

theorem toNat_add8_res (a b : Byte) (cin : Bool) : (add8 a b cin).res.toNat = (a.toNat + b.toNat + cin.toNat) % 256 :=
  BitVec.toNat_ofNat ..

theorem addition_result {src : Src8} {s : State} {v : Byte} (hsrc : SrcReads src s v) (cin : Bool) (len : Nat) :
    ∃ t, complete len (withSrc src s fun v => storeSum s (add8 (s.r8 .a) v cin)) = .next t ∧
      (t.r8 .a).toNat = ((s.r8 .a).toNat + v.toNat + cin.toNat) % 256 ∧
      FlagsAre t (t.r8 .a == 0) false (add8 (s.r8 .a) v cin).h (add8 (s.r8 .a) v cin).c := by
  obtain ⟨t, ht, ha, hf⟩ := withSrc_result hsrc (k := fun v => storeSum s (add8 (s.r8 .a) v cin)) rfl len
  exact ⟨t, ht, ha ▸ toNat_add8_res .., hf⟩

/-- Settles O45: both forms are `add8`, with carry-in 0 for ADD. -/
theorem additionResult : Obligations.AdditionResult := fun s src _ hsrc =>
  ⟨addition_result hsrc false src.length, addition_result hsrc s.flagC src.length⟩

/-! ### Subtraction and comparison (R181, R184, R185, R189) -/

theorem toNat_sub8_res (a b : Byte) (cin : Bool) :
    ((sub8 a b cin).res.toNat : Int) = ((a.toNat : Int) - b.toNat - cin.toNat) % 256 := by
  rw [sub8, BitVec.toNat_ofInt]
  exact Int.toNat_of_nonneg (Int.emod_nonneg _ (by decide))

theorem subtraction_result {src : Src8} {s : State} {v : Byte} (hsrc : SrcReads src s v) (cin : Bool) (len : Nat) :
    ∃ t, complete len (withSrc src s fun v => storeDifference s (sub8 (s.r8 .a) v cin)) = .next t ∧
      ((t.r8 .a).toNat : Int) = (((s.r8 .a).toNat : Int) - v.toNat - cin.toNat) % 256 ∧
      FlagsAre t (t.r8 .a == 0) true (sub8 (s.r8 .a) v cin).h (sub8 (s.r8 .a) v cin).c := by
  obtain ⟨t, ht, ha, hf⟩ := withSrc_result hsrc (k := fun v => storeDifference s (sub8 (s.r8 .a) v cin)) rfl len
  exact ⟨t, ht, ha ▸ toNat_sub8_res .., hf⟩

/-- The difference is 0 exactly if the operands are equal. -/
theorem sub8_res_beq_zero (a b : Byte) : ((sub8 a b false).res == 0) = decide (a.toNat = b.toNat) := by
  refine byte_beq_zero_eq ?_
  have h := toNat_sub8_res a b false
  have ha := a.isLt
  have hb := b.isLt
  simp only [Bool.toNat_false] at h
  omega

/-- Settles O46: SUB and SBC are `sub8`, with borrow-in 0 for SUB; CP sets the flags of SUB. -/
theorem subtractionResult : Obligations.SubtractionResult := by
  intro s src v hsrc
  refine ⟨?sub, subtraction_result hsrc s.flagC src.length, ?cp⟩
  case sub =>
    obtain ⟨t, ht, ha, hf⟩ := subtraction_result hsrc false src.length
    exact ⟨t, ht, by simpa using ha, hf⟩
  case cp =>
    refine ⟨_, congrArg (complete src.length) (withSrc_ok _ (srcReads_read hsrc)), ?_, ?_⟩
    · simp
    · rw [← sub8_res_beq_zero]
      exact State.flagsAre_setFlags ..

/-! ### Logic (R186 to R188) -/

/-- Settles O47: each writes A and the flags from its bitwise result. -/
theorem logicResult : Obligations.LogicResult := fun _ src _ hsrc =>
  ⟨withSrc_result hsrc rfl src.length, withSrc_result hsrc rfl src.length, withSrc_result hsrc rfl src.length⟩

/-! ### Increment and decrement (R190 to R193) -/

section
variable {x : RM8} {s : State} {v : Byte}

theorem increment8_result (hx : RmReads x s v) : ∃ t r, complete 1 (increment8 x s) = .next t ∧ RmHolds x s t r ∧
    r.toNat = (v.toNat + 1) % 256 ∧
    FlagsAre t (decide (v.toNat = 0xFF)) false (decide (v.toNat % 16 = 0x0F)) s.flagC := by
  have hr : (add8 v 1 false).res.toNat = (v.toNat + 1) % 256 := toNat_add8_res v 1 false
  have hz : ((add8 v 1 false).res == 0) = decide (v.toNat = 0xFF) := byte_beq_zero_eq (by have := v.isLt; omega)
  have hh : (add8 v 1 false).h = decide (v.toNat % 16 = 0x0F) :=
    decide_eq_decide.mpr (show v.toNat % 16 + 1 + 0 > 0x0F ↔ v.toNat % 16 = 0x0F by omega)
  obtain ⟨t, ht, hv, hf⟩ : ∃ t, complete 1 (increment8 x s) = .next t ∧ RmHolds x s t (add8 v 1 false).res ∧
      FlagsAre t _ _ _ s.flagC :=
    updateRM_flags_result hx (fun u hu => congrArg (u.setFlags _ _ _) (State.flagC_of_f_eq hu)) 1
  exact ⟨t, _, ht, hv, hr, hz ▸ hh ▸ hf⟩

theorem decrement8_result (hx : RmReads x s v) : ∃ t r, complete 1 (decrement8 x s) = .next t ∧ RmHolds x s t r ∧
    (r.toNat + 1) % 256 = v.toNat ∧
    FlagsAre t (decide (v.toNat = 1)) true (decide (v.toNat % 16 = 0)) s.flagC := by
  have hr : ((sub8 v 1 false).res.toNat + 1) % 256 = v.toNat := by
    have h : ((sub8 v 1 false).res.toNat : Int) = (v.toNat - 1 - 0) % 256 := toNat_sub8_res v 1 false
    have hv := v.isLt
    omega
  have hz : ((sub8 v 1 false).res == 0) = decide (v.toNat = 1) := sub8_res_beq_zero v 1
  have hh : (sub8 v 1 false).h = decide (v.toNat % 16 = 0) := decide_eq_decide.mpr Nat.lt_one_iff
  obtain ⟨t, ht, hv, hf⟩ : ∃ t, complete 1 (decrement8 x s) = .next t ∧ RmHolds x s t (sub8 v 1 false).res ∧
      FlagsAre t _ _ _ s.flagC :=
    updateRM_flags_result hx (fun u hu => congrArg (u.setFlags _ _ _) (State.flagC_of_f_eq hu)) 1
  exact ⟨t, _, ht, hv, hr, hz ▸ hh ▸ hf⟩

end

/-- Settles O48: a register is always readable, and (HL) if it has a cell. -/
theorem incrementDecrementResult : Obligations.IncrementDecrementResult := by
  intro s r
  refine ⟨?incReg, ?decReg, fun h => ⟨?incMhl, ?decMhl⟩⟩
  case incReg =>
    obtain ⟨t, _, ht, rfl, hrest⟩ := increment8_result (x := .reg r) (s := s) rfl
    exact ⟨t, ht, hrest⟩
  case decReg =>
    obtain ⟨t, _, ht, rfl, hrest⟩ := decrement8_result (x := .reg r) (s := s) rfl
    exact ⟨t, ht, hrest⟩
  case incMhl =>
    obtain ⟨t, _, ht, rfl, hrest⟩ := increment8_result (x := .mhl) (s := s) ⟨h, rfl⟩
    exact ⟨t, ht, hrest⟩
  case decMhl =>
    obtain ⟨t, _, ht, rfl, hrest⟩ := decrement8_result (x := .mhl) (s := s) ⟨h, rfl⟩
    exact ⟨t, ht, hrest⟩

/-! ### Rotates of the accumulator (R194 to R197) -/

theorem ofNat_double (v : Byte) : BitVec.ofNat 8 (v.toNat * 2 % 256) = v <<< 1 := by
  apply BitVec.eq_of_toNat_eq
  simp [Nat.shiftLeft_eq]

theorem ofNat_half (v : Byte) : BitVec.ofNat 8 (v.toNat / 2) = v >>> 1 := by
  apply BitVec.eq_of_toNat_eq
  have hv := v.isLt
  rw [BitVec.toNat_ofNat, BitVec.toNat_ushiftRight, Nat.shiftRight_eq_div_pow]
  omega

theorem getLsbD_carry_bit0 (cin : Bool) (k : Nat) :
    (BitVec.ofNat 8 cin.toNat).getLsbD k = (decide (k = 0) && cin) := by
  cases cin <;> simp

theorem getLsbD_carry_bit7 (cin : Bool) (k : Nat) :
    (BitVec.ofNat 8 (cin.toNat * 0x80)).getLsbD k = (decide (k = 7) && cin) := by
  cases cin with
  | false => simp
  | true => exact (BitVec.getLsbD_twoPow 7 k).trans (by simp [eq_comm])

theorem rotateLeftThrough_shiftedUp (v : Byte) (cin : Bool) : ShiftedUp (rotateLeftThrough v cin).res v cin := by
  simp only [ShiftedUp, rotateLeftThrough, ofNat_double, BitVec.getLsbD_or, BitVec.getLsbD_shiftLeft,
    getLsbD_carry_bit0]
  refine ⟨by simp, fun k hk => ?_⟩
  have hk8 : k + 1 < 8 := by omega
  simp [hk8]

theorem rotateRightThrough_shiftedDown (v : Byte) (cin : Bool) :
    ShiftedDown (rotateRightThrough v cin).res v cin := by
  simp only [ShiftedDown, rotateRightThrough, ofNat_half, BitVec.getLsbD_or, BitVec.getLsbD_ushiftRight,
    getLsbD_carry_bit7]
  refine ⟨by simp, fun k hk => ?_⟩
  have hk7 : k ≠ 7 := by omega
  simp [hk7, Nat.add_comm]

/-- The rotate that A takes has `post`, and the flags are cleared but for C (R194 to R197). -/
theorem storeRotated_result (s : State) {r : Shifted} (post : Byte → Prop) (h : post r.res) :
    ∃ t, complete 1 (.ok (storeRotated s r)) = .next t ∧ post (t.r8 .a) ∧ FlagsAre t false false false r.c := by
  have ha : ((storeRotated s r).advance 1).r8 .a = r.res := by simp [storeRotated]
  exact ⟨_, rfl, ha ▸ h, State.flagsAre_setFlags ..⟩

/-- Settles O49: RLCA and RRCA are the rotates through carry with the bit that leaves as the carry-in. -/
theorem accumulatorRotateResult : Obligations.AccumulatorRotateResult := by
  intro s a
  exact ⟨storeRotated_result s (ShiftedUp · a _) (rotateLeftThrough_shiftedUp a _),
    storeRotated_result s (ShiftedDown · a _) (rotateRightThrough_shiftedDown a _),
    storeRotated_result s (ShiftedUp · a _) (rotateLeftThrough_shiftedUp a _),
    storeRotated_result s (ShiftedDown · a _) (rotateRightThrough_shiftedDown a _)⟩

/-! ### Decimal adjust (R198) -/

/-- The two parts of the adjustment share no bit, so their sum is their union. -/
theorem daaAdjust_eq (a : Byte) (n h c : Bool) : daaAdjust a n h c = decimalAdjustment a.toNat n h c := by
  have parts (p q : Prop) [Decidable p] [Decidable q] :
      (if p then 0x06 else 0) + (if q then 0x60 else 0) = (if p then 0x06 else 0) ||| (if q then 0x60 else 0) := by
    split <;> split <;> rfl
  cases n <;> simp [daaAdjust, decimalAdjustment, parts]

theorem toNat_daaResult_add (a : Byte) (h c : Bool) :
    (daaResult a false h c).toNat = (a.toNat + decimalAdjustment a.toNat false h c) % 256 := by
  rw [← daaAdjust_eq]
  exact BitVec.toNat_ofNat ..

theorem toNat_daaResult_sub (a : Byte) (h c : Bool) :
    ((daaResult a true h c).toNat + decimalAdjustment a.toNat true h c) % 256 = a.toNat := by
  have ha := a.isLt
  rw [← daaAdjust_eq, daaResult, if_pos rfl, BitVec.toNat_ofInt]
  omega

/-- Settles O50: DAA writes A from `daaResult`, with the adjustment of N = 0 or of N = 1. -/
theorem decimalAdjustResult : Obligations.DecimalAdjustResult := by
  intro s
  have ha : ∀ r z n h c, (((s.setR8 .a r).setFlags z n h c).advance 1).r8 .a = r := by simp
  refine ⟨_, rfl, fun hn => ?add, fun hn => ?sub, ?flags⟩
  case add => rw [ha, hn, toNat_daaResult_add]
  case sub => rw [ha, hn, toNat_daaResult_sub]
  case flags =>
    rw [ha]
    exact State.flagsAre_setFlags ..

/-! ### Decimal addition (R182, R198) -/

theorem toNat_bcd {n : Nat} (hn : n < 100) : (bcd n).toNat = n / 10 * 16 + n % 10 := by
  rw [bcd, BitVec.toNat_ofNat]
  omega

theorem bcd_beq_zero {n : Nat} (hn : n < 100) : (bcd n == 0) = decide (n = 0) :=
  byte_beq_zero_eq (by rw [toNat_bcd hn]; omega)

section
variable {x y : Nat} (hx : x < 100) (hy : y < 100)
include hx hy

/-- After the binary sum of two-digit decimals the adjustment adds 6 to each digit whose decimal sum carries. -/
theorem decimalAdjustment_bcd_sum :
    decimalAdjustment (((bcd x).toNat + (bcd y).toNat) % 256) false
        (decide ((bcd x).toNat % 16 + (bcd y).toNat % 16 > 15)) (decide ((bcd x).toNat + (bcd y).toNat > 255)) =
      (if x % 10 + y % 10 ≥ 10 then 0x06 else 0) ||| (if x + y ≥ 100 then 0x60 else 0) := by
  have hp := toNat_bcd hx
  have hq := toNat_bcd hy
  have hlow : ((bcd x).toNat % 16 + (bcd y).toNat % 16 > 15 ∨ ((bcd x).toNat + (bcd y).toNat) % 256 % 16 > 9) ↔
      x % 10 + y % 10 ≥ 10 := by omega
  have hhigh : ((bcd x).toNat + (bcd y).toNat > 255 ∨ ((bcd x).toNat + (bcd y).toNat) % 256 > 0x99) ↔
      x + y ≥ 100 := by omega
  simp only [decimalAdjustment, decide_eq_true_eq, hlow, hhigh, if_true]

/-- The adjusted binary sum is the decimal sum. -/
theorem adjusted_bcd_sum :
    (((bcd x).toNat + (bcd y).toNat) % 256 +
        ((if x % 10 + y % 10 ≥ 10 then 0x06 else 0) ||| (if x + y ≥ 100 then 0x60 else 0))) % 256 =
      (bcd ((x + y) % 100)).toNat := by
  rw [toNat_bcd hx, toNat_bcd hy, toNat_bcd (Nat.mod_lt _ (by decide))]
  split <;> split <;> simp only [Nat.reduceOr, Nat.or_zero, Nat.zero_or] <;> omega

/-- The binary sum, carry included, is above 0x99 exactly if the decimal sum has a hundred. -/
theorem daaCarry_bcd_sum :
    (decide ((bcd x).toNat + (bcd y).toNat > 255) || decide (((bcd x).toNat + (bcd y).toNat) % 256 > 0x99)) =
      decide (x + y ≥ 100) := by
  have hp := toNat_bcd hx
  have hq := toNat_bcd hy
  rw [← Bool.decide_or, decide_eq_decide]
  omega

end

/-- Settles O51: DAA after the sum, whose H and C are the binary carries out of the digits. -/
theorem decimalAddition : Obligations.DecimalAddition := by
  intro s x y hx hy ha
  obtain ⟨⟨t, ht, hsum, -, hn, hh, hc⟩, -⟩ := additionResult s (.imm (bcd y)) (bcd y) rfl
  obtain ⟨u, hu, hadd, -, hZ, -, -, hC⟩ := decimalAdjustResult t
  have hdigits : u.r8 .a = bcd ((x + y) % 100) := by
    apply BitVec.eq_of_toNat_eq
    rw [hadd hn, hn, hh, hc, hsum, ha, decimalAdjustment_bcd_sum hx hy, adjusted_bcd_sum hx hy]
  refine ⟨t, u, ht, hu, hdigits, ?carry, ?zero⟩
  case carry => simpa [hC, hc, hn, hsum, ha] using daaCarry_bcd_sum hx hy
  case zero => rw [hZ, hdigits, bcd_beq_zero (Nat.mod_lt _ (by decide))]

/-! ### Complement and carry (R199 to R201) -/

/-- Settles O52: CPL inverts each bit of A, which is 255 - A; SCF and CCF write the flags alone. -/
theorem complementAndCarryResult : Obligations.ComplementAndCarryResult := by
  intro s
  refine ⟨⟨_, rfl, ?cpl, State.flagsAre_setFlags ..⟩, ⟨_, rfl, ?scf, State.flagsAre_setFlags ..⟩,
    ⟨_, rfl, ?ccf, State.flagsAre_setFlags ..⟩⟩
  case cpl => simp
  case scf => simp
  case ccf => simp

end Sys2Proof.Machine
end

section
/-! 16-bit arithmetic (43_alu16 R210 to R212): `add16` as a number, and what an instruction that is one pair write
leaves. -/

namespace Sys2Proof.Machine

open Sys2Proof Sys2Proof.Claim

theorem toNat_add16_res (a b : Word) : (add16 a b).res.toNat = (a.toNat + b.toNat) % 2 ^ 16 := BitVec.toNat_ofNat ..

/-- The end of an instruction moves PC only, and no `R16` names PC or AF. -/
theorem setR16_r16Pair_result (s : State) (rr : R16) (v : Word) (len : Nat) :
    ∃ t, complete len (.ok (s.setR16 (r16Pair rr) v)) = .next t ∧ t.r16 (r16Pair rr) = v ∧ t.f = s.f := by
  refine ⟨_, rfl, ?pair, ?f⟩
  case pair => rw [State.r16_advance _ (r16Pair_ne_pc rr), State.r16_setR16_same _ (r16Pair_ne_af rr)]
  case f => rw [State.f_advance, State.f_setR16 _ (r16Pair_ne_af rr)]

/-- Settles O53: ADD HL writes `add16` to HL and then the flags; INC and DEC are one write to the pair. -/
theorem pairArithmeticResult : Obligations.PairArithmeticResult := by
  intro s rr x
  refine ⟨⟨_, rfl, toNat_add16_res .., State.flagsAre_setFlags ..⟩, ?inc, ?dec⟩
  case inc =>
    obtain ⟨t, ht, hpair, hf⟩ := setR16_r16Pair_result s rr (s.r16 (r16Pair rr) + 1) 1
    exact ⟨t, ht, hpair ▸ BitVec.toNat_add .., hf⟩
  case dec =>
    obtain ⟨t, ht, hpair, hf⟩ := setR16_r16Pair_result s rr (s.r16 (r16Pair rr) - 1) 1
    have hback : t.r16 (r16Pair rr) + 1 = s.r16 (r16Pair rr) := hpair ▸ BitVec.sub_add_cancel ..
    exact ⟨t, ht, (BitVec.toNat_add ..).symm.trans (congrArg _ hback), hf⟩

end Sys2Proof.Machine
end

section
/-! 0xCB-prefixed instructions (44_cb_prefix R220 to R231): the shifted byte bit by bit, and what BIT, RES and SET leave
of the operand and the flags. -/

namespace Sys2Proof.Machine

open Sys2Proof Sys2Proof.Claim

/-! ### Readable operands (R220) -/

section
variable {x : RM8} {s : State} {v : Byte}

theorem rmReads_read (hx : RmReads x s v) : ((rmOperand x).resolve s).read s = .ok v := by
  cases x with
  | reg r => exact srcReads_read (src := .reg r) hx
  | mhl => exact srcReads_read (src := .mhl) hx

/-- An operand that is read still holds its value where the registers and the memory are the same. -/
theorem rmHolds_of_same {t : State} (hx : RmReads x s v) (hr : ∀ r, t.r8 r = s.r8 r) (hmem : t.mem = s.mem) :
    RmHolds x s t v := by
  cases x with
  | reg r => exact (hr r).trans hx.symm
  | mhl =>
    obtain ⟨-, rfl⟩ := hx
    exact congrArg (Memory.get · s.hl.toNat) hmem

/-- The end of an instruction moves PC, which no r8 operand names. -/
theorem rmHolds_advance {t : State} (len : Nat) (h : RmHolds x s t v) : RmHolds x s (t.advance len) v := by
  cases x with
  | reg r => exact (t.r8_advance len r).trans h
  | mhl => exact h

/-- A shift of a readable operand leaves in it a byte that has `post`, with the flags of that byte. -/
theorem shiftRM_result (hx : RmReads x s v) (op : Byte → Shifted) (post : Byte → Prop) (h : post (op v).res) :
    ∃ t r, complete 2 (shiftRM x op s) = .next t ∧ RmHolds x s t r ∧ post r ∧
      FlagsAre t (r == 0) false false (op v).c := by
  obtain ⟨t, ht, hr, hf⟩ := updateRM_flags_result (f := fun v => (op v).res)
    (g := fun v u => u.setFlags ((op v).res == 0) false false (op v).c) hx (fun _ _ => rfl) 2
  exact ⟨t, _, ht, hr, h, hf⟩

/-- An update of a readable operand that writes no flag (R230, R231). -/
theorem updateRM_keeps_f_result {f : Byte → Byte} (hx : RmReads x s v) (len : Nat) :
    ∃ t, complete len (updateRM x f (fun _ u => u) s) = .next t ∧ RmHolds x s t (f v) ∧ t.f = s.f := by
  obtain ⟨u, hu, hr, hf⟩ := updateRM_result (f := f) (g := fun _ u => u) hx
  exact ⟨_, congrArg (complete len) hu, rmHolds_advance len hr, hf⟩

/-- BIT on a readable operand writes the flags and moves PC, and nothing else (R229). -/
theorem execBit_result (b : BitVec 3) (hx : RmReads x s v) :
    execBit b x s = .next ((s.setFlags (!v.getLsbD b.toNat) false true s.flagC).advance 2) := by
  rw [execBit_eq_complete, rmReads_read hx]
  rfl

end

/-! ### Rotates, shifts and SWAP (R221 to R228) -/

theorem shiftLeft_eq_rotateLeftThrough (v : Byte) : shiftLeft v = rotateLeftThrough v false := by
  simp [shiftLeft, rotateLeftThrough]

theorem shiftRightLogical_eq_rotateRightThrough (v : Byte) : shiftRightLogical v = rotateRightThrough v false := by
  simp [shiftRightLogical, rotateRightThrough]

/-- SRA puts back the bit 7 it moves down. -/
theorem shiftRightArith_eq_rotateRightThrough (v : Byte) :
    shiftRightArith v = rotateRightThrough v (v.getLsbD 7) := by
  have hbit : v &&& 0x80 = BitVec.ofNat 8 ((v.getLsbD 7).toNat * 0x80) := by
    rw [show (0x80 : Byte) = BitVec.twoPow 8 7 from rfl, BitVec.and_twoPow]
    cases v.getLsbD 7 <;> rfl
  rw [shiftRightArith, hbit, rotateRightThrough]

theorem getLsbD_swapNibbles (v : Byte) (k : Nat) (hk : k < 8) :
    (swapNibbles v).res.getLsbD k = v.getLsbD ((k + 4) % 8) := by
  have hdigits : v.toNat % 16 * 16 + v.toNat / 16 = 2 ^ 4 * (v.toNat % 2 ^ 4) + v.toNat / 2 ^ 4 := by omega
  have hhigh : v.toNat / 2 ^ 4 < 2 ^ 4 := by omega
  rw [swapNibbles, BitVec.getLsbD_ofNat, hdigits, Nat.testBit_two_pow_mul_add _ hhigh]
  split
  case isTrue hlow =>
    have hmod : (k + 4) % 8 = k + 4 := by omega
    rw [Nat.testBit_div_two_pow, hmod, BitVec.getLsbD]
    simp [hk]
  case isFalse hlow =>
    have hmod : (k + 4) % 8 = k - 4 := by omega
    have hk4 : k - 4 < 4 := by omega
    rw [Nat.testBit_mod_two_pow, hmod, BitVec.getLsbD]
    simp [hk, hk4]

/-- Settles O54: each of the seven is a rotate through carry with its own carry-in, and SWAP exchanges the digits. -/
theorem shiftResult : Obligations.ShiftResult := by
  intro s x v hx
  have up (op : Byte → Shifted) (cin : Bool) (h : op v = rotateLeftThrough v cin) :=
    shiftRM_result hx op (ShiftedUp · v cin) (h ▸ rotateLeftThrough_shiftedUp v cin)
  have down (op : Byte → Shifted) (cin : Bool) (h : op v = rotateRightThrough v cin) :=
    shiftRM_result hx op (ShiftedDown · v cin) (h ▸ rotateRightThrough_shiftedDown v cin)
  exact ⟨up rotateLeft _ rfl, down rotateRight _ rfl, up (rotateLeftThrough · s.flagC) _ rfl,
    down (rotateRightThrough · s.flagC) _ rfl, up shiftLeft _ (shiftLeft_eq_rotateLeftThrough v),
    down shiftRightArith _ (shiftRightArith_eq_rotateRightThrough v),
    down shiftRightLogical _ (shiftRightLogical_eq_rotateRightThrough v),
    shiftRM_result hx swapNibbles (fun r => ∀ k, k < 8 → r.getLsbD k = v.getLsbD ((k + 4) % 8))
      (getLsbD_swapNibbles v)⟩

/-! ### BIT, RES and SET (R229 to R231) -/

theorem getLsbD_bitMask (b : BitVec 3) {k : Nat} (hk : k < 8) : (bitMask b).getLsbD k = decide (k = b.toNat) := by
  rw [bitMask, BitVec.getLsbD_ofNat, Nat.testBit_two_pow]
  simp [hk, eq_comm]

/-- Settles O55: BIT reads its operand, RES clears the bit of the mask and SET sets it. -/
theorem bitOperationResult : Obligations.BitOperationResult := by
  intro s b x v hx
  refine ⟨?bit, ?res, ?set⟩
  case bit =>
    have hr (r : Reg8) : ((s.setFlags (!v.getLsbD b.toNat) false true s.flagC).advance 2).r8 r = s.r8 r := by simp
    exact ⟨_, execBit_result b hx, rmHolds_of_same hx hr rfl, rfl, hr, rfl, ⟨rfl, rfl, rfl, rfl, rfl, rfl⟩, rfl,
      State.flagsAre_setFlags ..⟩
  case res =>
    obtain ⟨t, ht, hr, hf⟩ := updateRM_keeps_f_result (f := (· &&& ~~~ bitMask b)) hx 2
    refine ⟨t, _, ht, hr, hf, fun k hk => ?_⟩
    rw [BitVec.getLsbD_and, BitVec.getLsbD_not, getLsbD_bitMask b hk]
    simp [hk]
  case set =>
    obtain ⟨t, ht, hr, hf⟩ := updateRM_keeps_f_result (f := (· ||| bitMask b)) hx 2
    refine ⟨t, _, ht, hr, hf, fun k hk => ?_⟩
    rw [BitVec.getLsbD_or, getLsbD_bitMask b hk]

end Sys2Proof.Machine
end

section
/-! System instructions (45_system R240 to R244). -/

namespace Sys2Proof.Machine

open Sys2Proof Sys2Proof.Claim

/-- Settles O56: each is the end of an instruction, by `complete`, of the state with its own latches written. -/
theorem systemInstructionResult : Obligations.SystemInstructionResult := by
  intro s n
  refine ⟨?nop, ?halt, ?stop, ?di, ?ei⟩
  case nop => exact complete_ok 1 s
  case halt => exact complete_ok 1 { s with halted := true }
  case stop => exact complete_ok 2 { s with stopped := true }
  case di => exact complete_ok 1 { s with ime := false, eiPending := false }
  case ei => exact complete_ok 1 { s with eiPending := true }

end Sys2Proof.Machine
end

section
/-! Faults, interrupt entry and wake (60_exceptions R250, R262 to R264, R267): what a faulting step leaves, and what a
requested entry answers. -/

namespace Sys2Proof.Machine

open Sys2Proof Sys2Proof.Claim

/-! ### A faulting step and the sticky latch (R250) -/

/-- A fault that `executeOne` answers is the step's, latched in the state before (R250). -/
theorem executeOne_fault_inv {s t : State} {f : Fault} (h : executeOne s = (t, .fault f)) :
    step s = .fault f ∧ t = s.latchFault f := by
  cases hs : step s with
  | next u =>
    rw [executeOne_next hs] at h
    cases h
  | fault g =>
    rw [executeOne_fault hs] at h
    cases h
    exact ⟨rfl, rfl⟩
  | refused r =>
    rw [executeOne, hs] at h
    cases h

/-- Each fault that a step raises itself is that of the instruction at its PC. -/
theorem step_fault_pc {s : State} {f : Fault} (hs : s.fault = none) (h : step s = .fault f) : faultPc f = s.pc := by
  obtain ⟨op, rfl⟩ | ⟨a, rfl⟩ := step_fault_unlatched hs h <;> rfl

/-- No host action but a launch writes the fault latch (R284). -/
theorem hostAct_keeps_fault {h : HostAction} {s t : State} (hl : ∀ p init image, h ≠ .launch p init image)
    (ht : hostAct h s = .next t) : t.fault = s.fault := by
  have hk : KeptByOps s.params (fun u => u.fault = s.fault) :=
    keptByOps_of_sameLatches s.params fun u v ⟨_, _, _, _, fault, _⟩ hu => fault.trans hu
  exact hostAct_keeps hk rfl (fun p x image he => absurd he (hl p x image)) rfl rfl ht

/-- Settles O12: the state after a faulting step has the fault latched, which answers the next step and which the host
cannot clear. -/
theorem faultIsAtomicAndSticky : Obligations.FaultIsAtomicAndSticky := by
  intro s t f h
  obtain ⟨hstep, rfl⟩ := executeOne_fault_inv h
  have hlatched : (s.latchFault f).fault = some f := rfl
  refine ⟨rfl, fun hs => step_fault_pc hs hstep, ?again, fun a u ha hu => (hostAct_keeps_fault ha hu).trans hlatched⟩
  case again => rw [executeOne_fault (step_latched hlatched), State.latchFault_latched hlatched]

/-! ### Interrupt entry and wake (R262 to R264) -/

/-- The state that an entry pushes from: IME, ei_pending and halted are cleared first (R263). -/
def State.clearedForEntry (s : State) : State := { s with ime := false, eiPending := false, halted := false }

section
variable {s : State} (i : InterruptSource)

/-- An entry that the controller may make is a push of PC and then a transfer to the vector (R262, R263). -/
theorem requestEntry_admitted (hf : s.fault = none) (hime : s.ime = true) :
    requestEntry i s = transfer ((pushWord s.clearedForEntry s.pc).map (i.vector, ·)) := by
  simp only [requestEntry, hf, hime, enterInterrupt, State.clearedForEntry]
  cases pushWord _ s.pc <;> rfl

theorem requestEntry_masked (hf : s.fault = none) (hime : s.ime = false) :
    requestEntry i s = .refused .entryWhileMasked := by
  simp [requestEntry, hf, hime]

theorem requestEntry_faulted {f : Fault} (hf : s.fault = some f) : requestEntry i s = .refused .entryWhileFaulted := by
  simp [requestEntry, hf]

end

/-- Settles O58: the push is that of `stackCellsByMode` from the cleared state, or faults as `pushWord_answers` says. -/
theorem interruptEntryResult : Obligations.InterruptEntryResult := by
  intro s i hf hime
  rw [hostAct, requestEntry_admitted i hf hime]
  refine ⟨fun h => ?enters, fun a ha => ?faults⟩
  case enters =>
    obtain ⟨push, -⟩ := stackCellsByMode s.clearedForEntry s.pc
    obtain ⟨u, hu, hpushed, hcells⟩ := push h
    obtain ⟨ime, eiPending, halted, stopped, fault, params⟩ := pushWord_sameLatches hu
    rw [hu]
    refine ⟨u.jumpTo i.vector, rfl, hpushed, ?vector, ime, eiPending, halted, stopped, fault.trans hf, params,
      (pushWord_sameRegisters hu :), hcells⟩
    cases i <;> rfl
  case faults =>
    have hpush := (pushWord_answers s.clearedForEntry s.pc).of_find_some ha
    have hle := pushCells_le s a (List.mem_of_find?_eq_some ha)
    rw [hpush, addressFault, busAddress_of_le _ hle]
    rfl

/-- Settles O60: the wake is `State.wake`, and each refusal is one of the two guards of `requestEntry`. -/
theorem entryConditionsAndWake : Obligations.EntryConditionsAndWake := fun _ i =>
  ⟨rfl, requestEntry_masked i, fun _ => requestEntry_faulted i⟩

end Sys2Proof.Machine
end
